-- ==== Sys2Proof/Word.lean ====
section
/-! DEFINITION. The widths of ADB's buses and of the command word (spec 00_scope.md R6, 30_encoding.md R60). -/

namespace Sys2Proof

/-- DATA_W = 8 bits (00 R6). -/
abbrev Byte := BitVec 8

/-- ADDR_W = 16 bits (00 R6). -/
abbrev Addr := BitVec 16

/-- The command word CW, bit 31 most significant (30 R60). -/
abbrev Word := BitVec 32

end Sys2Proof
end

