-- ==== Sys2Proof/Syntax.lean ====
section
/-! DEFINITION. The vocabulary of ADB's ports: the fifteen operations with their operands, the results, the emitted signals and the requests (spec 00_scope.md R5, R8; 30_encoding.md R60 to R66). -/

namespace Sys2Proof

/-- A page tag: RAM = 0, ROM = 1, HARDWARE = 2 (10 R11); the value 3 is no tag. -/
inductive Tag where
  | ram
  | rom
  | hardware
  deriving DecidableEq, Repr

/-- The four custom chips of the chip interface (00 R5). -/
inductive Chip where
  | videoColor
  | audioTimer
  | peripheral
  | videoAddrgen
  deriving DecidableEq, Repr

/-- The two request ports (00 R5, 60 R198). -/
inductive Port where
  | cpu
  | host
  deriving DecidableEq, Repr

/-- A handler reference, opaque to ADB (10 R18): a token that only equality looks at. -/
abbrev Handler := Nat

/-- One typed field of the snapshot stream (44 R173): a width in bits and a value of that width. -/
structure Field where
  width : Nat
  value : BitVec width
  deriving DecidableEq, Repr

/-- The snapshot stream, first field first (44 R173). -/
abbrev Stream := List Field

/-- `U8(v)` of 44 R174. -/
def Field.u8 (v : Byte) : Field := ⟨8, v⟩

/-- The fifteen operations of 30 R63, one constructor a row, with the operands of 30 R61 and R62.
INSERT, INSTALL, INSTALLR and LOAD carry the side operands that do not fit the command word (30 R60). -/
inductive Instr where
  /-- RD: bus read (40 R80). -/
  | rd (addr : Addr)
  /-- WR: bus write (40 R81). -/
  | wr (addr : Addr) (val : Byte)
  /-- SETATTR: tag the pages first..last (41 R100). -/
  | setattr (first last : Byte) (kind : Tag)
  /-- CTRLW: control-latch write (41 R102). -/
  | ctrlw (v : Byte)
  /-- SETMODE: set the mode flags (41 R106). -/
  | setmode (v : Byte)
  /-- INSERT: the loader's buffer, `none` for null, and its size (42 R120). -/
  | insert (bytes : Option (List Byte)) (size : Nat)
  /-- REMOVE: remove the cartridge (42 R127). -/
  | remove
  /-- INSTALL: install a trap, two sentinel bytes (43 R150). -/
  | install (addr : Addr) (code : Byte) (h : Handler)
  /-- INSTALLR: install a trap with the return opcode, three bytes (43 R152). -/
  | installr (addr : Addr) (code : Byte) (h : Handler)
  /-- UNINST: clear an escape slot (43 R153). -/
  | uninst (code : Byte)
  /-- FIRE: the CPU reports a sentinel (43 R154). -/
  | fire (pc : Addr) (code : Byte)
  /-- WARM: warm start (44 R170). -/
  | warm
  /-- COLD: cold start (44 R171). -/
  | cold
  /-- SAVE: write the snapshot stream (44 R174). -/
  | save
  /-- LOAD: read a snapshot stream (44 R175). -/
  | load (s : Stream)
  deriving DecidableEq, Repr

/-- The side operands that stand on the loader interface, the handler line and the snapshot
substrate beside a command word (30 R60). An operation takes the ones its row names. -/
structure Side where
  bytes : Option (List Byte)
  size : Nat
  handler : Handler
  stream : Stream
  deriving DecidableEq, Repr

/-- One request: a command word on a port, with its side operands (30 R60). -/
structure Request where
  port : Port
  word : Word
  side : Side
  deriving DecidableEq, Repr

/-- The reasons of `REFUSED(reason)` (30 R66). -/
inductive Reason where
  | illegalCmd
  | wrongPort
  | machineCrashed
  | snapshotMismatch
  deriving DecidableEq, Repr

/-- The result an operation returns (30 R66). -/
inductive Result where
  | data (v : Byte)
  | done
  | ok
  | cartCantOpen
  | cartBadFormat
  | invoked (h : Handler)
  | crash
  | stream (fields : Stream)
  | refused (reason : Reason)
  deriving DecidableEq, Repr

/-- The outgoing signals of 00 R5. -/
inductive Signal where
  | chipGet (ch : Chip) (addr : Addr)
  | chipPut (ch : Chip) (addr : Addr) (v : Byte)
  | chipReset (ch : Chip)
  | cpuReset
  | invoke (h : Handler)
  | crash
  | keyHold (a b : Bool) (frames : Nat)
  deriving DecidableEq, Repr

end Sys2Proof
end

