-- ==== Sys2Proof/Config.lean ====
section
/-! DEFINITION. The configuration record CFG (spec 00_scope.md R6, R7): the fixed values, the open parameters as a record of plain data, and the free values, opaque constants that no proof can evaluate. -/

namespace Sys2Proof

/-- The bank-layout classes `CLASS(t)` of 42 R124. -/
inductive CartClass where
  | fixed
  | super
  | quirkA
  | quirkB
  deriving DecidableEq, Repr

/-- A layout descriptor `{src, dst, size}` (42 R124). -/
structure Descriptor where
  src : Nat
  dst : Nat
  size : Nat
  deriving DecidableEq, Repr

/-- `CLASS`, `IMGSIZE` and `LAYOUT` of one type tag (42 R124, 30 R67). -/
structure TypeRow where
  tag : Byte
  cls : CartClass
  imgSize : Nat
  layout : List Descriptor
  deriving DecidableEq, Repr

/-- A fingerprint (42 R123): a token that only the catalog's lookup compares. -/
abbrev Fingerprint := Nat

/-- A calibration value (10 R15, D43), carried and never computed with. -/
abbrev Calibration := Nat

/-- A catalog entry `{type, name, cal1, cal2}` (42 R123). -/
structure CatalogEntry where
  typeTag : Byte
  name : String
  cal1 : Calibration
  cal2 : Calibration
  deriving DecidableEq, Repr

/-- The three overlays (41 R101), in the order of 41 R102. -/
inductive OverlayId where
  | os
  | basic
  | selftest
  deriving DecidableEq, Repr

/-- One page of ROM contents: PAGE_SZ = 256 bytes (00 R6). -/
abbrev RomPage := Vector Byte 256

/-- An overlay descriptor `OVL[k]` (41 R103). `rom` holds the ROM bytes in range order, a page at a time. -/
structure Overlay where
  bit : Fin 8
  level : Bool
  ranges : List (Byte × Byte)
  rom : List RomPage
  deriving DecidableEq, Repr

/-- The open parameters of 00 R7 that are data. FINGERPRINT and the ChipGet oracle are the free
values `Config.fingerprint` and `Config.chipAnswer`. -/
structure Config where
  winLo : Addr
  winHi : Addr
  maxCart : Nat
  selPage : Byte
  selMatch : Vector (Option (Fin 16)) 16
  powerupBank : Fin 16
  qoffA : Vector (Vector Nat 4) 2
  qoffB : Vector (Vector Nat 4) 2
  qfixA : List Descriptor
  qfixB : List Descriptor
  catalog : List (Fingerprint × CatalogEntry)
  types : List TypeRow
  sigSavestate : List Byte
  sigContainer : List Byte
  ctrlAddr : Option Addr
  ovlOs : Overlay
  ovlBasic : Overlay
  ovlSelftest : Overlay
  ctrlReset : Byte
  memInit : List Host.Cell
  escOp : Byte
  retOp : Byte
  coldAddr : Addr
  coldVal : Byte
  holdFrames : Nat
  legacy : List Nat
  deriving DecidableEq, Repr

/-- `OVL[k]` (00 R7). -/
def Config.ovl (cfg : Config) : OverlayId → Overlay
  | .os => cfg.ovlOs
  | .basic => cfg.ovlBasic
  | .selftest => cfg.ovlSelftest

/-- FREE VALUE. FINGERPRINT, "any total function of the `size` image bytes" (42 R123, log 10). -/
opaque Config.fingerprint : List Byte → Fingerprint

/-- FREE VALUE. The ChipGet oracle (00 R7, 40 R83): what a chip answers to a read of an address after
the history of emitted signals, newest first (log 9). -/
opaque Config.chipAnswer : Chip → Addr → List Signal → Byte

/-- FREE VALUE. What the snapshot substrate does with a read of `w` bits when the next field has
another width: a value and the rest of the stream, or the end of the stream (44 R173 states the typed
reads only; log 15). -/
opaque Config.mistypedRead : (w : Nat) → Stream → Option (BitVec w × Stream)

/-- FREE VALUE. A byte at an image offset beyond the image, which a well-formed configuration never
asks for (42 R124, log 14). -/
opaque Config.byteBeyondImage : Nat → Byte

/-- FREE VALUE. HOLD_FRAMES of the reference configuration, "left symbolic" (95 section 1.1, D36, log 16). -/
opaque Config.refHoldFrames : Nat

end Sys2Proof
end

