-- ==== Sys2Proof/Machine/Memory.lean ====
section
/-! DEFINITION. The backing store MEM (spec 10_state.md R12, 20_memory.md R40, R42) as a list of cells in one canonical form, and its operations. -/

namespace Sys2Proof.Machine

/-- MEM: (address, byte) cells, addresses strictly rising, none equal to the unlisted byte. -/
abbrev Memory := List Host.Cell

/-- The number of addresses, 2^16 (00 R6). -/
def addrCount : Nat := 65536

/-- What an unlisted address reads as. DESIGN CHOICE: 0x00, the reference MEM_INIT of 95 section 1.1 and
the removed-window fill of 00 R6 (log 3). -/
def Memory.unlisted : Byte := 0x00

/-- The cells' addresses rise strictly, starting at `lo` or above. -/
def Memory.risesFrom : Nat → Memory → Bool
  | _, [] => true
  | lo, (a, _) :: rest => decide (lo ≤ a) && Memory.risesFrom (a + 1) rest

/-- The canonical form: rising addresses below 2^16, no cell that says what an unlisted address says. -/
def Memory.wf (m : Memory) : Bool :=
  Memory.risesFrom 0 m && m.all fun c => decide (c.1 < addrCount) && decide (c.2 ≠ Memory.unlisted)

/-- `MEM[a]`, with no tag check (00 R8). -/
def Memory.read : Memory → Nat → Byte
  | [], _ => Memory.unlisted
  | (k, v) :: rest, a => if a = k then v else Memory.read rest a

/-- The cells that list the bytes `bs` from address `base` up. A byte an unlisted address already shows is
not listed, and no cell lies past 0xFFFF: 20 R46 says no copy reaches there (log 18). -/
def Memory.cells : Nat → List Byte → Memory
  | _, [] => []
  | base, b :: bs =>
    if b = Memory.unlisted ∨ addrCount ≤ base then Memory.cells (base + 1) bs
    else (base, b) :: Memory.cells (base + 1) bs

/-- A copy: `MEM[base + i] <- bs[i]` for every i, ascending (20 R42). -/
def Memory.overwrite (m : Memory) (base : Nat) (bs : List Byte) : Memory :=
  m.filter (fun c => decide (c.1 < base)) ++ Memory.cells base bs
    ++ m.filter (fun c => decide (base + bs.length ≤ c.1))

/-- A fill: `MEM[base + i] <- v` for every i below `len`; the copy of `len` bytes `v`, which lists no cell
when `v` is what an unlisted address shows. -/
def Memory.fill (m : Memory) (base len : Nat) (v : Byte) : Memory :=
  m.filter (fun c => decide (c.1 < base))
    ++ (if v = Memory.unlisted then [] else Memory.cells base (List.replicate len v))
    ++ m.filter (fun c => decide (base + len ≤ c.1))

/-- `MEM[a] <- v`, with no tag check (00 R8). -/
def Memory.write (m : Memory) (a : Addr) (v : Byte) : Memory :=
  m.overwrite a.toNat [v]

/-- `len` bytes of an image from offset `off` (20 R53). Offsets past the image, which a well-formed
configuration never asks for, give free bytes (log 14). -/
def imageSlice (img : List Byte) (off len : Nat) : List Byte :=
  let inside := (img.drop off).take len
  inside ++ (List.range (len - inside.length)).map
    (fun k => Config.byteBeyondImage (off + inside.length + k))

/-- `IMG[i]` (00 R8). -/
def imageByte (img : List Byte) (i : Nat) : Byte :=
  img.getD i (Config.byteBeyondImage i)

/-- `ApplyLayout(L)` (42 R125): each descriptor's slice copied to its window, in list order. -/
def applyLayout (img : List Byte) (layout : List Descriptor) (m : Memory) : Memory :=
  layout.foldl (fun m d => m.overwrite d.dst (imageSlice img d.src d.size)) m

end Sys2Proof.Machine
end

