-- ==== Sys2Proof/Machine/Pages.lean ====
section
/-! DEFINITION. The page tag table PT (spec 10_state.md R11) and its operations. -/

namespace Sys2Proof.Machine

/-- PT: the tag of each of the 256 pages; total, one tag a page (10 R11). -/
abbrev PageTable := Vector Tag 256

/-- `PT[p]`. -/
def PageTable.tag (pt : PageTable) (p : Byte) : Tag := pt[p.toNat]'p.isLt

/-- The tags from page `p` on, those of lo..hi replaced by `t`. -/
def retag (lo hi : Byte) (t : Tag) : Nat → List Tag → List Tag
  | _, [] => []
  | p, old :: rest =>
    (if lo.toNat ≤ p ∧ p ≤ hi.toNat then t else old) :: retag lo hi t (p + 1) rest

theorem retag_length (lo hi : Byte) (t : Tag) (p : Nat) (tags : List Tag) :
    (retag lo hi t p tags).length = tags.length := by
  induction tags generalizing p with
  | nil => rfl
  | cons old rest ih => rw [retag, List.length_cons, List.length_cons, ih]

/-- `for p in lo..hi: PT[p] <- t`, both ends inclusive, nothing when lo > hi (41 R100). -/
def PageTable.setRange (pt : PageTable) (lo hi : Byte) (t : Tag) : PageTable :=
  ⟨⟨retag lo hi t 0 pt.toArray.toList⟩, by
    change (retag lo hi t 0 pt.toArray.toList).length = 256
    rw [retag_length]
    exact pt.size_toArray⟩

/-- `PT[p] <- t`. -/
def PageTable.set1 (pt : PageTable) (p : Byte) (t : Tag) : PageTable :=
  pt.setRange p p t

/-- The tags of a list of page ranges, each set to `t` in order. -/
def PageTable.setRanges (pt : PageTable) (ranges : List (Byte × Byte)) (t : Tag) : PageTable :=
  ranges.foldl (fun pt r => pt.setRange r.1 r.2 t) pt

end Sys2Proof.Machine
end

