-- ==== Sys2Proof/Machine/Overlay.lean ====
section
/-! DEFINITION. What the overlay actions do to MEM (spec 41_page_table_overlay.md R105), and the cartridge window's bounds (00_scope.md R7). -/

namespace Sys2Proof.Machine

/-- The number of pages in a range (first, last), both inclusive (41 R103). -/
def rangePages (r : Byte × Byte) : Nat := r.2.toNat + 1 - r.1.toNat

/-- The first address of a range. -/
def rangeBase (r : Byte × Byte) : Nat := r.1.toNat * 256

/-- Pages of ROM as bytes, in order. -/
def romBytes (rom : List RomPage) : List Byte := rom.flatMap (fun p => p.toList)

/-- The bytes of OverlayEnable: ROM bytes copied over the ranges in range order (41 R105). -/
def copyRom : List (Byte × Byte) → List RomPage → Memory → Memory
  | [], _, m => m
  | r :: rest, rom, m =>
    copyRom rest (rom.drop (rangePages r))
      (m.overwrite (rangeBase r) (romBytes (rom.take (rangePages r))))

/-- FLOAT, the floating-bus value (00 R6). -/
def floatByte : Byte := 0xFF

/-- The bytes of OverlayDisable: FLOAT over every range (41 R105). -/
def fillFloat (ranges : List (Byte × Byte)) (m : Memory) : Memory :=
  ranges.foldl (fun m r => m.fill (rangeBase r) (rangePages r * 256) floatByte) m

/-- The overlay is enabled by a latch value: its bit has its level (41 R102, 70 R210). -/
def overlayOn (o : Overlay) (latch : Byte) : Bool := latch.getLsbD o.bit.val == o.level

/-- WIN_LO as a number. -/
def winBase (cfg : Config) : Nat := cfg.winLo.toNat

/-- The window's length, `WIN_HI - WIN_LO + 1`. -/
def winLen (cfg : Config) : Nat := cfg.winHi.toNat + 1 - cfg.winLo.toNat

/-- `WIN_LO <= a <= WIN_HI`. -/
def inWindow (cfg : Config) (a : Nat) : Bool :=
  decide (cfg.winLo.toNat ≤ a) && decide (a ≤ cfg.winHi.toNat)

/-- `page(WIN_LO)`. -/
def winFirstPage (cfg : Config) : Byte := cfg.winLo.extractLsb' 8 8

/-- `page(WIN_HI)`. -/
def winLastPage (cfg : Config) : Byte := cfg.winHi.extractLsb' 8 8

/-- REMOVED_FILL, what an empty window reads as (00 R6). -/
def removedFill : Byte := 0x00

/-- The window's bytes after DoRemove, and at the start of PowerUpMap (42 R125, R127). -/
def clearWindow (cfg : Config) (m : Memory) : Memory :=
  m.fill (winBase cfg) (winLen cfg) removedFill

/-- The window's pages tagged ROM (42 R126, R127). -/
def sealWindow (cfg : Config) (pt : PageTable) : PageTable :=
  pt.setRange (winFirstPage cfg) (winLastPage cfg) .rom

/-- PT after PowerOn (70 R210): RAM, then the window ROM, then the enabled overlays' ranges ROM. -/
def powerOnPages (cfg : Config) : PageTable :=
  let on (o : Overlay) (pt : PageTable) : PageTable :=
    if overlayOn o cfg.ctrlReset then pt.setRanges o.ranges .rom else pt
  on cfg.ovlSelftest (on cfg.ovlBasic (on cfg.ovlOs (sealWindow cfg (Vector.replicate 256 Tag.ram))))

/-- MEM after PowerOn (70 R210): MEM_INIT, then the window 0x00, then the enabled overlays' bytes. -/
def powerOnBytes (cfg : Config) : Memory :=
  let on (o : Overlay) (m : Memory) : Memory :=
    if overlayOn o cfg.ctrlReset then copyRom o.ranges o.rom m else m
  on cfg.ovlSelftest (on cfg.ovlBasic (on cfg.ovlOs (clearWindow cfg cfg.memInit)))

end Sys2Proof.Machine
end

