-- ==== Sys2Proof/Machine/Operands.lean ====
section
/-! DEFINITION. What ADB reads out of an address, a page or an image size (spec 00_scope.md R8, 20_memory.md R53, 40_bus_access.md R82, R84, 42_cartridge.md R122, R124, R131). -/

namespace Sys2Proof.Machine

/-- `page(a) = a[15:8]` (00 R8). -/
def pageOf (a : Addr) : Byte := a.extractLsb' 8 8

/-- `off(a) = a[7:0]` (00 R8). -/
def offOf (a : Addr) : Byte := a.extractLsb' 0 8

/-- `addr[3:0]`, the select nibble (42 R128). -/
def nibbleOf (a : Addr) : BitVec 4 := a.extractLsb' 0 4

/-- Where a HARDWARE page's accesses go (40 R82). -/
inductive Target where
  | chip (ch : Chip)
  | cartCtl
  | nothing
  deriving DecidableEq, Repr

/-- The CHIP rows of the dispatch table (40 R82). -/
def chipOf (p : Byte) : Option Chip :=
  match p.toNat with
  | 0xC0 => some .videoColor
  | 0xD0 => some .videoColor
  | 0xD2 => some .audioTimer
  | 0xE8 => some .audioTimer
  | 0xEB => some .audioTimer
  | 0xD3 => some .peripheral
  | 0xD4 => some .videoAddrgen
  | _ => none

/-- The CARTCTL rows of the dispatch table: 0xD5, 0x4F, 0x5F and SEL_PAGE (40 R82). -/
def isCartPage (cfg : Config) (p : Byte) : Bool :=
  p == 0xD5 || p == 0x4F || p == 0x5F || p == cfg.selPage

/-- The hardware target function, by page number alone (40 R82). -/
def target (cfg : Config) (p : Byte) : Target :=
  match chipOf p with
  | some ch => .chip ch
  | none => if isCartPage cfg p then .cartCtl else .nothing

/-- SEL_MATCH (42 R128). -/
def selMatch (cfg : Config) (n : BitVec 4) : Option (Fin 16) := cfg.selMatch[n.toNat]'n.isLt

/-- The slice trigger: QWIN0 and QWIN1, the region and the slice an address selects (40 R84, 42 R130). -/
def sliceTrigger (a : Addr) : Option (Fin 2 × BitVec 2) :=
  if 0x4FF6 ≤ a.toNat ∧ a.toNat ≤ 0x4FF9 then some (0, BitVec.ofNat 2 (a.toNat - 0x4FF6))
  else if 0x5FF6 ≤ a.toNat ∧ a.toNat ≤ 0x5FF9 then some (1, BitVec.ofNat 2 (a.toNat - 0x5FF6))
  else none

/-- BANK_SZ (00 R6). -/
def bankSize : Nat := 0x8000

/-- SUPER_BANKS (00 R6). -/
def superBanks : Nat := 16

/-- QSLICE_SZ (00 R6). -/
def sliceSize : Nat := 0x1000

/-- MIN_CART (00 R6). -/
def minCart : Nat := 0x1000

/-- SIZE_40K (00 R6). -/
def size40K : Nat := 0xA000

/-- The first address of paired region r, `0x4000 + r*0x1000` (42 R130). -/
def regionBase (r : Fin 2) : Nat := 0x4000 + r.val * 0x1000

/-- `QOFF_x[r][k]`, x the class of the active cartridge (42 R130, R131). -/
def sliceOffset (cfg : Config) (cls : CartClass) (r : Fin 2) (k : BitVec 2) : Nat :=
  match cls with
  | .quirkB => cfg.qoffB[r][k.toNat]'k.isLt
  | _ => cfg.qoffA[r][k.toNat]'k.isLt

/-- The type row of a tag. A tag with no row has size 0, so no image can have it; 70 R215 item 6 (the
catalog's types have rows) keeps such tags out of a well-formed configuration. -/
def typeRow (cfg : Config) (t : Byte) : TypeRow :=
  match cfg.types.find? (fun row => row.tag == t) with
  | some row => row
  | none => ⟨t, .fixed, 0, []⟩

/-- `TOTAL` by class (10 R16, 42 R120). -/
def totalOf : CartClass → Nat
  | .fixed => 1
  | .super => 16
  | .quirkA => 4
  | .quirkB => 4

/-- `size = 2^n for some n` (42 R122). -/
def isPowerOfTwo (size : Nat) : Bool := size == 2 ^ Nat.log2 size

/-- `RawSizeOk(size)` (42 R122). -/
def rawSizeOk (cfg : Config) (size : Nat) : Bool :=
  size == size40K || (isPowerOfTwo size && decide (minCart ≤ size) && decide (size ≤ cfg.maxCart))

/-- `CATALOG(fp)` (42 R123): the first entry listed for the fingerprint. -/
def catalogEntry (cfg : Config) (fp : Fingerprint) : Option CatalogEntry :=
  (cfg.catalog.find? (fun e => e.1 == fp)).map (fun e => e.2)

/-- SENT_W, the sentinel's width (00 R6), taken off a pc modulo 2^16 (20 R53, 43 R155). -/
def sentinelStart (pc : Addr) : Addr := pc - 2

end Sys2Proof.Machine
end

