-- ==== Sys2Proof/Machine/ConfigCheck.lean ====
section
/-! DEFINITION. Configuration well-formedness (spec 70_reset_and_hazards.md R215, 42_cartridge.md R124). -/

namespace Sys2Proof.Machine

/-- R215 item 1: whole pages, in order. -/
def windowAligned (cfg : Config) : Bool :=
  cfg.winLo.toNat % 256 == 0 && (cfg.winHi.toNat + 1) % 256 == 0
    && decide (cfg.winLo.toNat ≤ cfg.winHi.toNat)

/-- R215 item 2: 0x4000 to 0x5FFF lies inside the window. -/
def windowHoldsRegions (cfg : Config) : Bool :=
  decide (cfg.winLo.toNat ≤ 0x4000) && decide (0x5FFF ≤ cfg.winHi.toNat)

/-- The class of a catalog entry's type. -/
def entryClass (cfg : Config) (e : CatalogEntry) : CartClass := (typeRow cfg e.typeTag).cls

/-- R215 item 3: a SUPER type in the catalog needs a 32KiB window. -/
def windowFitsSuper (cfg : Config) : Bool :=
  cfg.catalog.all fun e => entryClass cfg e.2 != .super || winLen cfg == bankSize

/-- R215 item 4: SEL_PAGE is no chip page. -/
def selPageFree (cfg : Config) : Bool := (chipOf cfg.selPage).isNone

/-- One descriptor of 42 R124: source inside the image, destination inside the window. -/
def descriptorOk (cfg : Config) (imgSize : Nat) (d : Descriptor) : Bool :=
  decide (d.src + d.size ≤ imgSize) && decide (cfg.winLo.toNat ≤ d.dst)
    && decide (d.dst + d.size ≤ cfg.winHi.toNat + 1)

/-- Every slice of a table lies inside the image (42 R124). -/
def slicesOk (q : Vector (Vector Nat 4) 2) (imgSize : Nat) : Bool :=
  q.toList.all fun row => row.toList.all fun off => decide (off + sliceSize ≤ imgSize)

/-- One type row of 42 R124. -/
def typeRowOk (cfg : Config) (row : TypeRow) : Bool :=
  match row.cls with
  | .fixed => row.layout.all (descriptorOk cfg row.imgSize)
  | .super => row.imgSize == superBanks * bankSize
  | .quirkA => slicesOk cfg.qoffA row.imgSize && cfg.qfixA.all (descriptorOk cfg row.imgSize)
  | .quirkB => slicesOk cfg.qoffB row.imgSize && cfg.qfixB.all (descriptorOk cfg row.imgSize)

/-- R215 item 6, the types: every layout obeys 42 R124. (Item 5, banks below 16, holds by `Fin 16`.) -/
def typesOk (cfg : Config) : Bool := cfg.types.all (typeRowOk cfg)

/-- R215 item 6, the catalog: no entry has tag 0, and each entry's type has a row (30 R67). -/
def catalogOk (cfg : Config) : Bool :=
  cfg.catalog.all fun e => e.2.typeTag != 0 && cfg.types.any (fun row => row.tag == e.2.typeTag)

/-- R215 item 7: each range ordered, 256 ROM bytes a page (`RomPage` is 256 bytes by its type). -/
def overlayOk (o : Overlay) : Bool :=
  o.ranges.all (fun r => decide (r.1.toNat ≤ r.2.toNat))
    && o.rom.length == (o.ranges.map rangePages).sum

/-- R215 item 7 for the three overlays. -/
def overlaysOk (cfg : Config) : Bool :=
  overlayOk cfg.ovlOs && overlayOk cfg.ovlBasic && overlayOk cfg.ovlSelftest

/-- R215 item 8: CTRL_ADDR, when set, lies on a chip page. -/
def ctrlAddrOk (cfg : Config) : Bool :=
  match cfg.ctrlAddr with
  | none => true
  | some a => (chipOf (pageOf a)).isSome

/-- R215 item 9: MIN_CART <= MAX_CART, MAX_CART at least the largest IMGSIZE. (Item 10 holds by type.) -/
def sizesOk (cfg : Config) : Bool :=
  decide (minCart ≤ cfg.maxCart) && cfg.types.all fun row => decide (row.imgSize ≤ cfg.maxCart)

/-- MEM_INIT is a memory in canonical form, so that power-on starts from plain, comparable data. -/
def memInitOk (cfg : Config) : Bool := Memory.wf cfg.memInit

/-- Configuration well-formedness, all items of R215. -/
def configOk (cfg : Config) : Bool :=
  windowAligned cfg && windowHoldsRegions cfg && windowFitsSuper cfg && selPageFree cfg
    && typesOk cfg && catalogOk cfg && overlaysOk cfg && ctrlAddrOk cfg && sizesOk cfg && memInitOk cfg

end Sys2Proof.Machine
end

