-- ==== Sys2Proof/Machine/Reference.lean ====
section
/-! DEFINITION. REF, the reference configuration (spec 95_test_vectors.md section 1.1; 00_scope.md R7; 41_page_table_overlay.md R103; 42_cartridge.md R124, R131). None of its values is the source's (log 2). -/

namespace Sys2Proof.Machine

/-- `count` ROM pages, every byte of page i being `base | i`. -/
def patternRom (base : Byte) (count : Nat) : List RomPage :=
  (List.range count).map fun i => Vector.replicate 256 (base ||| BitVec.ofNat 8 i)

/-- OVL[OS] of 95 section 1.1: bit 0, level 1, pages 0xF0 to 0xFF, `rom[i] = 0xE0 | i[11:8]`. -/
def refOs : Overlay := ⟨0, true, [(0xF0, 0xFF)], patternRom 0xE0 16⟩

/-- OVL[BASIC]: bit 1, level 0, pages 0xA0 to 0xBF, `rom[i] = 0x20 | i[12:8]`. -/
def refBasic : Overlay := ⟨1, false, [(0xA0, 0xBF)], patternRom 0x20 32⟩

/-- OVL[SELFTEST]: bit 7, level 0, pages 0x50 to 0x57, `rom[i] = 0xD0 | i[10:8]`. -/
def refSelftest : Overlay := ⟨7, false, [(0x50, 0x57)], patternRom 0xD0 8⟩

/-- The type tags of 42 R124: 1 EE16, 2 SUPER, 3 QUIRK_A, 4 QUIRK_B. -/
def refTypes : List TypeRow :=
  [ ⟨1, .fixed, 0x4000,
      [⟨0x0000, 0x4000, 0x2000⟩, ⟨0x0000, 0x6000, 0x2000⟩, ⟨0x0000, 0x8000, 0x2000⟩, ⟨0x2000, 0xA000, 0x2000⟩]⟩,
    ⟨2, .super, 0x80000, []⟩,
    ⟨3, .quirkA, 0xA000, []⟩,
    ⟨4, .quirkB, 0xA000, []⟩ ]

/-- The reference catalog: one entry for each reference type, under placeholder fingerprints. The spec
gives no catalog ("none (premise in vectors)", 00 R7; log 10). -/
def refCatalog : List (Fingerprint × CatalogEntry) :=
  [ (1, ⟨1, "EE16", 0, 0⟩), (2, ⟨2, "SUPER", 0, 0⟩), (3, ⟨3, "QUIRK_A", 0, 0⟩), (4, ⟨4, "QUIRK_B", 0, 0⟩) ]

/-- SEL_MATCH's reference: nibble n selects bank n (42 R128). -/
def refSelMatch : Vector (Option (Fin 16)) 16 :=
  #v[some 0, some 1, some 2, some 3, some 4, some 5, some 6, some 7,
     some 8, some 9, some 10, some 11, some 12, some 13, some 14, some 15]

/-- REF (95 section 1.1). -/
def referenceConfig : Config where
  winLo := 0x4000
  winHi := 0xBFFF
  maxCart := 0x80000
  selPage := 0xD5
  selMatch := refSelMatch
  powerupBank := 0
  qoffA := #v[#v[0x0000, 0x1000, 0x2000, 0x3000], #v[0x4000, 0x5000, 0x6000, 0x7000]]
  qoffB := #v[#v[0x2000, 0x3000, 0x4000, 0x5000], #v[0x6000, 0x7000, 0x8000, 0x9000]]
  qfixA := [⟨0x8000, 0x8000, 0x2000⟩, ⟨0x8000, 0xA000, 0x2000⟩]
  qfixB := [⟨0x0000, 0x8000, 0x2000⟩, ⟨0x0000, 0xA000, 0x2000⟩]
  catalog := refCatalog
  types := refTypes
  sigSavestate := [0x41, 0x54, 0x41, 0x52, 0x49, 0x38, 0x30, 0x30]
  sigContainer := [0x43, 0x41, 0x52, 0x54]
  ctrlAddr := some 0xD301
  ovlOs := refOs
  ovlBasic := refBasic
  ovlSelftest := refSelftest
  ctrlReset := 0xFF
  memInit := []
  escOp := 0xF2
  retOp := 0x60
  coldAddr := 0x0244
  coldVal := 0x01
  holdFrames := Config.refHoldFrames
  legacy := []

end Sys2Proof.Machine
end

