-- ==== Sys2Proof/Machine/State.lean ====
section
/-! DEFINITION. The state of ADB as plain data (spec 10_state.md R10 to R19), the reasons a step can stop, and the state after power-on (70_reset_and_hazards.md R210). -/

namespace Sys2Proof.Machine

/-- Why the machine stops with a fault. -/
inductive Fault where
  /-- Raised by INSERT when `size` is larger than a buffer that is not null, a broken precondition to which
  the spec gives no effect (70 R217 item 4, U10). Safe: the model stops where a host may go on (log 12). -/
  | bufferShorterThanSize
  deriving DecidableEq, Repr

/-- Why the model gives a step no meaning. -/
inductive Refusal where
  /-- Answered by an arm of exec whose operation has no meaning yet. Safe: the model stops. -/
  | notModelled (mnemonic : String)
  /-- Answered by step when the configuration is ill-formed: it "rejects an ill-formed one; no rule defines
  behaviour under an ill-formed CFG" (70 R215, U9). Safe: the model stops (log 13). -/
  | illFormedConfig
  deriving DecidableEq, Repr

/-- The active cartridge (10 R15). `img` is the image captured by value at INSERT (42 R121). -/
structure Cartridge where
  typeTag : Byte
  cls : CartClass
  img : List Byte
  imgLen : Nat
  fp : Fingerprint
  name : String
  cal1 : Calibration
  cal2 : Calibration
  deriving DecidableEq, Repr

/-- An escape slot `{VALID, ADDR, HANDLER}` (10 R18); the code is its index. -/
structure Slot where
  valid : Bool
  addr : Addr
  handler : Handler
  deriving DecidableEq, Repr

/-- The state. The first ten names are the spec's record S (10 R10); `cfg`, `requests`, `result`, `outputs`
and `history` are the model's own fields (log 1, 6, 8, 9). -/
structure State where
  /-- PT, the page tag table (10 R11). -/
  pt : PageTable
  /-- MEM, the backing store (10 R12). -/
  mem : Memory
  /-- CTRL, the overlay control latch (10 R13). -/
  ctrl : Byte
  /-- MODE, the mode flags (10 R14). -/
  mode : Byte
  /-- CART, the active cartridge or NONE (10 R15). -/
  cart : Option Cartridge
  /-- BANK, the current bank index (10 R16). -/
  bank : Nat
  /-- TOTAL, the total bank count (10 R16). -/
  total : Nat
  /-- QSEL0, the slice visible in region 0 (10 R17). -/
  qsel0 : BitVec 2
  /-- QSEL1, the slice visible in region 1 (10 R17). -/
  qsel1 : BitVec 2
  /-- ESC, the escape slots (10 R18). -/
  esc : Vector Slot 256
  /-- CRASHED (10 R19). -/
  crashed : Bool
  /-- CFG, fixed for a whole run (10 R25). -/
  cfg : Config
  /-- The requests issued and not yet served, oldest first (70 R213). -/
  requests : List Request
  /-- The result of the last operation (30 R66). -/
  result : Option Result
  /-- The signals the last operation emitted, in order (00 R8). -/
  outputs : List Signal
  /-- Every signal emitted since power-on, newest first (40 R83). -/
  history : List Signal
  deriving DecidableEq, Repr

/-- PowerOn under a configuration (70 R210): no cartridge, no slot, no crash, the latch at CTRL_RESET. -/
def State.powerOn (cfg : Config) : State where
  pt := powerOnPages cfg
  mem := powerOnBytes cfg
  ctrl := cfg.ctrlReset
  mode := 0x00
  cart := none
  bank := 0
  total := 1
  qsel0 := 0
  qsel1 := 0
  esc := Vector.replicate 256 ⟨false, 0, 0⟩
  crashed := false
  cfg := cfg
  requests := []
  result := none
  outputs := []
  history := []

/-- P0, the power-on state under the reference configuration (95 section 1.3). -/
def State.reset : State := State.powerOn referenceConfig

end Sys2Proof.Machine
end

