-- ==== Sys2Proof/Machine/Flags.lean ====
section
/-! DEFINITION. ADB's one-bit status values (spec 10_state.md R22), the latch's edge detector (41_page_table_overlay.md R102) and the mode bits (10_state.md R14). ADB has no condition codes. -/

namespace Sys2Proof.Machine

/-- The edge detector: the overlay's bit of the new value differs from the latch's (41 R102). -/
def edgeOn (o : Overlay) (v latch : Byte) : Bool := v.getLsbD o.bit.val != latch.getLsbD o.bit.val

/-- SKIP_BASIC, bit 0 of MODE (10 R14). -/
def skipBasic (mode : Byte) : Bool := mode.getLsbD 0

/-- BOOT_TAPE, bit 1 of MODE (10 R14). -/
def bootTape (mode : Byte) : Bool := mode.getLsbD 1

/-- "cartridge present", `CART != NONE` (10 R22). -/
def State.cartPresent (s : State) : Bool := s.cart.isSome

/-- The inserted cartridge has CLS = SUPER (44 R174, R175). -/
def State.cartIsSuper (s : State) : Bool :=
  match s.cart with
  | some c => c.cls == .super
  | none => false

/-- `ESC[c]` (00 R8). -/
def State.slot (s : State) (code : Byte) : Slot := s.esc[code.toNat]'code.isLt

/-- The comparator: the slot is valid and its address is the pc less the sentinel's width (43 R155). -/
def slotMatches (slot : Slot) (pc : Addr) : Bool := slot.valid && slot.addr == sentinelStart pc

end Sys2Proof.Machine
end

