-- ==== Sys2Proof/Machine/Ops.lean ====
section
/-! DEFINITION. The operations the meanings share: emitting, finishing, refusing, the crash condition (spec 60_exceptions.md R190, R195), the overlay actions (41 R102, R105), the bank and slice copies (42 R125 to R130), the trap bytes (43 R151), the reset lines (44 R170). -/

namespace Sys2Proof.Machine

/-- An outcome of a step of ADB. -/
abbrev Out := Host.Outcome State Fault Refusal

/-- `emit E` (00 R8): appended to the operation's outputs and to the history. -/
def State.emit (s : State) (e : Signal) : State :=
  { s with outputs := s.outputs ++ [e], history := e :: s.history }

/-- `result v` (00 R8): the operation completes. -/
def State.finish (s : State) (r : Result) : Out := .next { s with result := some r }

/-- `refuse(reason)` (60 R195): no element of state changes, nothing is emitted. -/
def State.refuse (s : State) (reason : Reason) : State :=
  { s with result := some (.refused reason), outputs := [] }

/-- The state an operation starts from: its output list is empty (00 R8). -/
def State.opened (s : State) : State := { s with outputs := [] }

/-- The first line of every operation's pseudocode: refused while CRASHED = 1 (60 R191). -/
def operate (s : State) (body : State → Out) : Out :=
  if s.crashed then .next (s.refuse .machineCrashed) else body s.opened

/-- TAKING THE EXCEPTION: `raise Crash` (60 R190). It records the bit, and nothing else; ADB has no return
from it (60 R191, R197). -/
def State.raiseCrash (s : State) : State := { s with crashed := true }.emit .crash

/-- OverlayEnable (41 R105). -/
def overlayEnable (o : Overlay) (s : State) : State :=
  { s with mem := copyRom o.ranges o.rom s.mem, pt := s.pt.setRanges o.ranges .rom }

/-- OverlayDisable (41 R105). -/
def overlayDisable (o : Overlay) (s : State) : State :=
  { s with mem := fillFloat o.ranges s.mem, pt := s.pt.setRanges o.ranges .ram }

/-- One overlay's turn in CtrlUpdate (41 R102): act only on an edge against the latch's old value. -/
def overlayEdge (v : Byte) (k : OverlayId) (s : State) : State :=
  let o := s.cfg.ovl k
  if edgeOn o v s.ctrl then
    if overlayOn o v then overlayEnable o s else overlayDisable o s
  else s

/-- CtrlUpdate (41 R102): OS, then BASIC, then SELFTEST, then the latch. -/
def ctrlUpdate (v : Byte) (s : State) : State :=
  { overlayEdge v .selftest (overlayEdge v .basic (overlayEdge v .os s)) with ctrl := v }

/-- CtrlSnoop (41 R104). -/
def ctrlSnoop (addr : Addr) (val : Byte) (s : State) : State :=
  if s.cfg.ctrlAddr = some addr then ctrlUpdate val s else s

/-- CopyBank (42 R128): BANK, and the whole 32KiB recopied into the window. -/
def copyBank (c : Cartridge) (b : Nat) (s : State) : State :=
  { s with bank := b, mem := s.mem.overwrite (winBase s.cfg) (imageSlice c.img (b * bankSize) bankSize) }

/-- CopySlice (42 R130): the region's selector, and the whole 4KiB recopied into the region. -/
def copySlice (c : Cartridge) (r : Fin 2) (k : BitVec 2) (s : State) : State :=
  { s with
    qsel0 := if r = 0 then k else s.qsel0
    qsel1 := if r = 0 then s.qsel1 else k
    mem := s.mem.overwrite (regionBase r) (imageSlice c.img (sliceOffset s.cfg c.cls r k) sliceSize) }

/-- The power-up mapping of the paired-window classes (42 R125). -/
def quirkMap (c : Cartridge) (qfix : List Descriptor) (s : State) : State :=
  copySlice c 1 0 (copySlice c 0 0 { s with bank := 0, mem := applyLayout c.img qfix s.mem })

/-- PowerUpMap (42 R125). -/
def powerUpMap (c : Cartridge) (s : State) : State :=
  let s := { s with mem := clearWindow s.cfg s.mem }
  match c.cls with
  | .fixed => { s with bank := 0, mem := applyLayout c.img (typeRow s.cfg c.typeTag).layout s.mem }
  | .super => copyBank c s.cfg.powerupBank.val s
  | .quirkA => quirkMap c s.cfg.qfixA s
  | .quirkB => quirkMap c s.cfg.qfixB s

/-- The tags of TagWindow (42 R126). -/
def windowTags (cfg : Config) (cls : CartClass) (pt : PageTable) : PageTable :=
  match cls with
  | .fixed => sealWindow cfg pt
  | .super => (sealWindow cfg pt).set1 cfg.selPage .hardware
  | .quirkA => ((sealWindow cfg pt).set1 0x4F .hardware).set1 0x5F .hardware
  | .quirkB => ((sealWindow cfg pt).set1 0x4F .hardware).set1 0x5F .hardware

/-- TagWindow (42 R126). -/
def tagWindow (c : Cartridge) (s : State) : State := { s with pt := windowTags s.cfg c.cls s.pt }

/-- DoRemove (42 R127). -/
def doRemove (s : State) : State :=
  { s with
    cart := none
    bank := 0
    total := 1
    qsel0 := 0
    qsel1 := 0
    mem := clearWindow s.cfg s.mem
    pt := sealWindow s.cfg s.pt }

/-- The bank trigger of a SUPER cartridge: any access to SEL_PAGE whose nibble SEL_MATCH maps (40 R84). -/
def bankTrigger (c : Cartridge) (addr : Addr) (s : State) : State :=
  if pageOf addr = s.cfg.selPage then
    match selMatch s.cfg (nibbleOf addr) with
    | some b => copyBank c b.val s
    | none => s
  else s

/-- The slice triggers of a QUIRK cartridge: any access to one of the two 4-byte windows (40 R84). -/
def sliceAccess (c : Cartridge) (addr : Addr) (s : State) : State :=
  match sliceTrigger addr with
  | some (r, k) => copySlice c r k s
  | none => s

/-- CartTrigger (40 R84), by the class of the active cartridge. -/
def cartTrigger (addr : Addr) (s : State) : State :=
  match s.cart with
  | none => s
  | some c =>
    match c.cls with
    | .fixed => s
    | .super => bankTrigger c addr s
    | .quirkA => sliceAccess c addr s
    | .quirkB => sliceAccess c addr s

/-- A chip read (40 R83): the signal, and the chip's answer, a free value of the history (log 9). -/
def chipRead (ch : Chip) (addr : Addr) (s : State) : Byte × State :=
  (Config.chipAnswer ch addr s.history, s.emit (.chipGet ch addr))

/-- CartRead (40 R84): trigger first, then the window's byte, or 0xFF outside the window. -/
def cartRead (addr : Addr) (s : State) : Byte × State :=
  let s := cartTrigger addr s
  (if inWindow s.cfg addr.toNat then s.mem.read addr.toNat else floatByte, s)

/-- HwRead (40 R82). -/
def hwRead (addr : Addr) (s : State) : Byte × State :=
  match target s.cfg (pageOf addr) with
  | .chip ch => chipRead ch addr s
  | .cartCtl => cartRead addr s
  | .nothing => (floatByte, s)

/-- HwWrite (40 R82): a chip gets the byte, then the latch snoops it; CartWrite triggers and drops it. -/
def hwWrite (addr : Addr) (val : Byte) (s : State) : State :=
  match target s.cfg (pageOf addr) with
  | .chip ch => ctrlSnoop addr val (s.emit (.chipPut ch addr val))
  | .cartCtl => cartTrigger addr s
  | .nothing => s

/-- `MemRead(addr, 1)`, the decoded bus read (40 R80). -/
def busRead (addr : Addr) (s : State) : Byte × State :=
  match s.pt.tag (pageOf addr) with
  | .ram => (s.mem.read addr.toNat, s)
  | .rom => (s.mem.read addr.toNat, s)
  | .hardware => hwRead addr s

/-- `MemWrite(addr, 1, val)`, the decoded bus write (40 R81). -/
def busWrite (addr : Addr) (val : Byte) (s : State) : State :=
  match s.pt.tag (pageOf addr) with
  | .ram => { s with mem := s.mem.write addr val }
  | .rom => s
  | .hardware => hwWrite addr val s

/-- `ESC[code] <- slot` (00 R8). -/
def State.setSlot (s : State) (code : Byte) (slot : Slot) : State :=
  { s with esc := s.esc.set code.toNat slot code.isLt }

/-- `MEM[addr] <- v`, with no tag check, no trigger, no chip access (43 R151). -/
def State.poke (s : State) (addr : Addr) (v : Byte) : State := { s with mem := s.mem.write addr v }

/-- The slot and the two sentinel bytes of INSTALL and INSTALLR (43 R150, R152); addresses modulo 2^16. -/
def plantTrap (addr : Addr) (code : Byte) (h : Handler) (s : State) : State :=
  ((s.setSlot code ⟨true, addr, h⟩).poke addr s.cfg.escOp).poke (addr + 1) code

/-- ResetLines (44 R170). -/
def resetLines (s : State) : State :=
  ((((s.emit (.chipReset .videoColor)).emit (.chipReset .audioTimer)).emit
    (.chipReset .peripheral)).emit (.chipReset .videoAddrgen)).emit .cpuReset

/-- COLD's KeyHold request, made if either mode bit is set (44 R171, R172). -/
def keyHoldRequest (s : State) : State :=
  if skipBasic s.mode || bootTape s.mode then
    s.emit (.keyHold (skipBasic s.mode) (bootTape s.mode) s.cfg.holdFrames)
  else s

end Sys2Proof.Machine
end

