-- ==== Sys2Proof/Machine/Bus.lean ====
section
/-! DEFINITION. The meanings of RD and WR (spec 40_bus_access.md R80 to R86). -/

namespace Sys2Proof.Machine

/-- RD (40 R80). -/
def execRd (addr : Addr) (s : State) : Out :=
  operate s fun s =>
    let r := busRead addr s
    r.2.finish (.data r.1)

/-- WR (40 R81). -/
def execWr (addr : Addr) (val : Byte) (s : State) : Out :=
  operate s fun s => (busWrite addr val s).finish .done

end Sys2Proof.Machine
end

