-- ==== Sys2Proof/WellFormed.lean ====
section
/-! DEFINITION. Which operands an operation may be given (spec 42_cartridge.md R120, 70_reset_and_hazards.md R217). -/

namespace Sys2Proof

/-- INSERT's operand condition: "`bytes` is null or a sequence of at least `size` bytes" (42 R120). -/
def bufferHolds (bytes : Option (List Byte)) (size : Nat) : Bool :=
  match bytes with
  | none => true
  | some bs => decide (size ≤ bs.length)

/-- The operands keep the preconditions of 70 R217 that an operand can break: item 4, "Pass a `size`
larger than the buffer". Every other operand of every operation is legal at every value of its type. -/
def Instr.wf : Instr → Bool
  | .rd _ => true
  | .wr _ _ => true
  | .setattr _ _ _ => true
  | .ctrlw _ => true
  | .setmode _ => true
  | .insert bytes size => bufferHolds bytes size
  | .remove => true
  | .install _ _ _ => true
  | .installr _ _ _ => true
  | .uninst _ => true
  | .fire _ _ => true
  | .warm => true
  | .cold => true
  | .save => true
  | .load _ => true

end Sys2Proof
end

