-- ==== Sys2Proof/Machine/Identify.lean ====
section
/-! DEFINITION. INSERT's two stages, classification and identification (spec 42_cartridge.md R120 to R124, R132). -/

namespace Sys2Proof.Machine

/-- The cartridge record of a catalog hit (42 R120). -/
def makeCartridge (cfg : Config) (img : List Byte) (size : Nat) (e : CatalogEntry) : Cartridge where
  typeTag := e.typeTag
  cls := (typeRow cfg e.typeTag).cls
  img := img
  imgLen := size
  fp := Config.fingerprint img
  name := e.name
  cal1 := e.cal1
  cal2 := e.cal2

/-- Stage 2 (42 R123, R124): the catalog's entry for the image's fingerprint, of the image's size. -/
def identifyImage (cfg : Config) (img : List Byte) (size : Nat) : Except Result Cartridge :=
  match catalogEntry cfg (Config.fingerprint img) with
  | none => .error .cartBadFormat
  | some e =>
    if size = (typeRow cfg e.typeTag).imgSize then .ok (makeCartridge cfg img size e)
    else .error .cartBadFormat

/-- The rows of 42 R132 in checking order: the failing result, or the cartridge. -/
def identify (cfg : Config) (bytes : Option (List Byte)) (size : Nat) : Except Result Cartridge :=
  match bytes with
  | none => .error .cartCantOpen
  | some bs =>
    let img := bs.take size
    if size < minCart then .error .cartCantOpen
    else if cfg.sigSavestate.isPrefixOf img then .error .cartBadFormat
    else if cfg.sigContainer.isPrefixOf img then .error .cartBadFormat
    else if !rawSizeOk cfg size then .error .cartBadFormat
    else identifyImage cfg img size

/-- A cartridge made active and mapped (42 R120). -/
def activate (c : Cartridge) (s : State) : State :=
  tagWindow c (powerUpMap c { s with cart := some c, total := totalOf c.cls })

end Sys2Proof.Machine
end

