-- ==== Sys2Proof/Machine/Cart.lean ====
section
/-! DEFINITION. The meanings of INSERT and REMOVE (spec 42_cartridge.md R120, R127, R132). -/

namespace Sys2Proof.Machine

/-- INSERT (42 R120): the removal action first, then the result of 42 R132. A buffer shorter than `size` is
the broken precondition of 70 R217 item 4 (log 12). -/
def execInsert (bytes : Option (List Byte)) (size : Nat) (s : State) : Out :=
  operate s fun s =>
    if bufferHolds bytes size then
      match identify s.cfg bytes size with
      | .error r => (doRemove s).finish r
      | .ok c => (activate c (doRemove s)).finish .ok
    else .fault .bufferShorterThanSize

/-- REMOVE (42 R127). -/
def execRemove (s : State) : Out :=
  operate s fun s => (doRemove s).finish .done

end Sys2Proof.Machine
end

