-- ==== Sys2Proof/Machine/Control.lean ====
section
/-! DEFINITION. The meanings of SETATTR, CTRLW and SETMODE (spec 41_page_table_overlay.md R100 to R107). -/

namespace Sys2Proof.Machine

/-- SETATTR (41 R100). -/
def execSetattr (first last : Byte) (kind : Tag) (s : State) : Out :=
  operate s fun s => { s with pt := s.pt.setRange first last kind }.finish .done

/-- CTRLW (41 R102). -/
def execCtrlw (v : Byte) (s : State) : Out :=
  operate s fun s => (ctrlUpdate v s).finish .done

/-- SETMODE (41 R106). -/
def execSetmode (v : Byte) (s : State) : Out :=
  operate s fun s => { s with mode := v }.finish .done

end Sys2Proof.Machine
end

