-- ==== Sys2Proof/Machine/Escape.lean ====
section
/-! DEFINITION. The meanings of INSTALL, INSTALLR, UNINST and FIRE (spec 43_escape_trap.md R150 to R158). -/

namespace Sys2Proof.Machine

/-- INSTALL (43 R150). -/
def execInstall (addr : Addr) (code : Byte) (h : Handler) (s : State) : Out :=
  operate s fun s => (plantTrap addr code h s).finish .done

/-- INSTALLR (43 R152): INSTALL with the return opcode after the sentinel. -/
def execInstallr (addr : Addr) (code : Byte) (h : Handler) (s : State) : Out :=
  operate s fun s => ((plantTrap addr code h s).poke (addr + 2) s.cfg.retOp).finish .done

/-- UNINST (43 R153): only VALID is cleared. -/
def execUninst (code : Byte) (s : State) : Out :=
  operate s fun s => (s.setSlot code { s.slot code with valid := false }).finish .done

/-- FIRE (43 R154): a match emits Invoke; anything else is the crash condition (43 R156). -/
def execFire (pc : Addr) (code : Byte) (s : State) : Out :=
  operate s fun s =>
    if slotMatches (s.slot code) pc then
      (s.emit (.invoke (s.slot code).handler)).finish (.invoked (s.slot code).handler)
    else s.raiseCrash.finish .crash

end Sys2Proof.Machine
end

