-- ==== Sys2Proof/Machine/Snapshot.lean ====
section
/-! DEFINITION. The snapshot stream of SAVE and LOAD (spec 44_lifecycle_snapshot.md R173 to R175). -/

namespace Sys2Proof.Machine

/-- A typed read of `w` bits: the next field, or none past the end. A field of another width is read as the
substrate pleases (log 15). -/
def readField (w : Nat) (s : Stream) : Option (BitVec w × Stream) :=
  match s with
  | [] => none
  | f :: rest => if f.width = w then some (f.value.setWidth w, rest) else Config.mistypedRead w s

/-- The legacy fields, consumed and discarded (44 R173): the rest of the stream. -/
def skipFields : List Nat → Stream → Option Stream
  | [], s => some s
  | w :: ws, s =>
    match readField w s with
    | none => none
    | some (_, rest) => skipFields ws rest

/-- Fields 1, 2 and the legacy fields of 44 R173: the mode flags and the rest of the stream. -/
def readHead (legacy : List Nat) (s : Stream) : Option (Byte × Stream) :=
  match readField 8 s with
  | none => none
  | some (mode, s) =>
    match readField 8 s with
    | none => none
    | some (_, s) =>
      match skipFields legacy s with
      | none => none
      | some s => some (mode, s)

/-- The bank field (44 R175): a bank below 16, or none for a short stream or a bank of 16 or more. -/
def readBank (s : Stream) : Option (Fin 16) :=
  match readField 8 s with
  | none => none
  | some (b, _) => if h : b.toNat < 16 then some ⟨b.toNat, h⟩ else none

/-- The type tag field: `CART.TYPE`, or 0 with no cartridge (44 R174). -/
def tagField (s : State) : Byte :=
  match s.cart with
  | some c => c.typeTag
  | none => 0

/-- The stream SAVE writes (44 R174). -/
def saveStream (s : State) : Stream :=
  [Field.u8 s.mode, Field.u8 (tagField s)] ++ s.cfg.legacy.map (fun w => ⟨w, 0⟩)
    ++ (if s.cartIsSuper then [Field.u8 (BitVec.ofNat 8 s.bank)] else [])

/-- LOAD's writes (44 R175): all reads first, then MODE, then the bank of a SUPER cartridge; none when the
stream does not serve. -/
def loadStream (stream : Stream) (s : State) : Option State :=
  match readHead s.cfg.legacy stream with
  | none => none
  | some (mode, rest) =>
    match s.cart with
    | none => some { s with mode := mode }
    | some c =>
      if c.cls = .super then
        match readBank rest with
        | none => none
        | some b => some (copyBank c b.val { s with mode := mode })
      else some { s with mode := mode }

end Sys2Proof.Machine
end

