-- ==== Sys2Proof/Machine/Lifecycle.lean ====
section
/-! DEFINITION. The meanings of WARM, COLD, SAVE and LOAD (spec 44_lifecycle_snapshot.md R170 to R175). -/

namespace Sys2Proof.Machine

/-- WARM (44 R170). -/
def execWarm (s : State) : Out :=
  operate s fun s => (resetLines s).finish .done

/-- COLD's second step (44 R171): an inserted cartridge back to its power-up mapping and tags. -/
def remap (s : State) : State :=
  match s.cart with
  | none => s
  | some c => tagWindow c (powerUpMap c s)

/-- COLD (44 R171), in the source's order. -/
def execCold (s : State) : Out :=
  operate s fun s =>
    let s := remap (resetLines s)
    (keyHoldRequest (s.poke s.cfg.coldAddr s.cfg.coldVal)).finish .done

/-- SAVE (44 R174). -/
def execSave (s : State) : Out :=
  operate s fun s => s.finish (.stream (saveStream s))

/-- LOAD (44 R175). -/
def execLoad (stream : Stream) (s : State) : Out :=
  operate s fun s =>
    match loadStream stream s with
    | none => .next (s.refuse .snapshotMismatch)
    | some t => t.finish .ok

end Sys2Proof.Machine
end

