-- ==== Sys2Proof/Machine/Dispatch.lean ====
section
/-! DEFINITION. The dispatch of the fifteen operations to their meanings (spec 30_encoding.md R63). -/

namespace Sys2Proof.Machine

def exec (i : Instr) (s : State) : Host.Outcome State Fault Refusal :=
  match i with
  | .rd addr => Sys2Proof.Machine.execRd addr s
  | .wr addr val => Sys2Proof.Machine.execWr addr val s
  | .setattr first last kind => Sys2Proof.Machine.execSetattr first last kind s
  | .ctrlw v => Sys2Proof.Machine.execCtrlw v s
  | .setmode v => Sys2Proof.Machine.execSetmode v s
  | .insert bytes size => Sys2Proof.Machine.execInsert bytes size s
  | .remove => Sys2Proof.Machine.execRemove s
  | .install addr code h => Sys2Proof.Machine.execInstall addr code h s
  | .installr addr code h => Sys2Proof.Machine.execInstallr addr code h s
  | .uninst code => Sys2Proof.Machine.execUninst code s
  | .fire pc code => Sys2Proof.Machine.execFire pc code s
  | .warm => Sys2Proof.Machine.execWarm s
  | .cold => Sys2Proof.Machine.execCold s
  | .save => Sys2Proof.Machine.execSave s
  | .load stream => Sys2Proof.Machine.execLoad stream s

end Sys2Proof.Machine
end

