-- ==== Sys2Proof/Decode.lean ====
section
/-! DEFINITION. The command word (spec 30_encoding.md R60 to R64): the opcode table, the decoder, the port of each operation and the encoder. -/

namespace Sys2Proof

/-- A row of the opcode map (30 R63). -/
structure Row where
  mnemonic : String
  mask : Word
  pattern : Word
  port : Port
  deriving DecidableEq, Repr

/-- The opcode map of 30 R63, in its order. -/
def opcodeTable : List Row :=
  [ ⟨"RD", 0xFF0000FF, 0x01000000, .cpu⟩,
    ⟨"WR", 0xFF000000, 0x02000000, .cpu⟩,
    ⟨"SETATTR", 0xFF0000FC, 0x10000000, .host⟩,
    ⟨"CTRLW", 0xFFFFFF00, 0x11000000, .host⟩,
    ⟨"SETMODE", 0xFFFFFF00, 0x12000000, .host⟩,
    ⟨"INSERT", 0xFFFFFFFF, 0x20000000, .host⟩,
    ⟨"REMOVE", 0xFFFFFFFF, 0x21000000, .host⟩,
    ⟨"INSTALL", 0xFF000000, 0x30000000, .host⟩,
    ⟨"INSTALLR", 0xFF000000, 0x31000000, .host⟩,
    ⟨"UNINST", 0xFFFFFF00, 0x32000000, .host⟩,
    ⟨"FIRE", 0xFF000000, 0x33000000, .cpu⟩,
    ⟨"WARM", 0xFFFFFFFF, 0x40000000, .host⟩,
    ⟨"COLD", 0xFFFFFFFF, 0x41000000, .host⟩,
    ⟨"SAVE", 0xFFFFFFFF, 0x50000000, .host⟩,
    ⟨"LOAD", 0xFFFFFFFF, 0x51000000, .host⟩ ]

/-- A word selects a row when `CW & mask == match` (30 R63). -/
def Row.selects (r : Row) (w : Word) : Bool := w &&& r.mask == r.pattern

/-- OP, bits 31:24 (30 R60). -/
def opField (w : Word) : Byte := w.extractLsb' 24 8

/-- A, bits 23:8 (30 R60). -/
def aField (w : Word) : Addr := w.extractLsb' 8 16

/-- B, bits 7:0 (30 R60). -/
def bField (w : Word) : Byte := w.extractLsb' 0 8

/-- Format FP's first page, `CW[23:16]` (30 R62). -/
def firstField (w : Word) : Byte := w.extractLsb' 16 8

/-- Format FP's last page, `CW[15:8]` (30 R62). -/
def lastField (w : Word) : Byte := w.extractLsb' 8 8

/-- The three reasons a word is reserved (30 R64). -/
inductive Reserved where
  | unknownOp
  | mustBeZero
  | tagThree
  deriving DecidableEq, Repr

/-- Format F0 and the F0 words' operations: A and B must be zero (30 R61). -/
def decodeF0 (w : Word) (i : Instr) : Except Reserved Instr :=
  if aField w = 0 ∧ bField w = 0 then .ok i else .error .mustBeZero

/-- Format FB: A must be zero (30 R61). -/
def decodeFB (w : Word) (f : Byte → Instr) : Except Reserved Instr :=
  if aField w = 0 then .ok (f (bField w)) else .error .mustBeZero

/-- Format FP: B[7:2] must be zero and the tag must not be 3 (30 R61, R64). -/
def decodeFP (w : Word) : Except Reserved Instr :=
  match (bField w).toNat with
  | 0 => .ok (.setattr (firstField w) (lastField w) .ram)
  | 1 => .ok (.setattr (firstField w) (lastField w) .rom)
  | 2 => .ok (.setattr (firstField w) (lastField w) .hardware)
  | 3 => .error .tagThree
  | _ => .error .mustBeZero

/-- The decoder: total on every command word, a reserved word refused by name (30 R63, R64). -/
def decode (w : Word) (side : Side) : Except Reserved Instr :=
  match (opField w).toNat with
  | 0x01 => if bField w = 0 then .ok (.rd (aField w)) else .error .mustBeZero
  | 0x02 => .ok (.wr (aField w) (bField w))
  | 0x10 => decodeFP w
  | 0x11 => decodeFB w .ctrlw
  | 0x12 => decodeFB w .setmode
  | 0x20 => decodeF0 w (.insert side.bytes side.size)
  | 0x21 => decodeF0 w .remove
  | 0x30 => .ok (.install (aField w) (bField w) side.handler)
  | 0x31 => .ok (.installr (aField w) (bField w) side.handler)
  | 0x32 => decodeFB w .uninst
  | 0x33 => .ok (.fire (aField w) (bField w))
  | 0x40 => decodeF0 w .warm
  | 0x41 => decodeF0 w .cold
  | 0x50 => decodeF0 w .save
  | 0x51 => decodeF0 w (.load side.stream)
  | _ => .error .unknownOp

/-- The port an operation belongs to (30 R63, 60 R198). -/
def Instr.port : Instr → Port
  | .rd _ => .cpu
  | .wr _ _ => .cpu
  | .setattr _ _ _ => .host
  | .ctrlw _ => .host
  | .setmode _ => .host
  | .insert _ _ => .host
  | .remove => .host
  | .install _ _ _ => .host
  | .installr _ _ _ => .host
  | .uninst _ => .host
  | .fire _ _ => .cpu
  | .warm => .host
  | .cold => .host
  | .save => .host
  | .load _ => .host

/-- The command word of three fields (30 R60). -/
def packWord (op : Byte) (a : Addr) (b : Byte) : Word := op ++ a ++ b

/-- The tag's number in a SETATTR word (10 R11, 30 R62). -/
def tagCode : Tag → Byte
  | .ram => 0
  | .rom => 1
  | .hardware => 2

/-- The command word of an operation (30 R61 to R63). -/
def encodeWord : Instr → Word
  | .rd addr => packWord 0x01 addr 0
  | .wr addr val => packWord 0x02 addr val
  | .setattr first last kind => packWord 0x10 (first ++ last) (tagCode kind)
  | .ctrlw v => packWord 0x11 0 v
  | .setmode v => packWord 0x12 0 v
  | .insert _ _ => packWord 0x20 0 0
  | .remove => packWord 0x21 0 0
  | .install addr code _ => packWord 0x30 addr code
  | .installr addr code _ => packWord 0x31 addr code
  | .uninst code => packWord 0x32 0 code
  | .fire pc code => packWord 0x33 pc code
  | .warm => packWord 0x40 0 0
  | .cold => packWord 0x41 0 0
  | .save => packWord 0x50 0 0
  | .load _ => packWord 0x51 0 0

/-- Side operands with nothing on them: a null buffer, handler 0, and a stream of two zero bytes, the
operand words of zeros that a word of the opcode table stands with (log 7). -/
def Side.zero : Side := ⟨none, 0, 0, [Field.u8 0, Field.u8 0]⟩

/-- The side operands of an operation (30 R60). -/
def encodeSide : Instr → Side
  | .insert bytes size => { Side.zero with bytes := bytes, size := size }
  | .install _ _ h => { Side.zero with handler := h }
  | .installr _ _ h => { Side.zero with handler := h }
  | .load s => { Side.zero with stream := s }
  | .rd _ => Side.zero
  | .wr _ _ => Side.zero
  | .setattr _ _ _ => Side.zero
  | .ctrlw _ => Side.zero
  | .setmode _ => Side.zero
  | .remove => Side.zero
  | .uninst _ => Side.zero
  | .fire _ _ => Side.zero
  | .warm => Side.zero
  | .cold => Side.zero
  | .save => Side.zero

/-- The operation of a word of the opcode table, its bits numbered as the table numbers them; a command
word is one 32-bit word (30 R60), so bits above `nbits` are 0 and a number past 32 bits is no word. -/
def decodeTableWord (nbits w : Nat) : Option Instr :=
  if nbits ≤ 32 ∧ w < 2 ^ nbits then
    match decode (BitVec.ofNat 32 w) Side.zero with
    | .ok i => some i
    | .error _ => none
  else none

end Sys2Proof
end

