-- ==== Sys2Proof/Machine/Ports.lean ====
section
/-! DEFINITION. What a request becomes before its operation runs: decoding and the port check (spec 60_exceptions.md R194, R198), and the request of a word of the opcode table. -/

namespace Sys2Proof.Machine

/-- The first two checks of 60 R194: a reserved word is ILLEGAL_CMD, a word on the other port WRONG_PORT. -/
def accept (r : Request) : Except Reason Instr :=
  match decode r.word r.side with
  | .error _ => .error .illegalCmd
  | .ok i => if i.port = r.port then .ok i else .error .wrongPort

/-- The request that carries a word of the opcode table: the zero side operands, on the port its operation
belongs to (log 7). -/
def tableRequest (w : Nat) : Request :=
  let word : Word := BitVec.ofNat 32 w
  match decode word Side.zero with
  | .ok i => ⟨i.port, word, Side.zero⟩
  | .error _ => ⟨.host, word, Side.zero⟩

end Sys2Proof.Machine
end

