-- ==== Sys2Proof/Machine/Step.lean ====
section
/-! DEFINITION. One step: the oldest request is decoded, checked and served (spec 60_exceptions.md R194, 70_reset_and_hazards.md R213, R215). -/

namespace Sys2Proof.Machine

/-- One step of ADB. An ill-formed configuration is rejected (70 R215, log 13); with no request ADB stays as
it is (70 R213, log 6). -/
def step (s : State) : Host.Outcome State Fault Refusal :=
  if configOk s.cfg then
    match s.requests with
    | [] => .next s
    | r :: rest =>
      match accept r with
      | .error reason => .next ({ s with requests := rest }.refuse reason)
      | .ok i => exec i { s with requests := rest }
  else .refused .illFormedConfig

/-- The word of the opcode table as the next request to be served (log 7). A command word is 32 bits, so
`nbits` adds nothing to it. -/
def State.withFetchWord (s : State) (_nbits w : Nat) : State :=
  { s with requests := tableRequest w :: s.requests }

end Sys2Proof.Machine
end

