-- ==== Sys2Proof/Safety.lean ====
section
/-! DEFINITION. The terms claims are stated in: the invariants of ADB (spec 10_state.md R26), the lookup view of the cartridge window (20_memory.md R45), what an overlay shows (41_page_table_overlay.md R105), which operations leave the window to ADB's own copies and what a well-formed configuration is (70_reset_and_hazards.md R215). -/

namespace Sys2Proof.Machine

/-- The class is one of the two paired-window classes. -/
def isQuirk : CartClass → Bool
  | .fixed => false
  | .super => false
  | .quirkA => true
  | .quirkB => true

/-- The invariants of 10 R26 that a state can show (items 1 to 4), with what 10 R15 to R17 say of the fields'
values by class, the catalog's size rule (42 R124) and the checked configuration (70 R215). -/
structure Inv (s : State) : Prop where
  /-- 70 R215. -/
  config : configOk s.cfg = true
  /-- R26 item 1. -/
  bank : s.bank < s.total
  /-- R26 item 2. -/
  noCart : s.cart = none → s.bank = 0 ∧ s.total = 1 ∧ s.qsel0 = 0 ∧ s.qsel1 = 0
  /-- R26 item 3, and 10 R15: the tag is not 0 and IMG has IMGLEN bytes. -/
  cart : ∀ c, s.cart = some c →
    c.imgLen = (typeRow s.cfg c.typeTag).imgSize ∧ c.cls = (typeRow s.cfg c.typeTag).cls
      ∧ c.img.length = c.imgLen ∧ c.typeTag ≠ 0
  /-- 10 R16: TOTAL by class. -/
  total : ∀ c, s.cart = some c → s.total = totalOf c.cls
  /-- R26 item 4, and the 32KiB window of 70 R215 item 3. -/
  superCart : ∀ c, s.cart = some c → c.cls = .super →
    s.total = 16 ∧ c.imgLen = 16 * 0x8000 ∧ winLen s.cfg = 0x8000
  /-- 10 R17: the selectors are 0 but for the paired-window classes. -/
  selectors : ∀ c, s.cart = some c → isQuirk c.cls = false → s.qsel0 = 0 ∧ s.qsel1 = 0
  /-- 10 R16: BANK is 0 but for SUPER. -/
  bankZero : ∀ c, s.cart = some c → c.cls ≠ .super → s.bank = 0

/-- The byte the last descriptor covering an address shows, 0x00 if none covers it (20 R45, FIXED). -/
def layoutByte (img : List Byte) (layout : List Descriptor) (a : Nat) : Byte :=
  match layout.reverse.find? (fun d => decide (d.dst ≤ a) && decide (a < d.dst + d.size)) with
  | some d => imageByte img (d.src + (a - d.dst))
  | none => 0x00

/-- The lookup view of one paired-window class (20 R45). -/
def quirkView (cfg : Config) (c : Cartridge) (qfix : List Descriptor) (q0 q1 : BitVec 2) (a : Nat) : Byte :=
  if 0x4000 ≤ a ∧ a ≤ 0x4FFF then imageByte c.img (sliceOffset cfg c.cls 0 q0 + (a - 0x4000))
  else if 0x5000 ≤ a ∧ a ≤ 0x5FFF then imageByte c.img (sliceOffset cfg c.cls 1 q1 + (a - 0x5000))
  else layoutByte c.img qfix a

/-- The lookup view of a cartridge at a bank and two slices (20 R45). -/
def viewOf (cfg : Config) (c : Cartridge) (bank : Nat) (q0 q1 : BitVec 2) (a : Nat) : Byte :=
  match c.cls with
  | .fixed => layoutByte c.img (typeRow cfg c.typeTag).layout a
  | .super => imageByte c.img (bank * 0x8000 + (a - winBase cfg))
  | .quirkA => quirkView cfg c cfg.qfixA q0 q1 a
  | .quirkB => quirkView cfg c cfg.qfixB q0 q1 a

/-- `view(a)` (20 R45). -/
def view (s : State) (a : Nat) : Byte :=
  match s.cart with
  | none => 0x00
  | some c => viewOf s.cfg c s.bank s.qsel0 s.qsel1 a

/-- The bank of the power-up mapping: POWERUP_BANK for SUPER, else 0 (10 R27, COLD column). -/
def powerUpBank (cfg : Config) : CartClass → Nat
  | .fixed => 0
  | .super => cfg.powerupBank.val
  | .quirkA => 0
  | .quirkB => 0

/-- The tags TagWindow leaves (42 R126), from the tag a page had. -/
def powerUpTag (cfg : Config) (cls : CartClass) (p : Byte) (before : Tag) : Tag :=
  if cls = .super ∧ p = cfg.selPage then .hardware
  else if isQuirk cls ∧ (p = 0x4F ∨ p = 0x5F) then .hardware
  else if (winFirstPage cfg).toNat ≤ p.toNat ∧ p.toNat ≤ (winLastPage cfg).toNat then .rom
  else before

/-- The window reads as its lookup view and no page of it is RAM: the condition under which 20 R45 calls
the two views equivalent. -/
structure WindowFaithful (s : State) : Prop where
  bytes : ∀ a : Addr, inWindow s.cfg a.toNat = true → s.mem.read a.toNat = view s a.toNat
  sealed : ∀ p : Byte, (winFirstPage s.cfg).toNat ≤ p.toNat → p.toNat ≤ (winLastPage s.cfg).toNat →
    s.pt.tag p ≠ .ram

/-- No page of first..last is a window page. -/
def pagesApart (cfg : Config) (first last : Byte) : Bool :=
  decide (last.toNat < first.toNat) || decide (last.toNat < (winFirstPage cfg).toNat)
    || decide ((winLastPage cfg).toNat < first.toNat)

/-- No range of the overlay covers a window page. -/
def overlayApart (cfg : Config) (o : Overlay) : Bool := o.ranges.all fun r => pagesApart cfg r.1 r.2

/-- Writing `v` to the latch acts over no window range: every overlay whose bit changes lies apart from the
window (41 R102). -/
def edgesApart (s : State) (v : Byte) : Bool :=
  [s.cfg.ovlOs, s.cfg.ovlBasic, s.cfg.ovlSelftest].all fun o => !edgeOn o v s.ctrl || overlayApart s.cfg o

/-- The operations that write window bytes by ADB's own copies only and make no window page RAM (20 R45): not a
SETATTR of a window page to RAM, an overlay action over a window range, whether by CTRLW or by the snoop of a WR,
an INSTALL or INSTALLR into the window, or a COLD whose flag byte lies in the window. -/
def leavesWindow (s : State) : Instr → Bool
  | .rd _ => true
  | .wr addr v => decide (s.cfg.ctrlAddr ≠ some addr) || s.pt.tag (pageOf addr) != .hardware || edgesApart s v
  | .setattr first last kind => pagesApart s.cfg first last || kind != .ram
  | .ctrlw v => edgesApart s v
  | .setmode _ => true
  | .insert _ _ => true
  | .remove => true
  | .install addr _ _ => !inWindow s.cfg addr.toNat && !inWindow s.cfg (addr + 1).toNat
  | .installr addr _ _ =>
    !inWindow s.cfg addr.toNat && !inWindow s.cfg (addr + 1).toNat && !inWindow s.cfg (addr + 2).toNat
  | .uninst _ => true
  | .fire _ _ => true
  | .warm => true
  | .cold => !inWindow s.cfg s.cfg.coldAddr.toNat
  | .save => true
  | .load _ => true

/-- No cartridge, and the window as DoRemove leaves it (10 R26 item 7). -/
structure EmptyWindow (s : State) : Prop where
  cart : s.cart = none
  bytes : ∀ a : Addr, inWindow s.cfg a.toNat = true → s.mem.read a.toNat = 0x00
  tags : ∀ p : Byte, (winFirstPage s.cfg).toNat ≤ p.toNat → p.toNat ≤ (winLastPage s.cfg).toNat →
    s.pt.tag p = .rom

/-- The first line of every operation's pseudocode: refused while CRASHED = 1, nothing changes (60 R191). -/
def RefusedWhenCrashed (i : Instr) : Prop :=
  ∀ s : State, s.crashed = true →
    exec i s = .next { s with result := some (.refused .machineCrashed), outputs := [] }

/-- The CHIP rows of the dispatch table: page number and chip (40 R82). -/
def chipPages : List (Nat × Chip) :=
  [(0xC0, .videoColor), (0xD0, .videoColor), (0xD2, .audioTimer), (0xE8, .audioTimer), (0xEB, .audioTimer),
    (0xD3, .peripheral), (0xD4, .videoAddrgen)]

/-- A descriptor lies inside an image of `size` bytes and inside the window (42 R124). -/
def Fits (cfg : Config) (size : Nat) (d : Descriptor) : Prop :=
  d.src + d.size ≤ size ∧ cfg.winLo.toNat ≤ d.dst ∧ d.dst + d.size ≤ cfg.winHi.toNat + 1

/-- A type's layout, slices and image size obey 42 R124, class by class. -/
def TypeFits (cfg : Config) (row : TypeRow) : Prop :=
  (row.cls = .fixed → ∀ d ∈ row.layout, Fits cfg row.imgSize d) ∧
  (row.cls = .super → row.imgSize = 16 * 0x8000) ∧
  (row.cls = .quirkA → (∀ (r : Fin 2) (k : Fin 4), cfg.qoffA[r][k] + 0x1000 ≤ row.imgSize)
    ∧ ∀ d ∈ cfg.qfixA, Fits cfg row.imgSize d) ∧
  (row.cls = .quirkB → (∀ (r : Fin 2) (k : Fin 4), cfg.qoffB[r][k] + 0x1000 ≤ row.imgSize)
    ∧ ∀ d ∈ cfg.qfixB, Fits cfg row.imgSize d)

/-- An overlay's ranges are ordered and its ROM has 256 bytes per page of the ranges (70 R215 item 7). -/
def OverlayFits (o : Overlay) : Prop :=
  (∀ r ∈ o.ranges, r.1.toNat ≤ r.2.toNat) ∧
  (o.rom.flatMap fun p => p.toList).length = 256 * (o.ranges.map fun r => r.2.toNat + 1 - r.1.toNat).sum

/-- The items of 70 R215, in the rule's words. Items 5 and 10 hold by the types of the fields. -/
structure WellFormedConfig (cfg : Config) : Prop where
  /-- Item 1. -/
  window : cfg.winLo.toNat % 256 = 0 ∧ (cfg.winHi.toNat + 1) % 256 = 0 ∧ cfg.winLo.toNat ≤ cfg.winHi.toNat
  /-- Item 2. -/
  regions : cfg.winLo.toNat ≤ 0x4000 ∧ 0x5FFF ≤ cfg.winHi.toNat
  /-- Item 3. -/
  superWindow : ∀ e ∈ cfg.catalog, (typeRow cfg e.2.typeTag).cls = .super →
    cfg.winHi.toNat + 1 - cfg.winLo.toNat = 0x8000
  /-- Item 4. -/
  selPage : cfg.selPage.toNat ∉ [0xC0, 0xD0, 0xD2, 0xD3, 0xD4, 0xE8, 0xEB]
  /-- Item 6, the types. -/
  types : ∀ row ∈ cfg.types, TypeFits cfg row
  /-- Item 6, the catalog. -/
  tags : ∀ e ∈ cfg.catalog, e.2.typeTag ≠ 0
  /-- Item 7. -/
  overlays : ∀ o ∈ [cfg.ovlOs, cfg.ovlBasic, cfg.ovlSelftest], OverlayFits o
  /-- Item 8. -/
  ctrlAddr : ∀ a, cfg.ctrlAddr = some a → ∃ ch, (a.toNat / 256, ch) ∈ chipPages
  /-- Item 9. -/
  sizes : 0x1000 ≤ cfg.maxCart ∧ ∀ row ∈ cfg.types, row.imgSize ≤ cfg.maxCart

/-- A page the dispatch table sends to the cartridge handler (40 R82): 0xD5, 0x4F, 0x5F or SEL_PAGE, and no
chip page. -/
def isCartridgePage (cfg : Config) (p : Nat) : Prop :=
  (p = 0xD5 ∨ p = 0x4F ∨ p = 0x5F ∨ p = cfg.selPage.toNat) ∧ ∀ ch, (p, ch) ∉ chipPages

/-- An access to this address triggers nothing (40 R84, 42 R129): no cartridge, a FIXED one, a SUPER one and an
address off SEL_PAGE or with an unmapped nibble, or a QUIRK one and an address in neither 4-byte window. -/
def TriggersNothing (s : State) (addr : Addr) : Prop :=
  ∀ c, s.cart = some c →
    (c.cls = .super → addr.toNat / 256 = s.cfg.selPage.toNat → selMatch s.cfg (nibbleOf addr) = none)
      ∧ (isQuirk c.cls = true →
        ¬(0x4FF6 ≤ addr.toNat ∧ addr.toNat ≤ 0x4FF9) ∧ ¬(0x5FF6 ≤ addr.toNat ∧ addr.toNat ≤ 0x5FF9))

/-- `RawSizeOk(size)` (42 R122), as the rule writes it. -/
def AcceptedSize (cfg : Config) (size : Nat) : Prop :=
  size = 0xA000 ∨ ((∃ n, size = 2 ^ n) ∧ 0x1000 ≤ size ∧ size ≤ cfg.maxCart)

/-- The five reset signals, in order (44 R170). -/
def resetSignals : List Signal :=
  [.chipReset .videoColor, .chipReset .audioTimer, .chipReset .peripheral, .chipReset .videoAddrgen, .cpuReset]

/-- The key-hold request of COLD: made when MODE bit 0 or bit 1 is set (44 R171, R172). -/
def keyHoldSignals (s : State) : List Signal :=
  if s.mode.getLsbD 0 = false ∧ s.mode.getLsbD 1 = false then []
  else [.keyHold (s.mode.getLsbD 0) (s.mode.getLsbD 1) s.cfg.holdFrames]

/-- The field widths ADB's part of a snapshot has for the cartridge inserted now (44 R173). -/
def snapshotWidths (s : State) : List Nat :=
  8 :: 8 :: (s.cfg.legacy ++ (if s.cartIsSuper then [8] else []))

/-- The ROM byte OverlayEnable leaves at an address, if a range covers it: the ranges take the ROM's bytes in
range order, and a later range wins (41 R105). -/
def romAt : List (Byte × Byte) → List RomPage → Nat → Option Byte
  | [], _, _ => none
  | r :: rest, rom, a =>
    match romAt rest (rom.drop (rangePages r)) a with
    | some b => some b
    | none =>
      if r.1.toNat * 256 ≤ a ∧ a ≤ r.2.toNat * 256 + 255 then
        (rom.flatMap (fun p => p.toList))[a - r.1.toNat * 256]?
      else none

/-- A page lies in one of an overlay's ranges. -/
def overlayCovers (o : Overlay) (p : Byte) : Bool :=
  o.ranges.any fun r => decide (r.1.toNat ≤ p.toNat) && decide (p.toNat ≤ r.2.toNat)

/-- What one overlay leaves of a byte when the latch goes from `old` to `v` (41 R102, R105). -/
def overlayByte (o : Overlay) (v old : Byte) (a : Addr) (before : Byte) : Byte :=
  if v.getLsbD o.bit.val = old.getLsbD o.bit.val ∨ overlayCovers o (pageOf a) = false then before
  else if v.getLsbD o.bit.val = o.level then (romAt o.ranges o.rom a.toNat).getD before
  else 0xFF

/-- What one overlay leaves of a tag when the latch goes from `old` to `v` (41 R102, R105). -/
def overlayTag (o : Overlay) (v old : Byte) (p : Byte) (before : Tag) : Tag :=
  if v.getLsbD o.bit.val = old.getLsbD o.bit.val ∨ overlayCovers o p = false then before
  else if v.getLsbD o.bit.val = o.level then .rom
  else .ram

/-- What power-on leaves of a byte under one overlay: the ROM byte if CTRL_RESET enables it (70 R210). -/
def powerOnByte (o : Overlay) (latch : Byte) (a : Addr) (before : Byte) : Byte :=
  if latch.getLsbD o.bit.val = o.level then (romAt o.ranges o.rom a.toNat).getD before else before

/-- What power-on leaves of a tag under one overlay (70 R210). -/
def powerOnTag (o : Overlay) (latch : Byte) (p : Byte) (before : Tag) : Tag :=
  if latch.getLsbD o.bit.val = o.level ∧ overlayCovers o p = true then .rom else before

/-- The state of the no-cartridge end of INSERT and REMOVE (42 R127), from the state before: the cartridge
fields cleared, the window 0x00 and ROM, every other byte and tag as before. -/
structure NoCartridgeAfter (s t : State) : Prop where
  cart : t.cart = none
  bank : t.bank = 0
  total : t.total = 1
  selectors : t.qsel0 = 0 ∧ t.qsel1 = 0
  windowBytes : ∀ a : Addr, inWindow s.cfg a.toNat = true → t.mem.read a.toNat = 0x00
  otherBytes : ∀ a : Addr, inWindow s.cfg a.toNat = false → t.mem.read a.toNat = s.mem.read a.toNat
  windowTags : ∀ p : Byte, (winFirstPage s.cfg).toNat ≤ p.toNat → p.toNat ≤ (winLastPage s.cfg).toNat →
    t.pt.tag p = .rom
  otherTags : ∀ p : Byte, ¬((winFirstPage s.cfg).toNat ≤ p.toNat ∧ p.toNat ≤ (winLastPage s.cfg).toNat) →
    t.pt.tag p = s.pt.tag p

end Sys2Proof.Machine
end

