-- ==== Sys2Proof/Certificates/Slice0/Obligations.lean ====
section
/-! DEFINITION. The statements for the provers, each from the numbered rules of spec/. -/

open Sys2Proof Sys2Proof.Machine

/-! ### Encoding (30_encoding.md) -/

/-- 30 R60 to R63: decoding the command word and side operands of any operation, with every operand at every
value of its type, gives the operation back. -/
def Obligations.DecodeOfEncodeIsSelf : Prop :=
  ∀ i : Instr, decode (encodeWord i) (encodeSide i) = .ok i

/-- 30 R60 to R63: a word that decodes is the command word of the operation it decodes to; no bit of it is
ignored. -/
def Obligations.EncodeOfDecodeIsWord : Prop :=
  ∀ (w : Word) (side : Side) (i : Instr), decode w side = .ok i → encodeWord i = w

/-- 30 R64: a word is reserved exactly when no row of the opcode map selects it or it is a SETATTR word with tag
3; a reserved word is refused with ILLEGAL_CMD, no state change and no output; a word on the wrong port (RD, WR
and FIRE on the host port, another operation on the CPU port) is refused with WRONG_PORT likewise. The queue is
the model's own and is left open here. -/
def Obligations.ReservedWordsAreRefused : Prop :=
  (∀ (w : Word) (side : Side), (∃ e, decode w side = .error e) ↔
      (∀ row ∈ opcodeTable, row.selects w = false)
        ∨ (w &&& 0xFF0000FC = 0x10000000 ∧ w &&& 0x00000003 = 0x00000003)) ∧
  (∀ (s : State) (r : Request) (rest : List Request), configOk s.cfg = true → s.requests = r :: rest →
      (∃ e, decode r.word r.side = .error e) →
      ∃ q, step s = .next { s with requests := q, result := some (.refused .illegalCmd), outputs := [] }) ∧
  (∀ (s : State) (r : Request) (rest : List Request) (i : Instr), configOk s.cfg = true →
      s.requests = r :: rest → decode r.word r.side = .ok i →
      ¬(r.port = .cpu ↔ (∃ a, i = .rd a) ∨ (∃ a v, i = .wr a v) ∨ (∃ pc c, i = .fire pc c)) →
      ∃ q, step s = .next { s with requests := q, result := some (.refused .wrongPort), outputs := [] })

/-- 30 R68: the fifteen example words of the table of the rule, with any side operands on the port, decode to the
operations it writes beside them. -/
def Obligations.SpecExampleWordsDecode : Prop :=
  ∀ side : Side,
    decode 0x014FF600 side = .ok (.rd 0x4FF6) ∧
    decode 0x020600A9 side = .ok (.wr 0x0600 0xA9) ∧
    decode 0x10D0D002 side = .ok (.setattr 0xD0 0xD0 .hardware) ∧
    decode 0x110000FD side = .ok (.ctrlw 0xFD) ∧
    decode 0x12000001 side = .ok (.setmode 0x01) ∧
    decode 0x20000000 side = .ok (.insert side.bytes side.size) ∧
    decode 0x21000000 side = .ok .remove ∧
    decode 0x30E45903 side = .ok (.install 0xE459 0x03 side.handler) ∧
    decode 0x31E45903 side = .ok (.installr 0xE459 0x03 side.handler) ∧
    decode 0x32000003 side = .ok (.uninst 0x03) ∧
    decode 0x33E45B03 side = .ok (.fire 0xE45B 0x03) ∧
    decode 0x40000000 side = .ok .warm ∧
    decode 0x41000000 side = .ok .cold ∧
    decode 0x50000000 side = .ok .save ∧
    decode 0x51000000 side = .ok (.load side.stream)

/-! ### The step (60_exceptions.md, 70_reset_and_hazards.md) -/

/-- 20 R47, 60 R194: step is exec of the operation the oldest request asks for, when the request's word decodes to
an operation of its port. The queue it is taken off is the model's own (log 6): the rules issue the operations one
at a time and name no queue. -/
def Obligations.StepRunsTheRequestedOperation : Prop :=
  ∀ (s : State) (r : Request) (rest : List Request) (i : Instr), configOk s.cfg = true →
    s.requests = r :: rest → decode r.word r.side = .ok i → i.port = r.port →
    step s = exec i { s with requests := rest }

/-- 60 R191: while CRASHED = 1 every operation answers REFUSED(MACHINE_CRASHED) and changes nothing; a step from
such a state changes nothing but the queue and the reported result and outputs, so no operation clears CRASHED;
power-on does. -/
def Obligations.CrashedMachineRefusesEveryOperation : Prop :=
  (∀ i : Instr, RefusedWhenCrashed i) ∧
  (∀ s t : State, s.crashed = true → step s = .next t →
      t = { s with requests := t.requests, result := t.result, outputs := t.outputs }) ∧
  (∀ cfg : Config, (State.powerOn cfg).crashed = false)

/-- The model's choice (log 6): with no request issued a step leaves ADB as it is (70 R213 ends a run there); with
one, the step takes the oldest off the queue, a refused one too. -/
def Obligations.StepTakesTheOldestRequest : Prop :=
  (∀ s : State, configOk s.cfg = true → s.requests = [] → step s = .next s) ∧
  (∀ (s t : State) (r : Request) (rest : List Request), s.requests = r :: rest → step s = .next t →
    t.requests = rest)

/-- 70 R215, item by item, and 42 R124: a step under a configuration that breaks an item of the rule is refused; one
that keeps them all is accepted, and no step is then refused. The model's own: the check stands in every step (log
13), each catalog tag must have a type row and MEM_INIT must be in canonical form (log 22). -/
def Obligations.IllFormedConfigIsRejected : Prop :=
  (∀ s : State, ¬WellFormedConfig s.cfg → step s = .refused .illFormedConfig) ∧
  (∀ s : State, WellFormedConfig s.cfg →
    (∀ e ∈ s.cfg.catalog, ∃ row ∈ s.cfg.types, row.tag = e.2.typeTag) → Memory.wf s.cfg.memInit = true →
    configOk s.cfg = true ∧ ∀ r, step s ≠ .refused r) ∧
  (∀ s : State, configOk s.cfg = false → step s = .refused .illFormedConfig)

/-- Every operation with legal operands answers a next state from every state; INSERT with a size beyond the
buffer stops at the named fault unless the machine has crashed (42 R120, 70 R217; the stop is log 12). -/
def Obligations.EveryLegalOperationAnswers : Prop :=
  ∀ (i : Instr) (s : State),
    (i.wf = true → ∃ t, exec i s = .next t) ∧
    (i.wf = false → s.crashed = false → exec i s = .fault .bufferShorterThanSize)

/-! ### Bus access (40_bus_access.md) -/

/-- 40 R80, RAM and ROM arms: the byte of MEM, and no other change. -/
def Obligations.ReadOfRamOrRomGivesTheByte : Prop :=
  ∀ (s : State) (addr : Addr), s.crashed = false → s.pt.tag (pageOf addr) ≠ .hardware →
    exec (.rd addr) s = .next { s with result := some (.data (s.mem.read addr.toNat)), outputs := [] }

/-- 40 R81, RAM arm: one byte of MEM is stored, and no other change. -/
def Obligations.WriteToRamStoresOneByte : Prop :=
  ∀ (s : State) (addr : Addr) (val : Byte), s.crashed = false → s.pt.tag (pageOf addr) = .ram →
    ∃ t, exec (.wr addr val) s = .next t ∧
      t = { s with mem := t.mem, result := some .done, outputs := [] } ∧
      ∀ a : Addr, t.mem.read a.toNat = if a = addr then val else s.mem.read a.toNat

/-- 40 R81, ROM arm: "writes to ROM pages are silently dropped". -/
def Obligations.WriteToRomIsDropped : Prop :=
  ∀ (s : State) (addr : Addr) (val : Byte), s.crashed = false → s.pt.tag (pageOf addr) = .rom →
    exec (.wr addr val) s = .next { s with result := some .done, outputs := [] }

/-- 40 R83 with the chip rows of R82: a read of a HARDWARE chip page emits ChipGet with the full address and
returns the chip's answer, which nothing constrains, and no other state changes; a write emits ChipPut, and CART,
BANK, QSEL, ESC and MODE stay; away from CTRL_ADDR, where the latch snoops (41 R104), nothing else changes. -/
def Obligations.ChipAccessIsPassedOn : Prop :=
  ∀ (s : State) (addr : Addr) (ch : Chip), s.crashed = false → s.pt.tag (pageOf addr) = .hardware →
    (addr.toNat / 256, ch) ∈ chipPages →
    exec (.rd addr) s = .next { s with
      result := some (.data (Config.chipAnswer ch addr s.history))
      outputs := [.chipGet ch addr]
      history := .chipGet ch addr :: s.history } ∧
    ∀ val : Byte, ∃ t, exec (.wr addr val) s = .next t ∧
      t = { s with
        pt := t.pt
        mem := t.mem
        ctrl := t.ctrl
        result := some .done
        outputs := [.chipPut ch addr val]
        history := .chipPut ch addr val :: s.history } ∧
      (s.cfg.ctrlAddr ≠ some addr → t.pt = s.pt ∧ t.mem = s.mem ∧ t.ctrl = s.ctrl)

/-- 41 R104: a WR that reaches a CHIP target at exactly CTRL_ADDR does what CTRLW does, after the chip has been
given the byte; a WR elsewhere, or on a page that is not HARDWARE or has no CHIP target, leaves the latch, so that
with CTRL_ADDR none only CTRLW updates it; a configuration whose CTRL_ADDR is on no chip page is rejected. -/
def Obligations.LatchSnoopsChipWriteAtCtrlAddr : Prop :=
  (∀ (s : State) (addr : Addr) (val : Byte) (ch : Chip), s.crashed = false →
    s.pt.tag (pageOf addr) = .hardware → (addr.toNat / 256, ch) ∈ chipPages → s.cfg.ctrlAddr = some addr →
    ∃ t, exec (.ctrlw val) s = .next t ∧
      exec (.wr addr val) s = .next { t with
        outputs := [.chipPut ch addr val], history := .chipPut ch addr val :: s.history }) ∧
  (∀ (s t : State) (addr : Addr) (val : Byte), exec (.wr addr val) s = .next t →
    (s.cfg.ctrlAddr ≠ some addr ∨ s.pt.tag (pageOf addr) ≠ .hardware
      ∨ ∀ ch, (addr.toNat / 256, ch) ∉ chipPages) → t.ctrl = s.ctrl) ∧
  (∀ (i : Instr) (s t : State), s.cfg.ctrlAddr = none → exec i s = .next t → t.ctrl ≠ s.ctrl →
    ∃ v, i = .ctrlw v) ∧
  (∀ (s : State) (a : Addr), s.cfg.ctrlAddr = some a → (∀ ch, (a.toNat / 256, ch) ∉ chipPages) →
    step s = .refused .illFormedConfig)

/-- 40 R85: a HARDWARE page with no target: a read returns 0xFF, a write is dropped, nothing else happens. -/
def Obligations.HardwarePageWithoutTargetFloats : Prop :=
  ∀ (s : State) (addr : Addr), s.crashed = false → s.pt.tag (pageOf addr) = .hardware →
    (∀ ch, (addr.toNat / 256, ch) ∉ chipPages) → ¬isCartridgePage s.cfg (addr.toNat / 256) →
    exec (.rd addr) s = .next { s with result := some (.data 0xFF), outputs := [] } ∧
    ∀ val : Byte, exec (.wr addr val) s = .next { s with result := some .done, outputs := [] }

/-- 42 R129, 40 R84: a cartridge-routed access that triggers nothing switches nothing: a read returns the window
byte inside the window and 0xFF outside, write data is dropped. -/
def Obligations.CartridgePageWithoutTrigger : Prop :=
  ∀ (s : State) (addr : Addr), s.crashed = false → s.pt.tag (pageOf addr) = .hardware →
    isCartridgePage s.cfg (addr.toNat / 256) → TriggersNothing s addr →
    exec (.rd addr) s = .next { s with
      result := some (.data (if inWindow s.cfg addr.toNat then s.mem.read addr.toNat else 0xFF))
      outputs := [] } ∧
    ∀ val : Byte, exec (.wr addr val) s = .next { s with result := some .done, outputs := [] }

/-- 42 R128, 40 R84: with a SUPER cartridge, any access to SEL_PAGE whose nibble SEL_MATCH maps sets BANK and
recopies the 32KiB before the access is served: a read returns the new bank's byte inside the window and 0xFF
outside, a write's data is dropped; CTRL, the tags and all else stay. -/
def Obligations.BankSelectSwitchesBeforeService : Prop :=
  ∀ (s : State) (addr : Addr) (c : Cartridge) (b : Fin 16), s.crashed = false → configOk s.cfg = true →
    s.pt.tag (pageOf addr) = .hardware → s.cart = some c → c.cls = .super →
    addr.toNat / 256 = s.cfg.selPage.toNat → selMatch s.cfg (nibbleOf addr) = some b →
    ∃ mem : Memory,
      (∀ a : Addr, mem.read a.toNat =
        if s.cfg.winLo.toNat ≤ a.toNat ∧ a.toNat < s.cfg.winLo.toNat + 0x8000
        then imageByte c.img (b.val * 0x8000 + (a.toNat - s.cfg.winLo.toNat)) else s.mem.read a.toNat) ∧
      exec (.rd addr) s = .next { s with
        bank := b.val
        mem := mem
        result := some (.data (if inWindow s.cfg addr.toNat then mem.read addr.toNat else 0xFF))
        outputs := [] } ∧
      ∀ val : Byte, exec (.wr addr val) s = .next { s with
        bank := b.val, mem := mem, result := some .done, outputs := [] }

/-- 42 R130, 40 R84: with a QUIRK cartridge, touching 0x4FF6 + k (region 0) or 0x5FF6 + k (region 1) selects slice
k, recopies its 4KiB before the access is served, and the read returns the new slice's byte; a write's data is
dropped; the other region and all else stay. -/
def Obligations.SliceAccessSwitchesBeforeService : Prop :=
  ∀ (s : State) (addr : Addr) (c : Cartridge) (r : Fin 2) (k : BitVec 2), s.crashed = false →
    configOk s.cfg = true → s.pt.tag (pageOf addr) = .hardware → s.cart = some c → isQuirk c.cls = true →
    addr.toNat = 0x4FF6 + r.val * 0x1000 + k.toNat →
    ∃ mem : Memory,
      (∀ a : Addr, mem.read a.toNat =
        if 0x4000 + r.val * 0x1000 ≤ a.toNat ∧ a.toNat < 0x5000 + r.val * 0x1000
        then imageByte c.img (sliceOffset s.cfg c.cls r k + (a.toNat - (0x4000 + r.val * 0x1000)))
        else s.mem.read a.toNat) ∧
      exec (.rd addr) s = .next { s with
        qsel0 := if r = 0 then k else s.qsel0
        qsel1 := if r = 1 then k else s.qsel1
        mem := mem
        result := some (.data (imageByte c.img (sliceOffset s.cfg c.cls r k + 0xFF6 + k.toNat)))
        outputs := [] } ∧
      ∀ val : Byte, exec (.wr addr val) s = .next { s with
        qsel0 := if r = 0 then k else s.qsel0
        qsel1 := if r = 1 then k else s.qsel1
        mem := mem
        result := some .done
        outputs := [] }

/-! ### Page table, overlays, mode (41_page_table_overlay.md) -/

/-- 41 R100: every page of first..last gets the tag, every other page keeps its own, none changes when
first > last; MEM and all else stay; refused while crashed. -/
def Obligations.SetattrTagsExactlyTheRange : Prop :=
  (∀ (s : State) (first last : Byte) (kind : Tag), s.crashed = false →
    ∃ t, exec (.setattr first last kind) s = .next t ∧
      t = { s with pt := t.pt, result := some .done, outputs := [] } ∧
      ∀ p : Byte, t.pt.tag p =
        if first.toNat ≤ p.toNat ∧ p.toNat ≤ last.toNat then kind else s.pt.tag p) ∧
  (∀ (first last : Byte) (kind : Tag), RefusedWhenCrashed (.setattr first last kind))

/-- 41 R102 and R105: overlay by overlay in the order OS, BASIC, SELFTEST, an edge of the overlay's bit puts its
ROM bytes and the tag ROM over its ranges, or 0xFF and the tag RAM; without an edge nothing; then CTRL is the
value written. All else stays; refused while crashed. -/
def Obligations.ControlWriteActsOnEdges : Prop :=
  (∀ (s : State) (v : Byte), s.crashed = false → configOk s.cfg = true →
    ∃ t, exec (.ctrlw v) s = .next t ∧
      t = { s with ctrl := v, mem := t.mem, pt := t.pt, result := some .done, outputs := [] } ∧
      (∀ a : Addr, t.mem.read a.toNat =
        overlayByte s.cfg.ovlSelftest v s.ctrl a
          (overlayByte s.cfg.ovlBasic v s.ctrl a
            (overlayByte s.cfg.ovlOs v s.ctrl a (s.mem.read a.toNat)))) ∧
      (∀ p : Byte, t.pt.tag p =
        overlayTag s.cfg.ovlSelftest v s.ctrl p
          (overlayTag s.cfg.ovlBasic v s.ctrl p
            (overlayTag s.cfg.ovlOs v s.ctrl p (s.pt.tag p))))) ∧
  (∀ v : Byte, RefusedWhenCrashed (.ctrlw v))

/-- 41 R102, 10 R24: "writing the value CTRL already holds does nothing at all". -/
def Obligations.RepeatedControlWriteDoesNothing : Prop :=
  ∀ s : State, s.crashed = false →
    exec (.ctrlw s.ctrl) s = .next { s with result := some .done, outputs := [] }

/-- 41 R106: MODE takes the byte, nothing else changes; refused while crashed. -/
def Obligations.SetmodeStoresTheFlags : Prop :=
  (∀ (s : State) (v : Byte), s.crashed = false →
    exec (.setmode v) s = .next { s with mode := v, result := some .done, outputs := [] }) ∧
  (∀ v : Byte, RefusedWhenCrashed (.setmode v))

/-! ### Cartridge (42_cartridge.md) -/

/-- 42 R127: REMOVE always succeeds and leaves the no-cartridge state; nothing else changes; a second REMOVE gives
the same state; refused while crashed. -/
def Obligations.RemoveLeavesNoCartridge : Prop :=
  (∀ s : State, s.crashed = false →
    ∃ t, exec .remove s = .next t ∧ NoCartridgeAfter s t ∧
      t = { s with cart := t.cart, bank := t.bank, total := t.total, qsel0 := t.qsel0, qsel1 := t.qsel1,
                   mem := t.mem, pt := t.pt, result := some .done, outputs := [] } ∧
      exec .remove t = .next t) ∧
  RefusedWhenCrashed .remove

/-- 42 R127: "After `Remove`, any read inside the cartridge window returns `0x00`", whatever the guest writes. -/
def Obligations.RemovedWindowReadsZero : Prop :=
  ∀ (s t : State) (addr : Addr), s.crashed = false → configOk s.cfg = true → exec .remove s = .next t →
    inWindow s.cfg addr.toNat = true →
    exec (.rd addr) t = .next { t with result := some (.data 0x00) } ∧
    ∀ val : Byte, exec (.wr addr val) t = .next t

/-- 42 R132: the rows of INSERT's outcome table in checking order (rows 1 to 6 the failures, row 7 OK), and "In
every failing row the end state is the no-cartridge state of rule R127", nothing else changed. -/
def Obligations.InsertOutcomesInCheckingOrder : Prop :=
  ∀ (s : State) (bytes : Option (List Byte)) (size : Nat), s.crashed = false →
    bufferHolds bytes size = true →
    ∃ t, exec (.insert bytes size) s = .next t ∧
      (bytes = none → t.result = some .cartCantOpen) ∧
      (∀ bs, bytes = some bs →
        let img := bs.take size
        let signed := s.cfg.sigSavestate <+: img ∨ s.cfg.sigContainer <+: img
        (size < 0x1000 → t.result = some .cartCantOpen) ∧
        (0x1000 ≤ size → signed → t.result = some .cartBadFormat) ∧
        (0x1000 ≤ size → ¬signed → ¬AcceptedSize s.cfg size → t.result = some .cartBadFormat) ∧
        (0x1000 ≤ size → ¬signed → AcceptedSize s.cfg size →
          catalogEntry s.cfg (Config.fingerprint img) = none → t.result = some .cartBadFormat) ∧
        (∀ e, 0x1000 ≤ size → ¬signed → AcceptedSize s.cfg size →
          catalogEntry s.cfg (Config.fingerprint img) = some e → size ≠ (typeRow s.cfg e.typeTag).imgSize →
          t.result = some .cartBadFormat) ∧
        (∀ e, 0x1000 ≤ size → ¬signed → AcceptedSize s.cfg size →
          catalogEntry s.cfg (Config.fingerprint img) = some e → size = (typeRow s.cfg e.typeTag).imgSize →
          t.result = some .ok)) ∧
      (t.result ≠ some .ok → NoCartridgeAfter s t ∧
        t = { s with cart := t.cart, bank := t.bank, total := t.total, qsel0 := t.qsel0, qsel1 := t.qsel1,
                     mem := t.mem, pt := t.pt, result := t.result, outputs := [] })

/-- 42 R120, R125, R126: a successful INSERT makes the catalog's cartridge active with the captured image, sets
TOTAL by class and the power-up bank and slices; every window byte is then the image byte at its documented
offset (the lookup view of 20 R45) and every other byte is as before; the tags are TagWindow's; nothing else
changes. -/
def Obligations.InsertMapsTheImage : Prop :=
  ∀ (s : State) (bs : List Byte) (size : Nat) (e : CatalogEntry), s.crashed = false →
    configOk s.cfg = true → size ≤ bs.length → 0x1000 ≤ size →
    ¬(s.cfg.sigSavestate <+: bs.take size) → ¬(s.cfg.sigContainer <+: bs.take size) →
    AcceptedSize s.cfg size → catalogEntry s.cfg (Config.fingerprint (bs.take size)) = some e →
    size = (typeRow s.cfg e.typeTag).imgSize →
    ∃ t c, exec (.insert (some bs) size) s = .next t ∧
      c = ⟨e.typeTag, (typeRow s.cfg e.typeTag).cls, bs.take size, size, Config.fingerprint (bs.take size),
            e.name, e.cal1, e.cal2⟩ ∧
      t = { s with cart := some c, bank := powerUpBank s.cfg c.cls, total := totalOf c.cls, qsel0 := 0,
                   qsel1 := 0, mem := t.mem, pt := t.pt, result := some .ok, outputs := [] } ∧
      (∀ a : Addr, t.mem.read a.toNat =
        if inWindow s.cfg a.toNat then viewOf s.cfg c (powerUpBank s.cfg c.cls) 0 0 a.toNat
        else s.mem.read a.toNat) ∧
      (∀ p : Byte, t.pt.tag p = powerUpTag s.cfg c.cls p (s.pt.tag p))

/-- 42 R120: "Inserting the same image twice gives the same state as inserting it once"; the same for every
other outcome of INSERT. -/
def Obligations.InsertIsIdempotent : Prop :=
  ∀ (s t : State) (bytes : Option (List Byte)) (size : Nat), configOk s.cfg = true → s.mem.wf = true →
    exec (.insert bytes size) s = .next t → exec (.insert bytes size) t = .next t

/-- 42 R124 (EE16), 95 V1: the source's one scenario. A 16KiB image whose type has the EE16 row appears as image
0x0000 to 0x1FFF at 0x4000, 0x6000 and 0x8000 (the third by the spec's decision D20), and 0x2000 to 0x3FFF at
0xA000. -/
def Obligations.MirroredOffsetCartridgeWindows : Prop :=
  ∀ (s : State) (img : List Byte) (e : CatalogEntry), s.crashed = false → configOk s.cfg = true →
    img.length = 0x4000 → ¬(s.cfg.sigSavestate <+: img) → ¬(s.cfg.sigContainer <+: img) →
    catalogEntry s.cfg (Config.fingerprint img) = some e →
    typeRow s.cfg e.typeTag = ⟨e.typeTag, .fixed, 0x4000,
      [⟨0x0000, 0x4000, 0x2000⟩, ⟨0x0000, 0x6000, 0x2000⟩, ⟨0x0000, 0x8000, 0x2000⟩,
        ⟨0x2000, 0xA000, 0x2000⟩]⟩ →
    ∃ t, exec (.insert (some img) 0x4000) s = .next t ∧ t.result = some .ok ∧
      ∀ i, i < 0x2000 →
        some (t.mem.read (0x4000 + i)) = img[i]? ∧ some (t.mem.read (0x6000 + i)) = img[i]? ∧
        some (t.mem.read (0x8000 + i)) = img[i]? ∧ some (t.mem.read (0xA000 + i)) = img[0x2000 + i]?

/-! ### Escape traps (43_escape_trap.md) -/

/-- 43 R150, R151: the code's slot is recorded and the two sentinel bytes are written, wrapping at 0xFFFF, whatever
the page's tag and with no signal or trigger; every other slot, every other byte and all else stay; refused while
crashed. -/
def Obligations.InstallRecordsSlotAndSentinel : Prop :=
  (∀ (s : State) (addr : Addr) (code : Byte) (h : Handler), s.crashed = false →
    ∃ t, exec (.install addr code h) s = .next t ∧
      t = { s with esc := t.esc, mem := t.mem, result := some .done, outputs := [] } ∧
      (∀ c : Byte, t.slot c = if c = code then ⟨true, addr, h⟩ else s.slot c) ∧
      (∀ a : Addr, t.mem.read a.toNat =
        if a = addr then s.cfg.escOp else if a = addr + 1 then code else s.mem.read a.toNat)) ∧
  (∀ (addr : Addr) (code : Byte) (h : Handler), RefusedWhenCrashed (.install addr code h))

/-- 43 R152: as INSTALL, and RET_OP after the sentinel; refused while crashed. -/
def Obligations.InstallrAddsReturnOpcode : Prop :=
  (∀ (s : State) (addr : Addr) (code : Byte) (h : Handler), s.crashed = false →
    ∃ t, exec (.installr addr code h) s = .next t ∧
      t = { s with esc := t.esc, mem := t.mem, result := some .done, outputs := [] } ∧
      (∀ c : Byte, t.slot c = if c = code then ⟨true, addr, h⟩ else s.slot c) ∧
      (∀ a : Addr, t.mem.read a.toNat =
        if a = addr then s.cfg.escOp else if a = addr + 1 then code
        else if a = addr + 2 then s.cfg.retOp else s.mem.read a.toNat)) ∧
  (∀ (addr : Addr) (code : Byte) (h : Handler), RefusedWhenCrashed (.installr addr code h))

/-- 43 R153: only VALID of the code's slot is cleared; MEM keeps the sentinel bytes; a later FIRE with the code
crashes; refused while crashed. -/
def Obligations.UninstClearsValidOnly : Prop :=
  (∀ (s : State) (code : Byte), s.crashed = false →
    ∃ t, exec (.uninst code) s = .next t ∧
      t = { s with esc := t.esc, result := some .done, outputs := [] } ∧
      (∀ c : Byte, t.slot c = if c = code then { s.slot c with valid := false } else s.slot c) ∧
      ∀ pc : Addr, exec (.fire pc code) t = .next { t with
        crashed := true, result := some .crash, outputs := [.crash], history := .crash :: t.history }) ∧
  (∀ code : Byte, RefusedWhenCrashed (.uninst code))

/-- 43 R154 to R156, 60 R190: FIRE invokes the slot's handler exactly when the slot is valid and its address plus
the sentinel's width 2 is the pc, modulo 2^16, and then changes no state; otherwise CRASHED is set, Crash is
emitted, no handler is invoked. ESC and MEM are never written. Refused while crashed. -/
def Obligations.FireInvokesOrCrashes : Prop :=
  (∀ (s : State) (pc : Addr) (code : Byte), s.crashed = false →
    ((s.slot code).valid = true ∧ (s.slot code).addr + 2 = pc →
      exec (.fire pc code) s = .next { s with
        result := some (.invoked (s.slot code).handler)
        outputs := [.invoke (s.slot code).handler]
        history := .invoke (s.slot code).handler :: s.history }) ∧
    (¬((s.slot code).valid = true ∧ (s.slot code).addr + 2 = pc) →
      exec (.fire pc code) s = .next { s with
        crashed := true, result := some .crash, outputs := [.crash], history := .crash :: s.history })) ∧
  (∀ (pc : Addr) (code : Byte), RefusedWhenCrashed (.fire pc code))

/-- 43 R155: after INSTALL or INSTALLR, "firing at `addr` invokes `fn` exactly once; firing with the same code
recorded at a different PC reports a crash condition, never invoking `fn`". -/
def Obligations.InstalledTrapFiresOnlyAtItsAddress : Prop :=
  ∀ (s t : State) (addr pc : Addr) (code : Byte) (h : Handler), s.crashed = false →
    (exec (.install addr code h) s = .next t ∨ exec (.installr addr code h) s = .next t) →
    (exec (.fire (addr + 2) code) t = .next { t with
      result := some (.invoked h), outputs := [.invoke h], history := .invoke h :: t.history }) ∧
    (pc ≠ addr + 2 → exec (.fire pc code) t = .next { t with
      crashed := true, result := some .crash, outputs := [.crash], history := .crash :: t.history })

/-- 43 R158 item 1: a code re-installed at a new address leaves its stale sentinel at the old one (when the new
sentinel does not overlap it), and firing there crashes the machine. -/
def Obligations.StaleSentinelCrashes : Prop :=
  ∀ (s t u : State) (a1 a2 : Addr) (code : Byte) (h1 h2 : Handler), s.crashed = false →
    a2 ≠ a1 → a2 ≠ a1 + 1 → a2 + 1 ≠ a1 →
    exec (.install a1 code h1) s = .next t → exec (.install a2 code h2) t = .next u →
    u.mem.read a1.toNat = s.cfg.escOp ∧ u.mem.read (a1 + 1).toNat = code ∧
      u.slot code = ⟨true, a2, h2⟩ ∧
      exec (.fire (a1 + 2) code) u = .next { u with
        crashed := true, result := some .crash, outputs := [.crash], history := .crash :: u.history }

/-! ### Lifecycle and snapshot (44_lifecycle_snapshot.md) -/

/-- 44 R170: WARM emits the five reset signals in order and changes no element of ADB's state; refused while
crashed. -/
def Obligations.WarmEmitsResetsAndKeepsState : Prop :=
  (∀ s : State, s.crashed = false →
    exec .warm s = .next { s with
      result := some .done, outputs := resetSignals, history := resetSignals.reverse ++ s.history }) ∧
  RefusedWhenCrashed .warm

/-- 44 R171, R172: COLD emits the reset signals and, if MODE asks for one, one key-hold request after them. With no
cartridge it writes the flag byte without a tag check, and the window is not touched. With one, the power-up bank,
slices, window bytes and tags are restored and the flag byte is written last; CART, TOTAL, ESC, CTRL, MODE and
CRASHED and all else stay. The premise Inv (the invariant) keeps out states no run reaches. Refused while
crashed. -/
def Obligations.ColdRestoresThePowerUpMapping : Prop :=
  (∀ s : State, s.crashed = false → s.cart = none →
    ∃ t, exec .cold s = .next t ∧
      t = { s with mem := t.mem, result := some .done, outputs := resetSignals ++ keyHoldSignals s,
                   history := (resetSignals ++ keyHoldSignals s).reverse ++ s.history } ∧
      ∀ a : Addr, t.mem.read a.toNat =
        if a = s.cfg.coldAddr then s.cfg.coldVal else s.mem.read a.toNat) ∧
  (∀ (s : State) (c : Cartridge), s.crashed = false → Inv s → s.cart = some c →
    ∃ t, exec .cold s = .next t ∧
      t = { s with bank := powerUpBank s.cfg c.cls, qsel0 := 0, qsel1 := 0, mem := t.mem, pt := t.pt,
                   result := some .done, outputs := resetSignals ++ keyHoldSignals s,
                   history := (resetSignals ++ keyHoldSignals s).reverse ++ s.history } ∧
      (∀ a : Addr, t.mem.read a.toNat =
        if a = s.cfg.coldAddr then s.cfg.coldVal
        else if inWindow s.cfg a.toNat then viewOf s.cfg c (powerUpBank s.cfg c.cls) 0 0 a.toNat
        else s.mem.read a.toNat) ∧
      (∀ p : Byte, t.pt.tag p = powerUpTag s.cfg c.cls p (s.pt.tag p))) ∧
  RefusedWhenCrashed .cold

/-- 44 R174: SAVE writes MODE, the type tag (0 with no cartridge), a zero for each legacy width, and BANK for a
SUPER cartridge only; it changes no state; refused while crashed. -/
def Obligations.SaveWritesTheStream : Prop :=
  (∀ s : State, s.crashed = false →
    ∃ fields : Stream, exec .save s = .next { s with result := some (.stream fields), outputs := [] } ∧
      (s.cart = none → fields = [⟨8, s.mode⟩, ⟨8, 0⟩] ++ s.cfg.legacy.map (fun w => ⟨w, 0⟩)) ∧
      (∀ c, s.cart = some c → c.cls ≠ .super →
        fields = [⟨8, s.mode⟩, ⟨8, c.typeTag⟩] ++ s.cfg.legacy.map (fun w => ⟨w, 0⟩)) ∧
      (∀ c, s.cart = some c → c.cls = .super →
        fields = [⟨8, s.mode⟩, ⟨8, c.typeTag⟩] ++ s.cfg.legacy.map (fun w => ⟨w, 0⟩)
          ++ [⟨8, BitVec.ofNat 8 s.bank⟩])) ∧
  RefusedWhenCrashed .save

/-- 44 R175: a stream with ADB's fields in order (mode, tag, legacy fields of any value, and for a SUPER cartridge a
bank below 16) is loaded: MODE is set, and for SUPER the bank and the window; the tag, the legacy fields and what
follows are discarded or left unread; nothing else changes. A stream that ends before ADB's last field, or a bank
of 16 or more, is refused with SNAPSHOT_MISMATCH and no state change. Refused while crashed. -/
def Obligations.LoadRestoresModeAndBank : Prop :=
  (∀ (s : State) (m tag b : Byte) (legacy rest : Stream), s.crashed = false →
    legacy.map (fun f => f.width) = s.cfg.legacy →
    (s.cartIsSuper = false →
      exec (.load ([⟨8, m⟩, ⟨8, tag⟩] ++ legacy ++ rest)) s =
        .next { s with mode := m, result := some .ok, outputs := [] }) ∧
    (∀ c, s.cart = some c → c.cls = .super → b.toNat < 16 →
      ∃ t, exec (.load ([⟨8, m⟩, ⟨8, tag⟩] ++ legacy ++ [⟨8, b⟩] ++ rest)) s = .next t ∧
        t = { s with mode := m, bank := b.toNat, mem := t.mem, result := some .ok, outputs := [] } ∧
        ∀ a : Addr, t.mem.read a.toNat =
          if s.cfg.winLo.toNat ≤ a.toNat ∧ a.toNat < s.cfg.winLo.toNat + 0x8000
          then imageByte c.img (b.toNat * 0x8000 + (a.toNat - s.cfg.winLo.toNat)) else s.mem.read a.toNat) ∧
    (s.cartIsSuper = true → 16 ≤ b.toNat →
      exec (.load ([⟨8, m⟩, ⟨8, tag⟩] ++ legacy ++ [⟨8, b⟩] ++ rest)) s =
        .next { s with result := some (.refused .snapshotMismatch), outputs := [] })) ∧
  (∀ (s : State) (stream : Stream), s.crashed = false →
    (stream.map (fun f => f.width)) <+: snapshotWidths s → stream.length < (snapshotWidths s).length →
    exec (.load stream) s = .next { s with result := some (.refused .snapshotMismatch), outputs := [] }) ∧
  (∀ stream : Stream, RefusedWhenCrashed (.load stream))

/-- 44 R175: "Snapshot save then load on a dynamic-bank cartridge restores the exact prior bank index and visible
window": the stream SAVE gives in s, loaded in any running state u with the same cartridge and configuration,
gives s's BANK, s's MODE and the window of that bank. -/
def Obligations.SaveThenLoadRestoresTheBank : Prop :=
  ∀ (s t u : State) (c : Cartridge) (fields : Stream), s.crashed = false → Inv s → s.cart = some c →
    c.cls = .super → exec .save s = .next t → t.result = some (.stream fields) →
    u.crashed = false → u.cart = s.cart → u.cfg = s.cfg →
    ∃ v, exec (.load fields) u = .next v ∧ v.result = some .ok ∧ v.bank = s.bank ∧ v.mode = s.mode ∧
      ∀ a : Addr, inWindow s.cfg a.toNat = true → v.mem.read a.toNat = view s a.toNat

/-! ### Invariants and whole-machine rules (10_state.md, 20_memory.md, 60_exceptions.md, 70_reset_and_hazards.md) -/

/-- 10 R26 items 1 to 4: every step keeps the invariants, from every state that meets them. -/
def Obligations.StepKeepsTheInvariants : Prop :=
  ∀ s t : State, Inv s → step s = .next t → Inv t

/-- 10 R26, 70 R210: the power-on state of the reference configuration meets the invariants. -/
def Obligations.ResetMeetsTheInvariants : Prop := Inv State.reset

/-- 10 R12, and the model's form of it (log 3): every step keeps MEM's canonical form. -/
def Obligations.StepKeepsTheMemoryForm : Prop :=
  ∀ s t : State, s.mem.wf = true → step s = .next t → t.mem.wf = true

/-- The model's form of MEM (log 3): power-on leaves it under every well-formed configuration, and so at reset. -/
def Obligations.PowerOnMeetsTheMemoryForm : Prop :=
  (∀ cfg : Config, configOk cfg = true → (State.powerOn cfg).mem.wf = true) ∧ State.reset.mem.wf = true

/-- 10 R11 to R19, R25, 20 R40: each piece of state is written only by the operations its rule lists, MEM by those
20 R40 names for the CPU address space; CFG by none. The queue, the model's own field (log 6), is written by none. -/
def Obligations.StateIsWrittenOnlyByItsOperations : Prop :=
  ∀ (i : Instr) (s t : State), exec i s = .next t →
    t.cfg = s.cfg ∧ t.requests = s.requests ∧
    (t.pt ≠ s.pt → (∃ f l k, i = .setattr f l k) ∨ (∃ v, i = .ctrlw v) ∨ (∃ b n, i = .insert b n)
      ∨ i = .remove ∨ i = .cold ∨ (∃ a v, i = .wr a v ∧ s.cfg.ctrlAddr = some a)) ∧
    (t.mem ≠ s.mem → (∃ a, i = .rd a) ∨ (∃ a v, i = .wr a v) ∨ (∃ v, i = .ctrlw v) ∨ (∃ b n, i = .insert b n)
      ∨ i = .remove ∨ (∃ a c h, i = .install a c h) ∨ (∃ a c h, i = .installr a c h) ∨ i = .cold
      ∨ (∃ st, i = .load st)) ∧
    (t.ctrl ≠ s.ctrl → (∃ v, i = .ctrlw v) ∨ (∃ a v, i = .wr a v ∧ s.cfg.ctrlAddr = some a)) ∧
    (t.mode ≠ s.mode → (∃ v, i = .setmode v) ∨ (∃ st, i = .load st)) ∧
    (t.cart ≠ s.cart → (∃ b n, i = .insert b n) ∨ i = .remove) ∧
    (t.total ≠ s.total → (∃ b n, i = .insert b n) ∨ i = .remove) ∧
    (t.bank ≠ s.bank → (∃ b n, i = .insert b n) ∨ i = .remove ∨ i = .cold ∨ (∃ st, i = .load st)
      ∨ (∃ a, i = .rd a) ∨ (∃ a v, i = .wr a v)) ∧
    (t.qsel0 ≠ s.qsel0 ∨ t.qsel1 ≠ s.qsel1 → (∃ b n, i = .insert b n) ∨ i = .remove ∨ i = .cold
      ∨ (∃ a, i = .rd a) ∨ (∃ a v, i = .wr a v)) ∧
    (t.esc ≠ s.esc → (∃ a c h, i = .install a c h) ∨ (∃ a c h, i = .installr a c h) ∨ (∃ c, i = .uninst c)) ∧
    (t.crashed ≠ s.crashed → ∃ pc c, i = .fire pc c)

/-- 43 R156: the crash condition is raised by FIRE, and only by FIRE, and then no handler is invoked. -/
def Obligations.OnlyFireCrashes : Prop :=
  ∀ (i : Instr) (s t : State), exec i s = .next t → s.crashed = false → t.crashed = true →
    (∃ pc code, i = .fire pc code) ∧ t.result = some .crash ∧ t.outputs = [.crash]

/-- 60 R198: what the guest may not do. No operation of the CPU port inserts or removes a cartridge, installs or
removes a trap or sets MODE; tags and CTRL it changes only by writing CTRL_ADDR. -/
def Obligations.CpuPortCannotReconfigure : Prop :=
  ∀ (i : Instr) (s t : State), i.port = .cpu → exec i s = .next t →
    t.cart = s.cart ∧ t.total = s.total ∧ t.esc = s.esc ∧ t.mode = s.mode ∧
    ((∀ v addr, i = .wr addr v → s.cfg.ctrlAddr ≠ some addr) → t.pt = s.pt ∧ t.ctrl = s.ctrl)

/-- 20 R45: the copies are equivalent to the lookup view. While window pages stay ROM or HARDWARE and only ADB's own
copies write window bytes (the operation `leavesWindow`; a control write is one unless an overlay whose bit changes
has a range over the window), every operation keeps every window byte equal to the
byte the lookup gives. -/
def Obligations.CopiesRefineTheLookupView : Prop :=
  ∀ (i : Instr) (s t : State), Inv s → WindowFaithful s → leavesWindow s i = true →
    exec i s = .next t → WindowFaithful t

/-- 10 R26 item 7: while no cartridge is inserted and nothing writes a window byte or a window page's tag, the
window stays 0x00 and ROM: every operation that leaves the window (a control write too, unless an overlay whose bit
changes has a range over the window) keeps it so, as long as none is inserted; REMOVE makes it so, and so it is at
reset (the reference configuration, log 2). -/
def Obligations.EmptyWindowStaysEmpty : Prop :=
  (∀ (i : Instr) (s t : State), Inv s → EmptyWindow s → leavesWindow s i = true →
    (∀ first last kind, i = .setattr first last kind → pagesApart s.cfg first last = true) →
    exec i s = .next t → t.cart = none → EmptyWindow t) ∧
  (∀ s t : State, s.crashed = false → exec .remove s = .next t → EmptyWindow t) ∧
  EmptyWindow State.reset

/-- 70 R210: the power-on state under every well-formed configuration: MEM_INIT, then the window 0x00 and ROM, then
each overlay CTRL_RESET enables, in the order OS, BASIC, SELFTEST; CTRL = CTRL_RESET, MODE = 0, no cartridge, no
valid slot, not crashed. -/
def Obligations.PowerOnState : Prop :=
  ∀ cfg : Config, configOk cfg = true →
    let s := State.powerOn cfg
    (∀ a : Addr, s.mem.read a.toNat =
      powerOnByte cfg.ovlSelftest cfg.ctrlReset a (powerOnByte cfg.ovlBasic cfg.ctrlReset a
        (powerOnByte cfg.ovlOs cfg.ctrlReset a
          (if inWindow cfg a.toNat then 0x00 else Memory.read cfg.memInit a.toNat)))) ∧
    (∀ p : Byte, s.pt.tag p =
      powerOnTag cfg.ovlSelftest cfg.ctrlReset p (powerOnTag cfg.ovlBasic cfg.ctrlReset p
        (powerOnTag cfg.ovlOs cfg.ctrlReset p
          (if (winFirstPage cfg).toNat ≤ p.toNat ∧ p.toNat ≤ (winLastPage cfg).toNat then .rom else .ram)))) ∧
    s.ctrl = cfg.ctrlReset ∧ s.mode = 0x00 ∧ s.cart = none ∧ s.bank = 0 ∧ s.total = 1 ∧ s.qsel0 = 0 ∧
    s.qsel1 = 0 ∧ (∀ c : Byte, (s.slot c).valid = false) ∧ s.crashed = false ∧ s.cfg = cfg

/-- 95 section 1.3, P0: the tags, bytes and CTRL of the reset state under the reference configuration (the model's
reset, log 2 and log 3). The last clause is no part of P0: that the queue, the model's own field, is empty at reset is
the model's choice (log 6). -/
def Obligations.ResetIsTheReferencePowerOn : Prop :=
  (∀ p : Byte, State.reset.pt.tag p =
    if (0x40 ≤ p.toNat ∧ p.toNat ≤ 0xBF) ∨ 0xF0 ≤ p.toNat then .rom else .ram) ∧
  (∀ a : Addr, State.reset.mem.read a.toNat =
    if 0xF000 ≤ a.toNat then BitVec.ofNat 8 (0xE0 + (a.toNat - 0xF000) / 256) else 0x00) ∧
  State.reset.ctrl = 0xFF ∧ State.reset.requests = []
end

