-- ==== Sys2Proof/Laws/Memory.lean ====
section
/-! SUPPORT. What the memory operations do (spec 10_state.md R12): a read after a write, and the canonical form they keep. -/

namespace Sys2Proof.Machine

/-- The addresses a memory lists. -/
def Memory.keys (m : Memory) : List Nat := m.map (fun c => c.1)

@[simp] theorem Memory.read_nil (a : Nat) : Memory.read [] a = Memory.unlisted := rfl

theorem Memory.read_cons (k : Nat) (v : Byte) (m : Memory) (a : Nat) :
    Memory.read ((k, v) :: m) a = if a = k then v else Memory.read m a := rfl

theorem Memory.read_of_not_listed {m : Memory} {a : Nat} (h : a ∉ m.keys) :
    m.read a = Memory.unlisted := by
  induction m with
  | nil => rfl
  | cons c m ih =>
    obtain ⟨k, v⟩ := c
    simp only [Memory.keys, List.map_cons, List.mem_cons, not_or] at h
    rw [Memory.read_cons, if_neg h.1, ih h.2]

theorem Memory.read_append (m n : Memory) (a : Nat) :
    Memory.read (m ++ n) a = if a ∈ Memory.keys m then Memory.read m a else Memory.read n a := by
  induction m with
  | nil => simp [Memory.keys]
  | cons c m ih =>
    obtain ⟨k, v⟩ := c
    rw [List.cons_append, Memory.read_cons, Memory.read_cons, ih]
    by_cases hk : a = k <;> simp [Memory.keys, hk]

theorem Memory.read_filter (p : Nat → Bool) (m : Memory) (a : Nat) :
    Memory.read (m.filter (fun c => p c.1)) a = if p a then m.read a else Memory.unlisted := by
  induction m with
  | nil => simp
  | cons c m ih =>
    obtain ⟨k, v⟩ := c
    rw [List.filter_cons]
    by_cases hk : a = k
    · subst hk
      by_cases hp : p a
      · simp [hp, Memory.read_cons]
      · simp [hp, ih]
    · by_cases hp : p k
      · simp [hp, Memory.read_cons, hk, ih]
      · simp [hp, Memory.read_cons, hk, ih]

theorem Memory.keys_filter (p : Nat → Bool) (m : Memory) (a : Nat) :
    a ∈ Memory.keys (m.filter (fun c => p c.1)) ↔ p a = true ∧ a ∈ m.keys := by
  simp only [Memory.keys, List.mem_map, List.mem_filter]
  constructor
  · rintro ⟨c, ⟨hc, hp⟩, rfl⟩
    exact ⟨hp, c, hc, rfl⟩
  · rintro ⟨hp, c, hc, rfl⟩
    exact ⟨c, ⟨hc, hp⟩, rfl⟩

/-- Every listed cell of `cells base bs` is one of the bytes, at its place. -/
theorem Memory.mem_cells {base : Nat} {bs : List Byte} {c : Host.Cell} (h : c ∈ Memory.cells base bs) :
    base ≤ c.1 ∧ c.1 < base + bs.length ∧ c.1 < addrCount ∧ c.2 ≠ Memory.unlisted := by
  induction bs generalizing base with
  | nil => simp [Memory.cells] at h
  | cons b bs ih =>
    rw [Memory.cells] at h
    split at h
    · have := ih h
      simp only [List.length_cons]
      exact ⟨by omega, by omega, this.2.2⟩
    · rename_i hb
      simp only [not_or, not_le] at hb
      rcases List.mem_cons.1 h with rfl | h
      · simp only [List.length_cons]
        exact ⟨le_refl _, by omega, hb.2, hb.1⟩
      · have := ih h
        simp only [List.length_cons]
        exact ⟨by omega, by omega, this.2.2⟩

theorem Memory.read_cells (base : Nat) (bs : List Byte) (a : Nat) (ha : a < addrCount) :
    Memory.read (Memory.cells base bs) a =
      if base ≤ a ∧ a < base + bs.length then bs.getD (a - base) Memory.unlisted else Memory.unlisted := by
  induction bs generalizing base with
  | nil => simp [Memory.cells]
  | cons b bs ih =>
    rw [Memory.cells]
    by_cases hab : a = base
    · subst hab
      split
      · rename_i hb
        rw [ih, if_neg (by omega)]
        rcases hb with hb | hb
        · simp [hb]
        · omega
      · simp [Memory.read_cons]
    · have hstep : (base ≤ a ∧ a < base + (b :: bs).length) ↔ (base + 1 ≤ a ∧ a < base + 1 + bs.length) := by
        simp only [List.length_cons]
        omega
      have hget : base + 1 ≤ a → (b :: bs).getD (a - base) Memory.unlisted
          = bs.getD (a - (base + 1)) Memory.unlisted := by
        intro h
        rw [show a - base = (a - (base + 1)) + 1 by omega, List.getD_cons_succ]
      have key : Memory.read (Memory.cells (base + 1) bs) a =
          if base ≤ a ∧ a < base + (b :: bs).length then (b :: bs).getD (a - base) Memory.unlisted
          else Memory.unlisted := by
        rw [ih]
        by_cases hr : base + 1 ≤ a ∧ a < base + 1 + bs.length
        · rw [if_pos hr, if_pos (hstep.2 hr), hget hr.1]
        · rw [if_neg hr, if_neg (fun h => hr (hstep.1 h))]
      split
      · exact key
      · rw [Memory.read_cons, if_neg hab]
        exact key

theorem Memory.not_mem_keys_cells {base : Nat} {bs : List Byte} {a : Nat}
    (h : ¬(base ≤ a ∧ a < base + bs.length)) : a ∉ Memory.keys (Memory.cells base bs) := by
  intro hk
  obtain ⟨c, hc, rfl⟩ := List.mem_map.1 hk
  have := Memory.mem_cells hc
  omega

/-- THE SPEC OF A COPY: the copied bytes in their range, every other address as before. -/
theorem Memory.read_overwrite (m : Memory) (base : Nat) (bs : List Byte) (a : Nat) (ha : a < addrCount) :
    (m.overwrite base bs).read a =
      if base ≤ a ∧ a < base + bs.length then bs.getD (a - base) Memory.unlisted else m.read a := by
  have hlow := Memory.keys_filter (fun k => decide (k < base)) m a
  have hrlow := Memory.read_filter (fun k => decide (k < base)) m a
  have hrhigh := Memory.read_filter (fun k => decide (base + bs.length ≤ k)) m a
  have hcells := Memory.read_cells base bs a ha
  simp only [decide_eq_true_eq] at hlow hrlow hrhigh
  rw [Memory.overwrite, List.append_assoc]
  by_cases hl : a < base
  · rw [if_neg (by omega)]
    by_cases hk : a ∈ m.keys
    · rw [Memory.read_append, if_pos (hlow.2 ⟨hl, hk⟩), hrlow, if_pos hl]
    · rw [Memory.read_append, if_neg (fun h => hk (hlow.1 h).2), Memory.read_append,
        if_neg (Memory.not_mem_keys_cells (by omega)), hrhigh, if_neg (by omega),
        Memory.read_of_not_listed hk]
  · rw [Memory.read_append, if_neg (fun h => hl (hlow.1 h).1), Memory.read_append]
    by_cases hr : base ≤ a ∧ a < base + bs.length
    · rw [if_pos hr] at hcells ⊢
      split
      · exact hcells
      · rename_i hk
        rw [hrhigh, if_neg (by omega), ← hcells, Memory.read_of_not_listed hk]
    · rw [if_neg hr, if_neg (Memory.not_mem_keys_cells hr), hrhigh, if_pos (by omega)]

theorem Memory.cells_replicate_unlisted (base n : Nat) :
    Memory.cells base (List.replicate n Memory.unlisted) = [] := by
  induction n generalizing base with
  | zero => rfl
  | succ n ih => rw [List.replicate_succ, Memory.cells, if_pos (Or.inl rfl), ih]

/-- A fill is the copy of a run of equal bytes. -/
theorem Memory.fill_eq_overwrite (m : Memory) (base len : Nat) (v : Byte) :
    m.fill base len v = m.overwrite base (List.replicate len v) := by
  rw [Memory.fill, Memory.overwrite, List.length_replicate]
  split
  · rename_i hv
    rw [hv, Memory.cells_replicate_unlisted]
  · rfl

/-- THE SPEC OF A FILL. -/
theorem Memory.read_fill (m : Memory) (base len : Nat) (v : Byte) (a : Nat) (ha : a < addrCount) :
    (m.fill base len v).read a = if base ≤ a ∧ a < base + len then v else m.read a := by
  rw [Memory.fill_eq_overwrite, Memory.read_overwrite _ _ _ _ ha, List.length_replicate]
  split
  · rename_i h
    rw [List.getD_eq_getElem?_getD, List.getElem?_replicate, if_pos (by omega)]
    rfl
  · rfl

/-- THE SPEC OF A WRITE: a read after a write to the same place gives the value written, any other place is
left alone. -/
theorem Memory.read_write (m : Memory) (x : Addr) (v : Byte) (a : Addr) :
    (m.write x v).read a.toNat = if a = x then v else m.read a.toNat := by
  have ha : a.toNat < addrCount := a.isLt
  rw [Memory.write, Memory.read_overwrite _ _ _ _ ha]
  by_cases h : a = x
  · subst h
    simp
  · have : a.toNat ≠ x.toNat := fun e => h (BitVec.eq_of_toNat_eq e)
    rw [if_neg (by simp only [List.length_singleton]; omega), if_neg h]

theorem Memory.risesFrom_iff (lo : Nat) (m : Memory) :
    Memory.risesFrom lo m = true ↔ (∀ c ∈ m, lo ≤ c.1) ∧ m.Pairwise (fun c d => c.1 < d.1) := by
  induction m generalizing lo with
  | nil => simp [Memory.risesFrom]
  | cons c m ih =>
    obtain ⟨k, v⟩ := c
    simp only [Memory.risesFrom, Bool.and_eq_true, decide_eq_true_eq, ih, List.mem_cons,
      forall_eq_or_imp, List.pairwise_cons]
    constructor
    · rintro ⟨h1, h2, h3⟩
      exact ⟨⟨h1, fun c hc => by have := h2 c hc; omega⟩, fun c hc => by have := h2 c hc; omega, h3⟩
    · rintro ⟨⟨h1, _⟩, h3, h4⟩
      exact ⟨h1, fun c hc => by have := h3 c hc; omega, h4⟩

/-- The canonical form in terms of list order and membership. -/
theorem Memory.wf_iff (m : Memory) :
    m.wf = true ↔ m.Pairwise (fun c d => c.1 < d.1) ∧ ∀ c ∈ m, c.1 < addrCount ∧ c.2 ≠ Memory.unlisted := by
  simp [Memory.wf, Memory.risesFrom_iff]

theorem Memory.wf_nil : Memory.wf [] = true := rfl

theorem Memory.pairwise_cells (base : Nat) (bs : List Byte) :
    (Memory.cells base bs).Pairwise (fun c d => c.1 < d.1) := by
  induction bs generalizing base with
  | nil => exact List.Pairwise.nil
  | cons b bs ih =>
    rw [Memory.cells]
    split
    · exact ih _
    · refine List.pairwise_cons.2 ⟨fun c hc => ?_, ih _⟩
      have := Memory.mem_cells hc
      omega

/-- Every copy keeps the canonical form. -/
theorem Memory.wf_overwrite {m : Memory} (h : m.wf = true) (base : Nat) (bs : List Byte) :
    (m.overwrite base bs).wf = true := by
  rw [Memory.wf_iff] at h ⊢
  obtain ⟨hp, hc⟩ := h
  refine ⟨?_, ?_⟩
  · rw [Memory.overwrite, List.append_assoc, List.pairwise_append, List.pairwise_append]
    refine ⟨hp.filter _, ⟨Memory.pairwise_cells _ _, hp.filter _, ?_⟩, ?_⟩
    · intro c h1 d h2
      have := Memory.mem_cells h1
      simp only [List.mem_filter, decide_eq_true_eq] at h2
      omega
    · intro c h1 d h2
      simp only [List.mem_filter, decide_eq_true_eq] at h1
      rcases List.mem_append.1 h2 with h2 | h2
      · have := Memory.mem_cells h2
        omega
      · simp only [List.mem_filter, decide_eq_true_eq] at h2
        omega
  · intro c h1
    simp only [Memory.overwrite, List.mem_append, List.mem_filter] at h1
    rcases h1 with (h1 | h1) | h1
    · exact hc c h1.1
    · exact (Memory.mem_cells h1).2.2
    · exact hc c h1.1

/-- Every fill keeps the canonical form. -/
theorem Memory.wf_fill {m : Memory} (h : m.wf = true) (base len : Nat) (v : Byte) :
    (m.fill base len v).wf = true := by
  rw [Memory.fill_eq_overwrite]
  exact Memory.wf_overwrite h _ _

/-- Every write keeps the canonical form. -/
theorem Memory.wf_write {m : Memory} (h : m.wf = true) (a : Addr) (v : Byte) : (m.write a v).wf = true :=
  Memory.wf_overwrite h _ _

/-- Laying out a list of descriptors keeps the canonical form. -/
theorem Memory.wf_applyLayout {m : Memory} (h : m.wf = true) (img : List Byte) (layout : List Descriptor) :
    (applyLayout img layout m).wf = true := by
  induction layout generalizing m with
  | nil => exact h
  | cons d ds ih => exact ih (Memory.wf_overwrite h _ _)

theorem Memory.wf_tail {c : Host.Cell} {m : Memory} (h : Memory.wf (c :: m) = true) : Memory.wf m = true := by
  rw [Memory.wf_iff] at h ⊢
  exact ⟨(List.pairwise_cons.1 h.1).2, fun d hd => h.2 d (List.mem_cons_of_mem _ hd)⟩

theorem Memory.read_below_head {c : Host.Cell} {m : Memory} (h : Memory.wf (c :: m) = true) {a : Nat}
    (ha : a < c.1) : Memory.read (c :: m) a = Memory.unlisted := by
  rw [Memory.wf_iff] at h
  apply Memory.read_of_not_listed
  intro hk
  obtain ⟨d, hd, rfl⟩ := List.mem_map.1 hk
  rcases List.mem_cons.1 hd with rfl | hd
  · omega
  · have := (List.pairwise_cons.1 h.1).1 d hd
    omega

/-- Two memories in canonical form that read alike are equal data. -/
theorem Memory.ext_of_wf {m n : Memory} (hm : m.wf = true) (hn : n.wf = true)
    (h : ∀ a, a < addrCount → m.read a = n.read a) : m = n := by
  induction m generalizing n with
  | nil =>
    cases n with
    | nil => rfl
    | cons d n =>
      have hd := ((Memory.wf_iff _).1 hn).2 d (List.mem_cons_self ..)
      have := h d.1 hd.1
      rw [show d = (d.1, d.2) from rfl, Memory.read_cons, if_pos rfl] at this
      exact absurd this.symm hd.2
  | cons c m ih =>
    have hc := ((Memory.wf_iff _).1 hm).2 c (List.mem_cons_self ..)
    have hread : Memory.read (c :: m) c.1 = c.2 := by
      rw [show c = (c.1, c.2) from rfl, Memory.read_cons, if_pos rfl]
    cases n with
    | nil =>
      have := h c.1 hc.1
      rw [hread] at this
      exact absurd this hc.2
    | cons d n =>
      have hd := ((Memory.wf_iff _).1 hn).2 d (List.mem_cons_self ..)
      have hdread : Memory.read (d :: n) d.1 = d.2 := by
        rw [show d = (d.1, d.2) from rfl, Memory.read_cons, if_pos rfl]
      have hk : c.1 = d.1 := by
        rcases Nat.lt_trichotomy c.1 d.1 with hlt | he | hgt
        · have := h c.1 hc.1
          rw [hread, Memory.read_below_head hn hlt] at this
          exact absurd this hc.2
        · exact he
        · have := h d.1 hd.1
          rw [hdread, Memory.read_below_head hm hgt] at this
          exact absurd this.symm hd.2
      have hv : c.2 = d.2 := by
        have := h c.1 hc.1
        rw [hread, hk, hdread] at this
        exact this
      have hcd : c = d := Prod.ext hk hv
      subst hcd
      congr 1
      refine ih (Memory.wf_tail hm) (Memory.wf_tail hn) fun a ha => ?_
      by_cases hac : a = c.1
      · subst hac
        have notIn : ∀ {l : Memory}, Memory.wf (c :: l) = true → c.1 ∉ Memory.keys l := by
          intro l hl hk
          obtain ⟨e, he, hec⟩ := List.mem_map.1 hk
          have := (List.pairwise_cons.1 ((Memory.wf_iff _).1 hl).1).1 e he
          omega
        rw [Memory.read_of_not_listed (notIn hm), Memory.read_of_not_listed (notIn hn)]
      · have := h a ha
        rw [show c = (c.1, c.2) from rfl, Memory.read_cons, Memory.read_cons, if_neg hac, if_neg hac] at this
        exact this

@[simp] theorem imageSlice_length (img : List Byte) (off len : Nat) : (imageSlice img off len).length = len := by
  simp only [imageSlice, List.length_append, List.length_take, List.length_drop, List.length_map,
    List.length_range]
  omega

/-- THE SPEC OF A SLICE: byte i is image byte `off + i` (20 R42). -/
theorem imageSlice_getD (img : List Byte) (off len i : Nat) (d : Byte) (hi : i < len) :
    (imageSlice img off len).getD i d = imageByte img (off + i) := by
  rw [imageSlice, imageByte, List.getD_eq_getElem?_getD, List.getD_eq_getElem?_getD, List.getElem?_append]
  by_cases h : off + i < img.length
  · rw [if_pos (by simp; omega), List.getElem?_take, if_pos hi, List.getElem?_drop,
      List.getElem?_eq_getElem h]
    rfl
  · have hlen : ((img.drop off).take len).length = img.length - off := by simp; omega
    rw [if_neg (by rw [hlen]; omega), List.getElem?_eq_none (l := img) (by omega), List.getElem?_map,
      List.getElem?_range (by rw [hlen]; omega)]
    simp only [Option.map_some, Option.getD_some, Option.getD_none]
    congr 1
    rw [hlen]
    by_cases ho : off ≤ img.length
    · omega
    · omega

/-- A slice copied from an image, read back. -/
theorem Memory.read_overwrite_slice (m : Memory) (base : Nat) (img : List Byte) (off len a : Nat)
    (ha : a < addrCount) :
    (m.overwrite base (imageSlice img off len)).read a =
      if base ≤ a ∧ a < base + len then imageByte img (off + (a - base)) else m.read a := by
  rw [Memory.read_overwrite _ _ _ _ ha, imageSlice_length]
  split
  · rename_i h
    rw [imageSlice_getD _ _ _ _ _ (by omega)]
  · rfl

/-- A copy made twice is the copy made once. -/
theorem Memory.overwrite_twice (m : Memory) (base : Nat) (bs : List Byte) :
    (m.overwrite base bs).overwrite base bs = m.overwrite base bs := by
  have hmid : ∀ c ∈ Memory.cells base bs, base ≤ c.1 ∧ c.1 < base + bs.length := fun c hc =>
    ⟨(Memory.mem_cells hc).1, (Memory.mem_cells hc).2.1⟩
  have h1 : (Memory.cells base bs).filter (fun c => decide (c.1 < base)) = [] := by
    rw [List.filter_eq_nil_iff]
    intro c hc
    have := hmid c hc
    simp
    omega
  have h2 : (Memory.cells base bs).filter (fun c => decide (base + bs.length ≤ c.1)) = [] := by
    rw [List.filter_eq_nil_iff]
    intro c hc
    have := hmid c hc
    simp
    omega
  have h3 : (m.filter (fun c => decide (base + bs.length ≤ c.1))).filter (fun c => decide (c.1 < base)) = [] := by
    rw [List.filter_eq_nil_iff]
    intro c hc
    have := (List.mem_filter.1 hc).2
    simp at this ⊢
    omega
  have h4 : (m.filter (fun c => decide (c.1 < base))).filter (fun c => decide (base + bs.length ≤ c.1)) = [] := by
    rw [List.filter_eq_nil_iff]
    intro c hc
    have := (List.mem_filter.1 hc).2
    simp at this ⊢
    omega
  unfold Memory.overwrite
  simp only [List.filter_append, h1, h2, h3, h4, List.filter_filter, Bool.and_self, List.append_nil, List.nil_append]

theorem Memory.fill_twice (m : Memory) (base len : Nat) (v : Byte) :
    (m.fill base len v).fill base len v = m.fill base len v := by
  rw [Memory.fill_eq_overwrite m, Memory.fill_eq_overwrite, Memory.overwrite_twice]

/-- Canonical memories that read the same at every address are equal data. -/
theorem Memory.ext_addr {m n : Memory} (hm : m.wf = true) (hn : n.wf = true)
    (h : ∀ a : Addr, m.read a.toNat = n.read a.toNat) : m = n :=
  Memory.ext_of_wf hm hn fun a ha => by
    have := h (BitVec.ofNat 16 a)
    rwa [BitVec.toNat_ofNat, Nat.mod_eq_of_lt (show a < 2 ^ 16 from ha)] at this

end Sys2Proof.Machine
end

