-- ==== Sys2Proof/Laws/Pages.lean ====
section
/-! SUPPORT. What the page table's operations do (spec 10_state.md R11, 41_page_table_overlay.md R100). -/

namespace Sys2Proof.Machine

theorem retag_getElem? (lo hi : Byte) (t : Tag) (p i : Nat) (tags : List Tag) :
    (retag lo hi t p tags)[i]? =
      tags[i]?.map fun old => if lo.toNat ≤ p + i ∧ p + i ≤ hi.toNat then t else old := by
  induction tags generalizing p i with
  | nil => rfl
  | cons old rest ih =>
    cases i with
    | zero => rfl
    | succ i =>
      rw [retag, List.getElem?_cons_succ, ih, List.getElem?_cons_succ, Nat.add_right_comm, Nat.add_assoc]

/-- THE SPEC OF A RETAGGING. -/
theorem PageTable.tag_setRange (pt : PageTable) (lo hi p : Byte) (t : Tag) :
    (pt.setRange lo hi t).tag p = if lo.toNat ≤ p.toNat ∧ p.toNat ≤ hi.toNat then t else pt.tag p := by
  have h := retag_getElem? lo hi t 0 p.toNat pt.toArray.toList
  have hp := p.isLt
  rw [List.getElem?_eq_getElem (by rw [retag_length]; simpa using hp),
    List.getElem?_eq_getElem (by simpa using hp), Nat.zero_add] at h
  exact Option.some.inj h

theorem PageTable.tag_set1 (pt : PageTable) (q p : Byte) (t : Tag) :
    (pt.set1 q t).tag p = if p = q then t else pt.tag p := by
  rw [PageTable.set1, PageTable.tag_setRange]
  by_cases h : p = q
  · simp [h]
  · have : p.toNat ≠ q.toNat := fun e => h (BitVec.eq_of_toNat_eq e)
    rw [if_neg (by omega), if_neg h]

/-- A page inside a list of ranges. -/
def inRanges (ranges : List (Byte × Byte)) (p : Nat) : Bool :=
  ranges.any fun r => decide (r.1.toNat ≤ p) && decide (p ≤ r.2.toNat)

theorem inRanges_cons (r : Byte × Byte) (rest : List (Byte × Byte)) (p : Nat) :
    inRanges (r :: rest) p = true ↔ (r.1.toNat ≤ p ∧ p ≤ r.2.toNat) ∨ inRanges rest p = true := by
  simp [inRanges]

theorem PageTable.setRanges_cons (pt : PageTable) (r : Byte × Byte) (rest : List (Byte × Byte)) (t : Tag) :
    pt.setRanges (r :: rest) t = (pt.setRange r.1 r.2 t).setRanges rest t := by
  rw [PageTable.setRanges, List.foldl_cons, ← PageTable.setRanges]

/-- THE SPEC OF A LIST OF RETAGGINGS. -/
theorem PageTable.tag_setRanges (pt : PageTable) (ranges : List (Byte × Byte)) (p : Byte) (t : Tag) :
    (pt.setRanges ranges t).tag p = if inRanges ranges p.toNat then t else pt.tag p := by
  induction ranges generalizing pt with
  | nil => simp [PageTable.setRanges, inRanges]
  | cons r rest ih =>
    rw [PageTable.setRanges_cons, ih, PageTable.tag_setRange]
    have hc := inRanges_cons r rest p.toNat
    by_cases h1 : inRanges rest p.toNat = true
    · rw [if_pos h1, if_pos (hc.2 (Or.inr h1))]
    · rw [if_neg h1]
      by_cases h2 : r.1.toNat ≤ p.toNat ∧ p.toNat ≤ r.2.toNat
      · rw [if_pos h2, if_pos (hc.2 (Or.inl h2))]
      · rw [if_neg h2, if_neg (fun h => (hc.1 h).elim h2 h1)]

/-- Two page tables with the same tags are equal data. -/
theorem PageTable.ext_tag {pt qt : PageTable} (h : ∀ p, pt.tag p = qt.tag p) : pt = qt := by
  apply Vector.ext
  intro i hi
  have := h (BitVec.ofNat 8 i)
  simpa [PageTable.tag, Nat.mod_eq_of_lt hi] using this

end Sys2Proof.Machine
end

