-- ==== Sys2Proof/Laws/State.lean ====
section
/-! SUPPORT. One lemma per field per shared operation of the state, each true by unfolding once: later proofs rewrite with these and never unfold a record update. -/

namespace Sys2Proof.Machine

/-! ### emit -/

@[simp] theorem emit_pt (s : State) (e : Signal) : (s.emit e).pt = s.pt := rfl
@[simp] theorem emit_mem (s : State) (e : Signal) : (s.emit e).mem = s.mem := rfl
@[simp] theorem emit_ctrl (s : State) (e : Signal) : (s.emit e).ctrl = s.ctrl := rfl
@[simp] theorem emit_mode (s : State) (e : Signal) : (s.emit e).mode = s.mode := rfl
@[simp] theorem emit_cart (s : State) (e : Signal) : (s.emit e).cart = s.cart := rfl
@[simp] theorem emit_bank (s : State) (e : Signal) : (s.emit e).bank = s.bank := rfl
@[simp] theorem emit_total (s : State) (e : Signal) : (s.emit e).total = s.total := rfl
@[simp] theorem emit_qsel0 (s : State) (e : Signal) : (s.emit e).qsel0 = s.qsel0 := rfl
@[simp] theorem emit_qsel1 (s : State) (e : Signal) : (s.emit e).qsel1 = s.qsel1 := rfl
@[simp] theorem emit_esc (s : State) (e : Signal) : (s.emit e).esc = s.esc := rfl
@[simp] theorem emit_crashed (s : State) (e : Signal) : (s.emit e).crashed = s.crashed := rfl
@[simp] theorem emit_cfg (s : State) (e : Signal) : (s.emit e).cfg = s.cfg := rfl
@[simp] theorem emit_requests (s : State) (e : Signal) : (s.emit e).requests = s.requests := rfl
@[simp] theorem emit_result (s : State) (e : Signal) : (s.emit e).result = s.result := rfl
@[simp] theorem emit_outputs (s : State) (e : Signal) : (s.emit e).outputs = s.outputs ++ [e] := rfl
@[simp] theorem emit_history (s : State) (e : Signal) : (s.emit e).history = e :: s.history := rfl

/-! ### opened -/

@[simp] theorem opened_pt (s : State) : s.opened.pt = s.pt := rfl
@[simp] theorem opened_mem (s : State) : s.opened.mem = s.mem := rfl
@[simp] theorem opened_ctrl (s : State) : s.opened.ctrl = s.ctrl := rfl
@[simp] theorem opened_mode (s : State) : s.opened.mode = s.mode := rfl
@[simp] theorem opened_cart (s : State) : s.opened.cart = s.cart := rfl
@[simp] theorem opened_bank (s : State) : s.opened.bank = s.bank := rfl
@[simp] theorem opened_total (s : State) : s.opened.total = s.total := rfl
@[simp] theorem opened_qsel0 (s : State) : s.opened.qsel0 = s.qsel0 := rfl
@[simp] theorem opened_qsel1 (s : State) : s.opened.qsel1 = s.qsel1 := rfl
@[simp] theorem opened_esc (s : State) : s.opened.esc = s.esc := rfl
@[simp] theorem opened_crashed (s : State) : s.opened.crashed = s.crashed := rfl
@[simp] theorem opened_cfg (s : State) : s.opened.cfg = s.cfg := rfl
@[simp] theorem opened_requests (s : State) : s.opened.requests = s.requests := rfl
@[simp] theorem opened_result (s : State) : s.opened.result = s.result := rfl
@[simp] theorem opened_outputs (s : State) : s.opened.outputs = [] := rfl
@[simp] theorem opened_history (s : State) : s.opened.history = s.history := rfl

/-! ### refuse -/

@[simp] theorem refuse_pt (s : State) (r : Reason) : (s.refuse r).pt = s.pt := rfl
@[simp] theorem refuse_mem (s : State) (r : Reason) : (s.refuse r).mem = s.mem := rfl
@[simp] theorem refuse_ctrl (s : State) (r : Reason) : (s.refuse r).ctrl = s.ctrl := rfl
@[simp] theorem refuse_mode (s : State) (r : Reason) : (s.refuse r).mode = s.mode := rfl
@[simp] theorem refuse_cart (s : State) (r : Reason) : (s.refuse r).cart = s.cart := rfl
@[simp] theorem refuse_bank (s : State) (r : Reason) : (s.refuse r).bank = s.bank := rfl
@[simp] theorem refuse_total (s : State) (r : Reason) : (s.refuse r).total = s.total := rfl
@[simp] theorem refuse_qsel0 (s : State) (r : Reason) : (s.refuse r).qsel0 = s.qsel0 := rfl
@[simp] theorem refuse_qsel1 (s : State) (r : Reason) : (s.refuse r).qsel1 = s.qsel1 := rfl
@[simp] theorem refuse_esc (s : State) (r : Reason) : (s.refuse r).esc = s.esc := rfl
@[simp] theorem refuse_crashed (s : State) (r : Reason) : (s.refuse r).crashed = s.crashed := rfl
@[simp] theorem refuse_cfg (s : State) (r : Reason) : (s.refuse r).cfg = s.cfg := rfl
@[simp] theorem refuse_requests (s : State) (r : Reason) : (s.refuse r).requests = s.requests := rfl
@[simp] theorem refuse_result (s : State) (r : Reason) : (s.refuse r).result = some (.refused r) := rfl
@[simp] theorem refuse_outputs (s : State) (r : Reason) : (s.refuse r).outputs = [] := rfl
@[simp] theorem refuse_history (s : State) (r : Reason) : (s.refuse r).history = s.history := rfl

/-! ### raiseCrash -/

@[simp] theorem raiseCrash_pt (s : State) : s.raiseCrash.pt = s.pt := rfl
@[simp] theorem raiseCrash_mem (s : State) : s.raiseCrash.mem = s.mem := rfl
@[simp] theorem raiseCrash_ctrl (s : State) : s.raiseCrash.ctrl = s.ctrl := rfl
@[simp] theorem raiseCrash_mode (s : State) : s.raiseCrash.mode = s.mode := rfl
@[simp] theorem raiseCrash_cart (s : State) : s.raiseCrash.cart = s.cart := rfl
@[simp] theorem raiseCrash_bank (s : State) : s.raiseCrash.bank = s.bank := rfl
@[simp] theorem raiseCrash_total (s : State) : s.raiseCrash.total = s.total := rfl
@[simp] theorem raiseCrash_qsel0 (s : State) : s.raiseCrash.qsel0 = s.qsel0 := rfl
@[simp] theorem raiseCrash_qsel1 (s : State) : s.raiseCrash.qsel1 = s.qsel1 := rfl
@[simp] theorem raiseCrash_esc (s : State) : s.raiseCrash.esc = s.esc := rfl
@[simp] theorem raiseCrash_crashed (s : State) : s.raiseCrash.crashed = true := rfl
@[simp] theorem raiseCrash_cfg (s : State) : s.raiseCrash.cfg = s.cfg := rfl
@[simp] theorem raiseCrash_requests (s : State) : s.raiseCrash.requests = s.requests := rfl
@[simp] theorem raiseCrash_result (s : State) : s.raiseCrash.result = s.result := rfl
@[simp] theorem raiseCrash_outputs (s : State) : s.raiseCrash.outputs = s.outputs ++ [.crash] := rfl
@[simp] theorem raiseCrash_history (s : State) : s.raiseCrash.history = .crash :: s.history := rfl

/-! ### overlayEnable -/

@[simp] theorem overlayEnable_pt (o : Overlay) (s : State) : (overlayEnable o s).pt = s.pt.setRanges o.ranges .rom := by
  simp only [overlayEnable]
@[simp] theorem overlayEnable_mem (o : Overlay) (s : State) : (overlayEnable o s).mem = copyRom o.ranges o.rom s.mem := by
  simp only [overlayEnable]
@[simp] theorem overlayEnable_ctrl (o : Overlay) (s : State) : (overlayEnable o s).ctrl = s.ctrl := rfl
@[simp] theorem overlayEnable_mode (o : Overlay) (s : State) : (overlayEnable o s).mode = s.mode := rfl
@[simp] theorem overlayEnable_cart (o : Overlay) (s : State) : (overlayEnable o s).cart = s.cart := rfl
@[simp] theorem overlayEnable_bank (o : Overlay) (s : State) : (overlayEnable o s).bank = s.bank := rfl
@[simp] theorem overlayEnable_total (o : Overlay) (s : State) : (overlayEnable o s).total = s.total := rfl
@[simp] theorem overlayEnable_qsel0 (o : Overlay) (s : State) : (overlayEnable o s).qsel0 = s.qsel0 := rfl
@[simp] theorem overlayEnable_qsel1 (o : Overlay) (s : State) : (overlayEnable o s).qsel1 = s.qsel1 := rfl
@[simp] theorem overlayEnable_esc (o : Overlay) (s : State) : (overlayEnable o s).esc = s.esc := rfl
@[simp] theorem overlayEnable_crashed (o : Overlay) (s : State) : (overlayEnable o s).crashed = s.crashed := rfl
@[simp] theorem overlayEnable_cfg (o : Overlay) (s : State) : (overlayEnable o s).cfg = s.cfg := rfl
@[simp] theorem overlayEnable_requests (o : Overlay) (s : State) : (overlayEnable o s).requests = s.requests := rfl
@[simp] theorem overlayEnable_result (o : Overlay) (s : State) : (overlayEnable o s).result = s.result := rfl
@[simp] theorem overlayEnable_outputs (o : Overlay) (s : State) : (overlayEnable o s).outputs = s.outputs := rfl
@[simp] theorem overlayEnable_history (o : Overlay) (s : State) : (overlayEnable o s).history = s.history := rfl

/-! ### overlayDisable -/

@[simp] theorem overlayDisable_pt (o : Overlay) (s : State) : (overlayDisable o s).pt = s.pt.setRanges o.ranges .ram := by
  simp only [overlayDisable]
@[simp] theorem overlayDisable_mem (o : Overlay) (s : State) : (overlayDisable o s).mem = fillFloat o.ranges s.mem := by
  simp only [overlayDisable]
@[simp] theorem overlayDisable_ctrl (o : Overlay) (s : State) : (overlayDisable o s).ctrl = s.ctrl := rfl
@[simp] theorem overlayDisable_mode (o : Overlay) (s : State) : (overlayDisable o s).mode = s.mode := rfl
@[simp] theorem overlayDisable_cart (o : Overlay) (s : State) : (overlayDisable o s).cart = s.cart := rfl
@[simp] theorem overlayDisable_bank (o : Overlay) (s : State) : (overlayDisable o s).bank = s.bank := rfl
@[simp] theorem overlayDisable_total (o : Overlay) (s : State) : (overlayDisable o s).total = s.total := rfl
@[simp] theorem overlayDisable_qsel0 (o : Overlay) (s : State) : (overlayDisable o s).qsel0 = s.qsel0 := rfl
@[simp] theorem overlayDisable_qsel1 (o : Overlay) (s : State) : (overlayDisable o s).qsel1 = s.qsel1 := rfl
@[simp] theorem overlayDisable_esc (o : Overlay) (s : State) : (overlayDisable o s).esc = s.esc := rfl
@[simp] theorem overlayDisable_crashed (o : Overlay) (s : State) : (overlayDisable o s).crashed = s.crashed := rfl
@[simp] theorem overlayDisable_cfg (o : Overlay) (s : State) : (overlayDisable o s).cfg = s.cfg := rfl
@[simp] theorem overlayDisable_requests (o : Overlay) (s : State) : (overlayDisable o s).requests = s.requests := rfl
@[simp] theorem overlayDisable_result (o : Overlay) (s : State) : (overlayDisable o s).result = s.result := rfl
@[simp] theorem overlayDisable_outputs (o : Overlay) (s : State) : (overlayDisable o s).outputs = s.outputs := rfl
@[simp] theorem overlayDisable_history (o : Overlay) (s : State) : (overlayDisable o s).history = s.history := rfl

/-! ### copyBank -/

@[simp] theorem copyBank_pt (c : Cartridge) (b : Nat) (s : State) : (copyBank c b s).pt = s.pt := rfl
@[simp] theorem copyBank_mem (c : Cartridge) (b : Nat) (s : State) :
    (copyBank c b s).mem = s.mem.overwrite (winBase s.cfg) (imageSlice c.img (b * bankSize) bankSize) := by
  simp only [copyBank]

@[simp] theorem copyBank_ctrl (c : Cartridge) (b : Nat) (s : State) : (copyBank c b s).ctrl = s.ctrl := rfl
@[simp] theorem copyBank_mode (c : Cartridge) (b : Nat) (s : State) : (copyBank c b s).mode = s.mode := rfl
@[simp] theorem copyBank_cart (c : Cartridge) (b : Nat) (s : State) : (copyBank c b s).cart = s.cart := rfl
@[simp] theorem copyBank_bank (c : Cartridge) (b : Nat) (s : State) : (copyBank c b s).bank = b := rfl
@[simp] theorem copyBank_total (c : Cartridge) (b : Nat) (s : State) : (copyBank c b s).total = s.total := rfl
@[simp] theorem copyBank_qsel0 (c : Cartridge) (b : Nat) (s : State) : (copyBank c b s).qsel0 = s.qsel0 := rfl
@[simp] theorem copyBank_qsel1 (c : Cartridge) (b : Nat) (s : State) : (copyBank c b s).qsel1 = s.qsel1 := rfl
@[simp] theorem copyBank_esc (c : Cartridge) (b : Nat) (s : State) : (copyBank c b s).esc = s.esc := rfl
@[simp] theorem copyBank_crashed (c : Cartridge) (b : Nat) (s : State) : (copyBank c b s).crashed = s.crashed := rfl
@[simp] theorem copyBank_cfg (c : Cartridge) (b : Nat) (s : State) : (copyBank c b s).cfg = s.cfg := rfl
@[simp] theorem copyBank_requests (c : Cartridge) (b : Nat) (s : State) : (copyBank c b s).requests = s.requests := rfl
@[simp] theorem copyBank_result (c : Cartridge) (b : Nat) (s : State) : (copyBank c b s).result = s.result := rfl
@[simp] theorem copyBank_outputs (c : Cartridge) (b : Nat) (s : State) : (copyBank c b s).outputs = s.outputs := rfl
@[simp] theorem copyBank_history (c : Cartridge) (b : Nat) (s : State) : (copyBank c b s).history = s.history := rfl

/-! ### copySlice -/

@[simp] theorem copySlice_pt (c : Cartridge) (r : Fin 2) (k : BitVec 2) (s : State) : (copySlice c r k s).pt = s.pt := rfl
@[simp] theorem copySlice_mem (c : Cartridge) (r : Fin 2) (k : BitVec 2) (s : State) :
    (copySlice c r k s).mem = s.mem.overwrite (regionBase r) (imageSlice c.img (sliceOffset s.cfg c.cls r k) sliceSize) := by
  simp only [copySlice]

@[simp] theorem copySlice_ctrl (c : Cartridge) (r : Fin 2) (k : BitVec 2) (s : State) : (copySlice c r k s).ctrl = s.ctrl := rfl
@[simp] theorem copySlice_mode (c : Cartridge) (r : Fin 2) (k : BitVec 2) (s : State) : (copySlice c r k s).mode = s.mode := rfl
@[simp] theorem copySlice_cart (c : Cartridge) (r : Fin 2) (k : BitVec 2) (s : State) : (copySlice c r k s).cart = s.cart := rfl
@[simp] theorem copySlice_bank (c : Cartridge) (r : Fin 2) (k : BitVec 2) (s : State) : (copySlice c r k s).bank = s.bank := rfl
@[simp] theorem copySlice_total (c : Cartridge) (r : Fin 2) (k : BitVec 2) (s : State) : (copySlice c r k s).total = s.total := rfl
@[simp] theorem copySlice_qsel0 (c : Cartridge) (r : Fin 2) (k : BitVec 2) (s : State) : (copySlice c r k s).qsel0 = if r = 0 then k else s.qsel0 := rfl
@[simp] theorem copySlice_qsel1 (c : Cartridge) (r : Fin 2) (k : BitVec 2) (s : State) : (copySlice c r k s).qsel1 = if r = 0 then s.qsel1 else k := rfl
@[simp] theorem copySlice_esc (c : Cartridge) (r : Fin 2) (k : BitVec 2) (s : State) : (copySlice c r k s).esc = s.esc := rfl
@[simp] theorem copySlice_crashed (c : Cartridge) (r : Fin 2) (k : BitVec 2) (s : State) : (copySlice c r k s).crashed = s.crashed := rfl
@[simp] theorem copySlice_cfg (c : Cartridge) (r : Fin 2) (k : BitVec 2) (s : State) : (copySlice c r k s).cfg = s.cfg := rfl
@[simp] theorem copySlice_requests (c : Cartridge) (r : Fin 2) (k : BitVec 2) (s : State) : (copySlice c r k s).requests = s.requests := rfl
@[simp] theorem copySlice_result (c : Cartridge) (r : Fin 2) (k : BitVec 2) (s : State) : (copySlice c r k s).result = s.result := rfl
@[simp] theorem copySlice_outputs (c : Cartridge) (r : Fin 2) (k : BitVec 2) (s : State) : (copySlice c r k s).outputs = s.outputs := rfl
@[simp] theorem copySlice_history (c : Cartridge) (r : Fin 2) (k : BitVec 2) (s : State) : (copySlice c r k s).history = s.history := rfl

/-! ### tagWindow -/

@[simp] theorem tagWindow_pt (c : Cartridge) (s : State) : (tagWindow c s).pt = windowTags s.cfg c.cls s.pt := by
  simp only [tagWindow]
@[simp] theorem tagWindow_mem (c : Cartridge) (s : State) : (tagWindow c s).mem = s.mem := rfl
@[simp] theorem tagWindow_ctrl (c : Cartridge) (s : State) : (tagWindow c s).ctrl = s.ctrl := rfl
@[simp] theorem tagWindow_mode (c : Cartridge) (s : State) : (tagWindow c s).mode = s.mode := rfl
@[simp] theorem tagWindow_cart (c : Cartridge) (s : State) : (tagWindow c s).cart = s.cart := rfl
@[simp] theorem tagWindow_bank (c : Cartridge) (s : State) : (tagWindow c s).bank = s.bank := rfl
@[simp] theorem tagWindow_total (c : Cartridge) (s : State) : (tagWindow c s).total = s.total := rfl
@[simp] theorem tagWindow_qsel0 (c : Cartridge) (s : State) : (tagWindow c s).qsel0 = s.qsel0 := rfl
@[simp] theorem tagWindow_qsel1 (c : Cartridge) (s : State) : (tagWindow c s).qsel1 = s.qsel1 := rfl
@[simp] theorem tagWindow_esc (c : Cartridge) (s : State) : (tagWindow c s).esc = s.esc := rfl
@[simp] theorem tagWindow_crashed (c : Cartridge) (s : State) : (tagWindow c s).crashed = s.crashed := rfl
@[simp] theorem tagWindow_cfg (c : Cartridge) (s : State) : (tagWindow c s).cfg = s.cfg := rfl
@[simp] theorem tagWindow_requests (c : Cartridge) (s : State) : (tagWindow c s).requests = s.requests := rfl
@[simp] theorem tagWindow_result (c : Cartridge) (s : State) : (tagWindow c s).result = s.result := rfl
@[simp] theorem tagWindow_outputs (c : Cartridge) (s : State) : (tagWindow c s).outputs = s.outputs := rfl
@[simp] theorem tagWindow_history (c : Cartridge) (s : State) : (tagWindow c s).history = s.history := rfl

/-! ### doRemove -/

@[simp] theorem doRemove_pt (s : State) : (doRemove s).pt = sealWindow s.cfg s.pt := by
  simp only [doRemove]
@[simp] theorem doRemove_mem (s : State) : (doRemove s).mem = clearWindow s.cfg s.mem := by
  simp only [doRemove]
@[simp] theorem doRemove_ctrl (s : State) : (doRemove s).ctrl = s.ctrl := by simp only [doRemove]
@[simp] theorem doRemove_mode (s : State) : (doRemove s).mode = s.mode := by simp only [doRemove]
@[simp] theorem doRemove_cart (s : State) : (doRemove s).cart = none := by simp only [doRemove]
@[simp] theorem doRemove_bank (s : State) : (doRemove s).bank = 0 := by simp only [doRemove]
@[simp] theorem doRemove_total (s : State) : (doRemove s).total = 1 := by simp only [doRemove]
@[simp] theorem doRemove_qsel0 (s : State) : (doRemove s).qsel0 = 0 := by simp only [doRemove]
@[simp] theorem doRemove_qsel1 (s : State) : (doRemove s).qsel1 = 0 := by simp only [doRemove]
@[simp] theorem doRemove_esc (s : State) : (doRemove s).esc = s.esc := by simp only [doRemove]
@[simp] theorem doRemove_crashed (s : State) : (doRemove s).crashed = s.crashed := by simp only [doRemove]
@[simp] theorem doRemove_cfg (s : State) : (doRemove s).cfg = s.cfg := by simp only [doRemove]
@[simp] theorem doRemove_requests (s : State) : (doRemove s).requests = s.requests := by simp only [doRemove]
@[simp] theorem doRemove_result (s : State) : (doRemove s).result = s.result := by simp only [doRemove]
@[simp] theorem doRemove_outputs (s : State) : (doRemove s).outputs = s.outputs := by simp only [doRemove]
@[simp] theorem doRemove_history (s : State) : (doRemove s).history = s.history := by simp only [doRemove]

/-! ### setSlot -/

@[simp] theorem setSlot_pt (s : State) (code : Byte) (slot : Slot) : (s.setSlot code slot).pt = s.pt := rfl
@[simp] theorem setSlot_mem (s : State) (code : Byte) (slot : Slot) : (s.setSlot code slot).mem = s.mem := rfl
@[simp] theorem setSlot_ctrl (s : State) (code : Byte) (slot : Slot) : (s.setSlot code slot).ctrl = s.ctrl := rfl
@[simp] theorem setSlot_mode (s : State) (code : Byte) (slot : Slot) : (s.setSlot code slot).mode = s.mode := rfl
@[simp] theorem setSlot_cart (s : State) (code : Byte) (slot : Slot) : (s.setSlot code slot).cart = s.cart := rfl
@[simp] theorem setSlot_bank (s : State) (code : Byte) (slot : Slot) : (s.setSlot code slot).bank = s.bank := rfl
@[simp] theorem setSlot_total (s : State) (code : Byte) (slot : Slot) : (s.setSlot code slot).total = s.total := rfl
@[simp] theorem setSlot_qsel0 (s : State) (code : Byte) (slot : Slot) : (s.setSlot code slot).qsel0 = s.qsel0 := rfl
@[simp] theorem setSlot_qsel1 (s : State) (code : Byte) (slot : Slot) : (s.setSlot code slot).qsel1 = s.qsel1 := rfl
@[simp] theorem setSlot_esc (s : State) (code : Byte) (slot : Slot) : (s.setSlot code slot).esc = s.esc.set code.toNat slot code.isLt := by
  simp only [State.setSlot]
@[simp] theorem setSlot_crashed (s : State) (code : Byte) (slot : Slot) : (s.setSlot code slot).crashed = s.crashed := rfl
@[simp] theorem setSlot_cfg (s : State) (code : Byte) (slot : Slot) : (s.setSlot code slot).cfg = s.cfg := rfl
@[simp] theorem setSlot_requests (s : State) (code : Byte) (slot : Slot) : (s.setSlot code slot).requests = s.requests := rfl
@[simp] theorem setSlot_result (s : State) (code : Byte) (slot : Slot) : (s.setSlot code slot).result = s.result := rfl
@[simp] theorem setSlot_outputs (s : State) (code : Byte) (slot : Slot) : (s.setSlot code slot).outputs = s.outputs := rfl
@[simp] theorem setSlot_history (s : State) (code : Byte) (slot : Slot) : (s.setSlot code slot).history = s.history := rfl

/-! ### poke -/

@[simp] theorem poke_pt (s : State) (a : Addr) (v : Byte) : (s.poke a v).pt = s.pt := rfl
@[simp] theorem poke_mem (s : State) (a : Addr) (v : Byte) : (s.poke a v).mem = s.mem.write a v := by
  simp only [State.poke]
@[simp] theorem poke_ctrl (s : State) (a : Addr) (v : Byte) : (s.poke a v).ctrl = s.ctrl := rfl
@[simp] theorem poke_mode (s : State) (a : Addr) (v : Byte) : (s.poke a v).mode = s.mode := rfl
@[simp] theorem poke_cart (s : State) (a : Addr) (v : Byte) : (s.poke a v).cart = s.cart := rfl
@[simp] theorem poke_bank (s : State) (a : Addr) (v : Byte) : (s.poke a v).bank = s.bank := rfl
@[simp] theorem poke_total (s : State) (a : Addr) (v : Byte) : (s.poke a v).total = s.total := rfl
@[simp] theorem poke_qsel0 (s : State) (a : Addr) (v : Byte) : (s.poke a v).qsel0 = s.qsel0 := rfl
@[simp] theorem poke_qsel1 (s : State) (a : Addr) (v : Byte) : (s.poke a v).qsel1 = s.qsel1 := rfl
@[simp] theorem poke_esc (s : State) (a : Addr) (v : Byte) : (s.poke a v).esc = s.esc := rfl
@[simp] theorem poke_crashed (s : State) (a : Addr) (v : Byte) : (s.poke a v).crashed = s.crashed := rfl
@[simp] theorem poke_cfg (s : State) (a : Addr) (v : Byte) : (s.poke a v).cfg = s.cfg := rfl
@[simp] theorem poke_requests (s : State) (a : Addr) (v : Byte) : (s.poke a v).requests = s.requests := rfl
@[simp] theorem poke_result (s : State) (a : Addr) (v : Byte) : (s.poke a v).result = s.result := rfl
@[simp] theorem poke_outputs (s : State) (a : Addr) (v : Byte) : (s.poke a v).outputs = s.outputs := rfl
@[simp] theorem poke_history (s : State) (a : Addr) (v : Byte) : (s.poke a v).history = s.history := rfl

/-! ### plantTrap -/

@[simp] theorem plantTrap_pt (a : Addr) (code : Byte) (h : Handler) (s : State) : (plantTrap a code h s).pt = s.pt := by
  simp only [plantTrap, State.poke, State.setSlot]
@[simp] theorem plantTrap_mem (a : Addr) (code : Byte) (h : Handler) (s : State) : (plantTrap a code h s).mem = (s.mem.write a s.cfg.escOp).write (a + 1) code := by
  simp only [plantTrap, State.poke, State.setSlot]
@[simp] theorem plantTrap_ctrl (a : Addr) (code : Byte) (h : Handler) (s : State) : (plantTrap a code h s).ctrl = s.ctrl := by
  simp only [plantTrap, State.poke, State.setSlot]
@[simp] theorem plantTrap_mode (a : Addr) (code : Byte) (h : Handler) (s : State) : (plantTrap a code h s).mode = s.mode := by
  simp only [plantTrap, State.poke, State.setSlot]
@[simp] theorem plantTrap_cart (a : Addr) (code : Byte) (h : Handler) (s : State) : (plantTrap a code h s).cart = s.cart := by
  simp only [plantTrap, State.poke, State.setSlot]
@[simp] theorem plantTrap_bank (a : Addr) (code : Byte) (h : Handler) (s : State) : (plantTrap a code h s).bank = s.bank := by
  simp only [plantTrap, State.poke, State.setSlot]
@[simp] theorem plantTrap_total (a : Addr) (code : Byte) (h : Handler) (s : State) : (plantTrap a code h s).total = s.total := by
  simp only [plantTrap, State.poke, State.setSlot]
@[simp] theorem plantTrap_qsel0 (a : Addr) (code : Byte) (h : Handler) (s : State) : (plantTrap a code h s).qsel0 = s.qsel0 := by
  simp only [plantTrap, State.poke, State.setSlot]
@[simp] theorem plantTrap_qsel1 (a : Addr) (code : Byte) (h : Handler) (s : State) : (plantTrap a code h s).qsel1 = s.qsel1 := by
  simp only [plantTrap, State.poke, State.setSlot]
@[simp] theorem plantTrap_esc (a : Addr) (code : Byte) (h : Handler) (s : State) : (plantTrap a code h s).esc = s.esc.set code.toNat ⟨true, a, h⟩ code.isLt := by
  simp only [plantTrap, State.poke, State.setSlot]
@[simp] theorem plantTrap_crashed (a : Addr) (code : Byte) (h : Handler) (s : State) : (plantTrap a code h s).crashed = s.crashed := by
  simp only [plantTrap, State.poke, State.setSlot]
@[simp] theorem plantTrap_cfg (a : Addr) (code : Byte) (h : Handler) (s : State) : (plantTrap a code h s).cfg = s.cfg := by
  simp only [plantTrap, State.poke, State.setSlot]
@[simp] theorem plantTrap_requests (a : Addr) (code : Byte) (h : Handler) (s : State) : (plantTrap a code h s).requests = s.requests := by
  simp only [plantTrap, State.poke, State.setSlot]
@[simp] theorem plantTrap_result (a : Addr) (code : Byte) (h : Handler) (s : State) : (plantTrap a code h s).result = s.result := by
  simp only [plantTrap, State.poke, State.setSlot]
@[simp] theorem plantTrap_outputs (a : Addr) (code : Byte) (h : Handler) (s : State) : (plantTrap a code h s).outputs = s.outputs := by
  simp only [plantTrap, State.poke, State.setSlot]
@[simp] theorem plantTrap_history (a : Addr) (code : Byte) (h : Handler) (s : State) : (plantTrap a code h s).history = s.history := by
  simp only [plantTrap, State.poke, State.setSlot]

/-! ### resetLines -/

@[simp] theorem resetLines_pt (s : State) : (resetLines s).pt = s.pt := by
  simp only [resetLines, State.emit]
@[simp] theorem resetLines_mem (s : State) : (resetLines s).mem = s.mem := by
  simp only [resetLines, State.emit]
@[simp] theorem resetLines_ctrl (s : State) : (resetLines s).ctrl = s.ctrl := by
  simp only [resetLines, State.emit]
@[simp] theorem resetLines_mode (s : State) : (resetLines s).mode = s.mode := by
  simp only [resetLines, State.emit]
@[simp] theorem resetLines_cart (s : State) : (resetLines s).cart = s.cart := by
  simp only [resetLines, State.emit]
@[simp] theorem resetLines_bank (s : State) : (resetLines s).bank = s.bank := by
  simp only [resetLines, State.emit]
@[simp] theorem resetLines_total (s : State) : (resetLines s).total = s.total := by
  simp only [resetLines, State.emit]
@[simp] theorem resetLines_qsel0 (s : State) : (resetLines s).qsel0 = s.qsel0 := by
  simp only [resetLines, State.emit]
@[simp] theorem resetLines_qsel1 (s : State) : (resetLines s).qsel1 = s.qsel1 := by
  simp only [resetLines, State.emit]
@[simp] theorem resetLines_esc (s : State) : (resetLines s).esc = s.esc := by
  simp only [resetLines, State.emit]
@[simp] theorem resetLines_crashed (s : State) : (resetLines s).crashed = s.crashed := by
  simp only [resetLines, State.emit]
@[simp] theorem resetLines_cfg (s : State) : (resetLines s).cfg = s.cfg := by
  simp only [resetLines, State.emit]
@[simp] theorem resetLines_requests (s : State) : (resetLines s).requests = s.requests := by
  simp only [resetLines, State.emit]
@[simp] theorem resetLines_result (s : State) : (resetLines s).result = s.result := by
  simp only [resetLines, State.emit]
@[simp] theorem resetLines_outputs (s : State) :
    (resetLines s).outputs = ((((s.outputs ++ [.chipReset .videoColor]) ++ [.chipReset .audioTimer]) ++ [.chipReset .peripheral])
      ++ [.chipReset .videoAddrgen]) ++ [.cpuReset] := by
  simp only [resetLines, State.emit]

@[simp] theorem resetLines_history (s : State) :
    (resetLines s).history = .cpuReset :: .chipReset .videoAddrgen :: .chipReset .peripheral :: .chipReset .audioTimer
      :: .chipReset .videoColor :: s.history := by
  simp only [resetLines, State.emit]


/-! ### the slot reader -/

/-- THE SPEC OF A SLOT WRITE (10 R18): the code's slot, and no other. -/
theorem slot_setSlot (s : State) (code c : Byte) (slot : Slot) :
    (s.setSlot code slot).slot c = if c = code then slot else s.slot c := by
  by_cases h : c = code
  · subst h
    simp [State.slot]
  · have : code.toNat ≠ c.toNat := fun e => h (BitVec.eq_of_toNat_eq e).symm
    simp [State.slot, h, Vector.getElem_set_ne, this]

end Sys2Proof.Machine
end

