-- ==== Sys2Proof/Laws/Ops.lean ====
section
/-! SUPPORT. One lemma per shared operation: everything it can do (spec 60_exceptions.md R191, 41_page_table_overlay.md R102, R105, 42_cartridge.md R125 to R130, 40_bus_access.md R80 to R84). -/

namespace Sys2Proof.Machine

theorem operate_running {s : State} (h : s.crashed = false) (body : State → Out) :
    operate s body = body s.opened := by
  rw [operate, h]
  rfl

theorem operate_crashed {s : State} (h : s.crashed = true) (body : State → Out) :
    operate s body = .next (s.refuse .machineCrashed) := by
  rw [operate, h]
  rfl

/-- An operation answers a next state only as its body does, or by the crash refusal. -/
theorem operate_next {s t : State} {body : State → Out} (h : operate s body = .next t) :
    (s.crashed = true ∧ t = s.refuse .machineCrashed) ∨ (s.crashed = false ∧ body s.opened = .next t) := by
  cases hc : s.crashed
  · rw [operate_running hc] at h
    exact Or.inr ⟨rfl, h⟩
  · rw [operate_crashed hc] at h
    cases h
    exact Or.inl ⟨rfl, rfl⟩

/-- One overlay's turn writes MEM and PT only. -/
theorem overlayEdge_frame (v : Byte) (k : OverlayId) (s : State) :
    ∃ mem pt, overlayEdge v k s = { s with mem := mem, pt := pt } := by
  simp only [overlayEdge]
  split
  · split
    · exact ⟨_, _, rfl⟩
    · exact ⟨_, _, rfl⟩
  · exact ⟨s.mem, s.pt, rfl⟩

/-- CtrlUpdate writes MEM, PT and CTRL only (41 R102). -/
theorem ctrlUpdate_frame (v : Byte) (s : State) :
    ∃ mem pt, ctrlUpdate v s = { s with mem := mem, pt := pt, ctrl := v } := by
  obtain ⟨m1, p1, h1⟩ := overlayEdge_frame v .os s
  obtain ⟨m2, p2, h2⟩ := overlayEdge_frame v .basic { s with mem := m1, pt := p1 }
  obtain ⟨m3, p3, h3⟩ := overlayEdge_frame v .selftest { s with mem := m2, pt := p2 }
  exact ⟨m3, p3, by rw [ctrlUpdate, h1, h2, h3]⟩

/-- CtrlSnoop: nothing away from CTRL_ADDR, CtrlUpdate at it (41 R104). -/
theorem ctrlSnoop_cases (addr : Addr) (val : Byte) (s : State) :
    (s.cfg.ctrlAddr = some addr ∧ ctrlSnoop addr val s = ctrlUpdate val s) ∨
      (s.cfg.ctrlAddr ≠ some addr ∧ ctrlSnoop addr val s = s) := by
  rw [ctrlSnoop]
  split
  · exact Or.inl ⟨‹_›, rfl⟩
  · exact Or.inr ⟨‹_›, rfl⟩

/-- CartTrigger: nothing, a bank copy of a SUPER cartridge, or a slice copy of a QUIRK cartridge (40 R84). -/
theorem cartTrigger_cases (addr : Addr) (s : State) :
    cartTrigger addr s = s ∨
      (∃ c b, s.cart = some c ∧ c.cls = .super ∧ pageOf addr = s.cfg.selPage
        ∧ selMatch s.cfg (nibbleOf addr) = some b ∧ cartTrigger addr s = copyBank c b.val s) ∨
      (∃ c r k, s.cart = some c ∧ isQuirk c.cls = true ∧ sliceTrigger addr = some (r, k)
        ∧ cartTrigger addr s = copySlice c r k s) := by
  unfold cartTrigger
  split
  · exact Or.inl rfl
  · rename_i c hc
    have slices (hq : isQuirk c.cls = true) : sliceAccess c addr s = s ∨
        ∃ r k, sliceTrigger addr = some (r, k) ∧ sliceAccess c addr s = copySlice c r k s := by
      unfold sliceAccess
      split
      · exact Or.inr ⟨_, _, ‹_›, rfl⟩
      · exact Or.inl rfl
    split
    · exact Or.inl rfl
    · rename_i hcls
      unfold bankTrigger
      split
      · rename_i hp
        split
        · rename_i b hb
          exact Or.inr (Or.inl ⟨c, b, hc, hcls, hp, hb, rfl⟩)
        · exact Or.inl rfl
      · exact Or.inl rfl
    · rename_i hcls
      have hq : isQuirk c.cls = true := by rw [hcls]; rfl
      rcases slices hq with h | ⟨r, k, ht, h⟩
      · exact Or.inl h
      · exact Or.inr (Or.inr ⟨c, r, k, hc, hq, ht, h⟩)
    · rename_i hcls
      have hq : isQuirk c.cls = true := by rw [hcls]; rfl
      rcases slices hq with h | ⟨r, k, ht, h⟩
      · exact Or.inl h
      · exact Or.inr (Or.inr ⟨c, r, k, hc, hq, ht, h⟩)

/-- A bus read leaves the state, emits one ChipGet, or runs the trigger (40 R80, R82). -/
theorem busRead_state (addr : Addr) (s : State) :
    (busRead addr s).2 = s ∨ (∃ ch, (busRead addr s).2 = s.emit (.chipGet ch addr)) ∨
      (busRead addr s).2 = cartTrigger addr s := by
  unfold busRead
  split
  · exact Or.inl rfl
  · exact Or.inl rfl
  · unfold hwRead
    split
    · exact Or.inr (Or.inl ⟨_, rfl⟩)
    · exact Or.inr (Or.inr rfl)
    · exact Or.inl rfl

/-- A bus write leaves the state, stores into a RAM page, gives a chip its byte and snoops, or runs the
trigger (40 R81, R82). -/
theorem busWrite_state (addr : Addr) (val : Byte) (s : State) :
    busWrite addr val s = s ∨
      (s.pt.tag (pageOf addr) = .ram ∧ busWrite addr val s = { s with mem := s.mem.write addr val }) ∨
      (s.pt.tag (pageOf addr) = .hardware ∧
        ∃ ch, busWrite addr val s = ctrlSnoop addr val (s.emit (.chipPut ch addr val))) ∨
      busWrite addr val s = cartTrigger addr s := by
  unfold busWrite
  split
  · exact Or.inr (Or.inl ⟨‹_›, rfl⟩)
  · exact Or.inl rfl
  · unfold hwWrite
    split
    · exact Or.inr (Or.inr (Or.inl ⟨‹_›, _, rfl⟩))
    · exact Or.inr (Or.inr (Or.inr rfl))
    · exact Or.inl rfl

/-- PowerUpMap writes BANK, the selectors and MEM only (42 R125). -/
theorem powerUpMap_frame (c : Cartridge) (s : State) :
    ∃ mem q0 q1, powerUpMap c s =
      { s with bank := powerUpBank s.cfg c.cls, qsel0 := q0, qsel1 := q1, mem := mem } := by
  simp only [powerUpMap]
  split
  · rename_i h
    exact ⟨_, s.qsel0, s.qsel1, by rw [h]; rfl⟩
  · rename_i h
    exact ⟨_, s.qsel0, s.qsel1, by rw [h]; rfl⟩
  · rename_i h
    exact ⟨_, 0, 0, by rw [h]; rfl⟩
  · rename_i h
    exact ⟨_, 0, 0, by rw [h]; rfl⟩

/-- The selectors after PowerUpMap: slice 0 for the paired-window classes, as they were for the others. -/
theorem powerUpMap_selectors (c : Cartridge) (s : State) :
    (powerUpMap c s).qsel0 = (if isQuirk c.cls then 0 else s.qsel0) ∧
      (powerUpMap c s).qsel1 = (if isQuirk c.cls then 0 else s.qsel1) := by
  simp only [powerUpMap]
  split <;> rename_i h <;> rw [h] <;> exact ⟨rfl, rfl⟩

end Sys2Proof.Machine
end

