-- ==== Sys2Proof/Laws/Operands.lean ====
section
/-! SUPPORT. What the address and page readers give, in numbers (spec 00_scope.md R8, 40_bus_access.md R82, R84). -/

namespace Sys2Proof.Machine

/-- `page(a)` as a number. -/
theorem pageOf_toNat (a : Addr) : (pageOf a).toNat = a.toNat / 256 := by
  have := a.isLt
  simp [pageOf, BitVec.extractLsb'_toNat, Nat.shiftRight_eq_div_pow]
  omega

theorem winFirstPage_toNat (cfg : Config) : (winFirstPage cfg).toNat = cfg.winLo.toNat / 256 :=
  pageOf_toNat cfg.winLo

theorem winLastPage_toNat (cfg : Config) : (winLastPage cfg).toNat = cfg.winHi.toNat / 256 :=
  pageOf_toNat cfg.winHi

/-- The chip rows of the dispatch table are those of `chipPages` (40 R82). -/
theorem chipOf_eq_some_iff (p : Byte) (ch : Chip) : chipOf p = some ch ↔ (p.toNat, ch) ∈ chipPages := by
  unfold chipOf
  split <;> rename_i h
  case h_8 x h1 h2 h3 h4 h5 h6 =>
    simp only [chipPages, List.mem_cons, List.not_mem_nil, Prod.mk.injEq, or_false]
    constructor
    · intro hn
      cases hn
    · rintro (⟨hp, -⟩ | ⟨hp, -⟩ | ⟨hp, -⟩ | ⟨hp, -⟩ | ⟨hp, -⟩ | ⟨hp, -⟩ | ⟨hp, -⟩)
      · exact absurd hp h1
      · exact absurd hp h2
      · exact absurd hp h3
      · exact absurd hp h4
      · exact absurd hp h5
      · exact absurd hp h6
      · exact absurd hp h
  all_goals
    rw [h]
    cases ch <;> decide

theorem chipOf_eq_none_iff (p : Byte) : chipOf p = none ↔ ∀ ch, (p.toNat, ch) ∉ chipPages := by
  constructor
  · intro h ch hc
    rw [← chipOf_eq_some_iff, h] at hc
    cases hc
  · intro h
    cases hp : chipOf p with
    | none => rfl
    | some ch => exact absurd ((chipOf_eq_some_iff p ch).1 hp) (h ch)

theorem isCartPage_iff (cfg : Config) (p : Byte) :
    isCartPage cfg p = true ↔ (p.toNat = 0xD5 ∨ p.toNat = 0x4F ∨ p.toNat = 0x5F ∨ p.toNat = cfg.selPage.toNat) := by
  simp [isCartPage, BitVec.toNat_eq, or_assoc]

/-- THE SPEC OF THE DISPATCH (40 R82): a chip page. -/
theorem target_chip {cfg : Config} {addr : Addr} {ch : Chip} (h : (addr.toNat / 256, ch) ∈ chipPages) :
    target cfg (pageOf addr) = .chip ch := by
  rw [← pageOf_toNat, ← chipOf_eq_some_iff] at h
  rw [target, h]

/-- THE SPEC OF THE DISPATCH (40 R82): a cartridge page. -/
theorem target_cartCtl {cfg : Config} {addr : Addr} (h : isCartridgePage cfg (addr.toNat / 256)) :
    target cfg (pageOf addr) = .cartCtl := by
  rw [← pageOf_toNat] at h
  rw [target, (chipOf_eq_none_iff _).2 h.2]
  exact if_pos ((isCartPage_iff cfg _).2 h.1)

/-- THE SPEC OF THE DISPATCH (40 R82, R85): a page with no target. -/
theorem target_nothing {cfg : Config} {addr : Addr} (hc : ∀ ch, (addr.toNat / 256, ch) ∉ chipPages)
    (h : ¬isCartridgePage cfg (addr.toNat / 256)) : target cfg (pageOf addr) = .nothing := by
  rw [← pageOf_toNat] at hc h
  rw [target, (chipOf_eq_none_iff _).2 hc]
  exact if_neg fun hp => h ⟨(isCartPage_iff cfg _).1 hp, hc⟩

theorem inWindow_iff (cfg : Config) (a : Nat) :
    inWindow cfg a = true ↔ cfg.winLo.toNat ≤ a ∧ a ≤ cfg.winHi.toNat := by
  simp [inWindow]

/-- The slice trigger answers k of region r exactly at `0x4FF6 + r*0x1000 + k` (40 R84, 42 R130). -/
theorem sliceTrigger_eq_some_iff (a : Addr) (r : Fin 2) (k : BitVec 2) :
    sliceTrigger a = some (r, k) ↔ a.toNat = 0x4FF6 + r.val * 0x1000 + k.toNat := by
  have hk := k.isLt
  unfold sliceTrigger
  split
  · rename_i h
    simp only [Option.some.injEq, Prod.mk.injEq]
    constructor
    · rintro ⟨rfl, rfl⟩
      simp
      omega
    · intro he
      have hr : r.val = 0 := by omega
      refine ⟨Fin.ext hr.symm, BitVec.eq_of_toNat_eq ?_⟩
      rw [hr] at he
      simp
      omega
  · split
    · rename_i h
      simp only [Option.some.injEq, Prod.mk.injEq]
      constructor
      · rintro ⟨rfl, rfl⟩
        simp
        omega
      · intro he
        have hr : r.val = 1 := by omega
        refine ⟨Fin.ext hr.symm, BitVec.eq_of_toNat_eq ?_⟩
        rw [hr] at he
        simp
        omega
    · simp only [reduceCtorEq, false_iff]
      have := r.isLt
      omega

theorem sliceTrigger_eq_none_iff (a : Addr) :
    sliceTrigger a = none ↔
      ¬(0x4FF6 ≤ a.toNat ∧ a.toNat ≤ 0x4FF9) ∧ ¬(0x5FF6 ≤ a.toNat ∧ a.toNat ≤ 0x5FF9) := by
  unfold sliceTrigger
  split
  · simp [*]
  · split <;> simp [*]

end Sys2Proof.Machine
end

