-- ==== Sys2Proof/Laws/Overlay.lean ====
section
/-! SUPPORT. What the overlay actions leave in MEM (spec 41_page_table_overlay.md R105), and the window's clearing and sealing (42_cartridge.md R125 to R127). -/

namespace Sys2Proof.Machine

@[simp] theorem romBytes_length (rom : List RomPage) : (romBytes rom).length = 256 * rom.length := by
  induction rom with
  | nil => rfl
  | cons p rest ih =>
    rw [romBytes, List.flatMap_cons, List.length_append, ← romBytes, ih]
    simp
    omega

theorem romBytes_append (x y : List RomPage) : romBytes (x ++ y) = romBytes x ++ romBytes y := by
  simp [romBytes]

/-- Byte i of a ROM is byte i mod 256 of its page i / 256. -/
theorem romBytes_getElem? (rom : List RomPage) (i : Nat) :
    (romBytes rom)[i]? = rom[i / 256]?.map (fun p => p[i % 256]'(Nat.mod_lt _ (by decide))) := by
  induction rom generalizing i with
  | nil => rfl
  | cons p rest ih =>
    rw [romBytes, List.flatMap_cons, ← romBytes, List.getElem?_append]
    by_cases h : i < 256
    · rw [if_pos (by simpa using h), Nat.div_eq_of_lt h]
      simp [Nat.mod_eq_of_lt h, h]
    · obtain ⟨j, rfl⟩ : ∃ j, i = j + 256 := ⟨i - 256, by omega⟩
      rw [if_neg (by simp), Vector.length_toList, Nat.add_sub_cancel, ih, Nat.add_div_right _ (by decide)]
      simp

/-- The first pages' bytes are the first bytes. -/
theorem romBytes_take_getElem? (rom : List RomPage) (n i : Nat) (hi : i < 256 * n) (hn : n ≤ rom.length) :
    (romBytes (rom.take n))[i]? = (romBytes rom)[i]? := by
  conv_rhs => rw [← List.take_append_drop n rom, romBytes_append]
  rw [List.getElem?_append_left]
  rw [romBytes_length, List.length_take]
  omega

/-- The pages of a list of ranges (41 R103). -/
def pageCount (ranges : List (Byte × Byte)) : Nat := (ranges.map rangePages).sum

/-- THE SPEC OF THE ROM COPY (41 R105). -/
theorem read_copyRom (ranges : List (Byte × Byte)) (rom : List RomPage) (m : Memory) (a : Nat)
    (ha : a < addrCount) (ho : ∀ r ∈ ranges, r.1.toNat ≤ r.2.toNat) (hl : pageCount ranges ≤ rom.length) :
    (copyRom ranges rom m).read a = (romAt ranges rom a).getD (m.read a) := by
  induction ranges generalizing rom m with
  | nil => rfl
  | cons r rest ih =>
    have hcount : pageCount (r :: rest) = rangePages r + pageCount rest := by simp [pageCount]
    have hr := ho r (List.mem_cons_self ..)
    have hn : rangePages r ≤ rom.length := by omega
    rw [copyRom, ih _ _ (fun q hq => ho q (List.mem_cons_of_mem _ hq)) (by rw [List.length_drop]; omega),
      Memory.read_overwrite _ _ _ _ ha, romBytes_length, List.length_take, Nat.min_eq_left hn, romAt]
    cases hrest : romAt rest (rom.drop (rangePages r)) a with
    | some b => rfl
    | none =>
      have e1 : rangeBase r = r.1.toNat * 256 := rfl
      have e2 : rangePages r = r.2.toNat + 1 - r.1.toNat := rfl
      simp only [Option.getD_none]
      by_cases hin : r.1.toNat * 256 ≤ a ∧ a ≤ r.2.toNat * 256 + 255
      · rw [if_pos (by omega), if_pos hin, List.getD_eq_getElem?_getD,
          romBytes_take_getElem? _ _ _ (by omega) hn, e1]
        have hb : a - r.1.toNat * 256 < (romBytes rom).length := by rw [romBytes_length]; omega
        have hsome := List.getElem?_eq_getElem hb
        change ((romBytes rom)[a - r.1.toNat * 256]?).getD _ = ((romBytes rom)[a - r.1.toNat * 256]?).getD _
        rw [hsome]
        rfl
      · rw [if_neg (by omega), if_neg hin]
        rfl

/-- An overlay's pages, in numbers. -/
theorem overlayCovers_iff (o : Overlay) (p : Byte) :
    overlayCovers o p = true ↔ inRanges o.ranges p.toNat = true := Iff.rfl

theorem inRanges_page (ranges : List (Byte × Byte)) (a : Addr) :
    inRanges ranges (pageOf a).toNat = true ↔
      ∃ r ∈ ranges, r.1.toNat * 256 ≤ a.toNat ∧ a.toNat ≤ r.2.toNat * 256 + 255 := by
  simp only [inRanges, List.any_eq_true, Bool.and_eq_true, decide_eq_true_eq, pageOf_toNat]
  constructor
  · rintro ⟨r, hr, h1, h2⟩
    exact ⟨r, hr, by omega, by omega⟩
  · rintro ⟨r, hr, h1, h2⟩
    exact ⟨r, hr, by omega, by omega⟩

/-- Away from the ranges the ROM copy gives no byte. -/
theorem romAt_outside (ranges : List (Byte × Byte)) (rom : List RomPage) (a : Addr)
    (h : inRanges ranges (pageOf a).toNat = false) : romAt ranges rom a.toNat = none := by
  induction ranges generalizing rom with
  | nil => rfl
  | cons r rest ih =>
    have hc := inRanges_cons r rest (pageOf a).toNat
    have h1 : ¬(r.1.toNat ≤ (pageOf a).toNat ∧ (pageOf a).toNat ≤ r.2.toNat) := fun x => by
      rw [hc.2 (Or.inl x)] at h
      cases h
    have h2 : inRanges rest (pageOf a).toNat = false := by
      cases hx : inRanges rest (pageOf a).toNat
      · rfl
      · rw [hc.2 (Or.inr hx)] at h
        cases h
    rw [romAt, ih _ h2]
    rw [pageOf_toNat] at h1
    rw [if_neg (by omega)]

/-- THE SPEC OF THE FLOATING FILL (41 R105). -/
theorem read_fillFloat (ranges : List (Byte × Byte)) (m : Memory) (a : Addr)
    (ho : ∀ r ∈ ranges, r.1.toNat ≤ r.2.toNat) :
    (fillFloat ranges m).read a.toNat =
      if inRanges ranges (pageOf a).toNat then floatByte else m.read a.toNat := by
  induction ranges generalizing m with
  | nil => rfl
  | cons r rest ih =>
    have hr := ho r (List.mem_cons_self ..)
    have hstep : fillFloat (r :: rest) m =
        fillFloat rest (m.fill (rangeBase r) (rangePages r * 256) floatByte) := rfl
    have hc := inRanges_cons r rest (pageOf a).toNat
    have hp := pageOf_toNat a
    have e1 : rangeBase r = r.1.toNat * 256 := rfl
    have e2 : rangePages r = r.2.toNat + 1 - r.1.toNat := rfl
    rw [hstep, ih _ (fun q hq => ho q (List.mem_cons_of_mem _ hq)), Memory.read_fill _ _ _ _ _ a.isLt]
    by_cases h1 : inRanges rest (pageOf a).toNat = true
    · rw [if_pos h1, if_pos (hc.2 (Or.inr h1))]
    · rw [if_neg h1]
      by_cases h2 : r.1.toNat ≤ (pageOf a).toNat ∧ (pageOf a).toNat ≤ r.2.toNat
      · rw [if_pos (by omega), if_pos (hc.2 (Or.inl h2))]
      · rw [if_neg (by omega), if_neg (fun h => (hc.1 h).elim h2 h1)]

/-- Both overlay actions keep MEM's canonical form. -/
theorem wf_copyRom {m : Memory} (h : m.wf = true) (ranges : List (Byte × Byte)) (rom : List RomPage) :
    (copyRom ranges rom m).wf = true := by
  induction ranges generalizing rom m with
  | nil => exact h
  | cons r rest ih => exact ih (Memory.wf_overwrite h _ _) _

theorem wf_fillFloat {m : Memory} (h : m.wf = true) (ranges : List (Byte × Byte)) :
    (fillFloat ranges m).wf = true := by
  induction ranges generalizing m with
  | nil => exact h
  | cons r rest ih => exact ih (Memory.wf_fill h _ _ _)

theorem wf_clearWindow {m : Memory} (h : m.wf = true) (cfg : Config) : (clearWindow cfg m).wf = true :=
  Memory.wf_fill h _ _ _

/-- THE SPEC OF THE WINDOW'S CLEARING (42 R125, R127). -/
theorem read_clearWindow (cfg : Config) (m : Memory) (a : Addr) :
    (clearWindow cfg m).read a.toNat = if inWindow cfg a.toNat then 0x00 else m.read a.toNat := by
  have e1 : winBase cfg = cfg.winLo.toNat := rfl
  have e2 : winLen cfg = cfg.winHi.toNat + 1 - cfg.winLo.toNat := rfl
  rw [clearWindow, Memory.read_fill _ _ _ _ _ a.isLt]
  by_cases h : inWindow cfg a.toNat = true
  · have := (inWindow_iff _ _).1 h
    rw [if_pos h, if_pos (by omega)]
    rfl
  · have h' := mt (inWindow_iff _ _).2 h
    rw [if_neg h, if_neg (by omega)]

/-- THE SPEC OF THE WINDOW'S SEALING (42 R126, R127). -/
theorem tag_sealWindow (cfg : Config) (pt : PageTable) (p : Byte) :
    (sealWindow cfg pt).tag p =
      if (winFirstPage cfg).toNat ≤ p.toNat ∧ p.toNat ≤ (winLastPage cfg).toNat then .rom else pt.tag p :=
  PageTable.tag_setRange ..

/-- The page of a window address is a window page. -/
theorem page_of_window {cfg : Config} {a : Addr} (h : inWindow cfg a.toNat = true) :
    (winFirstPage cfg).toNat ≤ (pageOf a).toNat ∧ (pageOf a).toNat ≤ (winLastPage cfg).toNat := by
  have := (inWindow_iff _ _).1 h
  rw [winFirstPage_toNat, winLastPage_toNat, pageOf_toNat]
  exact ⟨Nat.div_le_div_right this.1, Nat.div_le_div_right this.2⟩

/-- The page of an address outside an aligned window is no window page (70 R215 item 1). -/
theorem page_outside_window {cfg : Config} {a : Addr} (hw : windowAligned cfg = true)
    (h : inWindow cfg a.toNat = false) :
    ¬((winFirstPage cfg).toNat ≤ (pageOf a).toNat ∧ (pageOf a).toNat ≤ (winLastPage cfg).toNat) := by
  have h' : ¬(cfg.winLo.toNat ≤ a.toNat ∧ a.toNat ≤ cfg.winHi.toNat) := fun x => by
    rw [(inWindow_iff _ _).2 x] at h
    cases h
  simp only [windowAligned, Bool.and_eq_true, beq_iff_eq, decide_eq_true_eq] at hw
  rw [winFirstPage_toNat, winLastPage_toNat, pageOf_toNat]
  omega

end Sys2Proof.Machine
end

