-- ==== Sys2Proof/Laws/Cart.lean ====
section
/-! SUPPORT. What the configuration's check gives (spec 70_reset_and_hazards.md R215, 42_cartridge.md R124), and what the cartridge copies and tags leave in MEM and PT (42_cartridge.md R125, R126, R128, R130). -/

namespace Sys2Proof.Machine

/-- The items of the configuration's check. -/
theorem configOk_iff (cfg : Config) : configOk cfg = true ↔
    windowAligned cfg = true ∧ windowHoldsRegions cfg = true ∧ windowFitsSuper cfg = true ∧
    selPageFree cfg = true ∧ typesOk cfg = true ∧ catalogOk cfg = true ∧ overlaysOk cfg = true ∧
    ctrlAddrOk cfg = true ∧ sizesOk cfg = true ∧ memInitOk cfg = true := by
  simp only [configOk, Bool.and_eq_true, and_assoc]

theorem windowAligned_of_configOk {cfg : Config} (h : configOk cfg = true) : windowAligned cfg = true :=
  ((configOk_iff cfg).1 h).1

/-- 70 R215 item 2, in numbers. -/
theorem regions_of_configOk {cfg : Config} (h : configOk cfg = true) :
    cfg.winLo.toNat ≤ 0x4000 ∧ 0x5FFF ≤ cfg.winHi.toNat := by
  simpa [windowHoldsRegions] using ((configOk_iff cfg).1 h).2.1

theorem selPageFree_of_configOk {cfg : Config} (h : configOk cfg = true) : chipOf cfg.selPage = none := by
  simpa [selPageFree] using ((configOk_iff cfg).1 h).2.2.2.1

/-- 70 R215 item 7 of one overlay, in numbers. -/
theorem overlayOk_iff (o : Overlay) : overlayOk o = true ↔
    (∀ r ∈ o.ranges, r.1.toNat ≤ r.2.toNat) ∧ o.rom.length = pageCount o.ranges := by
  simp [overlayOk, pageCount]

theorem overlaysOk_of_configOk {cfg : Config} (h : configOk cfg = true) :
    overlayOk cfg.ovlOs = true ∧ overlayOk cfg.ovlBasic = true ∧ overlayOk cfg.ovlSelftest = true := by
  simpa [overlaysOk, and_assoc] using ((configOk_iff cfg).1 h).2.2.2.2.2.2.1

/-- A type's row is one of the table's, or the empty FIXED row of a tag with none. -/
theorem typeRow_cases (cfg : Config) (t : Byte) :
    (typeRow cfg t ∈ cfg.types ∧ (typeRow cfg t).tag = t) ∨ typeRow cfg t = ⟨t, .fixed, 0, []⟩ := by
  unfold typeRow
  split
  · rename_i row h
    exact Or.inl ⟨List.mem_of_find?_eq_some h, by simpa using List.find?_some h⟩
  · exact Or.inr rfl

/-- A type's row obeys 42 R124 under a checked configuration. -/
theorem typeRowOk_of_configOk {cfg : Config} (h : configOk cfg = true) (t : Byte) :
    typeRowOk cfg (typeRow cfg t) = true ∨ typeRow cfg t = ⟨t, .fixed, 0, []⟩ := by
  rcases typeRow_cases cfg t with ⟨hm, -⟩ | he
  · exact Or.inl (List.all_eq_true.1 ((configOk_iff cfg).1 h).2.2.2.2.1 _ hm)
  · exact Or.inr he

theorem descriptorOk_iff (cfg : Config) (n : Nat) (d : Descriptor) : descriptorOk cfg n d = true ↔
    d.src + d.size ≤ n ∧ cfg.winLo.toNat ≤ d.dst ∧ d.dst + d.size ≤ cfg.winHi.toNat + 1 := by
  simp [descriptorOk, and_assoc]

/-- Every descriptor of a layout lies in the window. -/
def LayoutInWindow (cfg : Config) (layout : List Descriptor) : Prop :=
  ∀ d ∈ layout, cfg.winLo.toNat ≤ d.dst ∧ d.dst + d.size ≤ cfg.winHi.toNat + 1

/-- The layouts the power-up mapping of a class applies lie in the window (42 R124). -/
theorem layouts_in_window {cfg : Config} (h : configOk cfg = true) {c : Cartridge}
    (hc : c.cls = (typeRow cfg c.typeTag).cls) :
    (c.cls = .fixed → LayoutInWindow cfg (typeRow cfg c.typeTag).layout) ∧
      (c.cls = .quirkA → LayoutInWindow cfg cfg.qfixA) ∧ (c.cls = .quirkB → LayoutInWindow cfg cfg.qfixB) := by
  have hrow := typeRowOk_of_configOk h c.typeTag
  refine ⟨fun hk => ?_, fun hk => ?_, fun hk => ?_⟩
  · rcases hrow with hrow | hrow
    · rw [typeRowOk, ← hc, hk] at hrow
      exact fun d hd => ((descriptorOk_iff _ _ _).1 (List.all_eq_true.1 hrow d hd)).2
    · rw [hrow]
      exact fun d hd => by cases hd
  · rcases hrow with hrow | hrow
    · rw [typeRowOk, ← hc, hk] at hrow
      simp only [Bool.and_eq_true] at hrow
      exact fun d hd => ((descriptorOk_iff _ _ _).1 (List.all_eq_true.1 hrow.2 d hd)).2
    · rw [hrow] at hc
      rw [hc] at hk
      cases hk
  · rcases hrow with hrow | hrow
    · rw [typeRowOk, ← hc, hk] at hrow
      simp only [Bool.and_eq_true] at hrow
      exact fun d hd => ((descriptorOk_iff _ _ _).1 (List.all_eq_true.1 hrow.2 d hd)).2
    · rw [hrow] at hc
      rw [hc] at hk
      cases hk

/-- A descriptor covers an address (20 R45). -/
def covers (a : Nat) (d : Descriptor) : Bool := decide (d.dst ≤ a) && decide (a < d.dst + d.size)

/-- THE SPEC OF A LAYOUT (42 R125): the last descriptor covering an address decides its byte. -/
theorem read_applyLayout (img : List Byte) (layout : List Descriptor) (m : Memory) (a : Nat)
    (ha : a < addrCount) :
    (applyLayout img layout m).read a =
      match layout.reverse.find? (covers a) with
      | some d => imageByte img (d.src + (a - d.dst))
      | none => m.read a := by
  induction layout generalizing m with
  | nil => rfl
  | cons d ds ih =>
    have hstep : applyLayout img (d :: ds) m =
        applyLayout img ds (m.overwrite d.dst (imageSlice img d.src d.size)) := rfl
    rw [hstep, ih, List.reverse_cons, List.find?_append, Memory.read_overwrite_slice _ _ _ _ _ _ ha]
    cases hf : ds.reverse.find? (covers a) with
    | some e => rfl
    | none =>
      simp only [Option.none_or, List.find?_singleton]
      by_cases hd : d.dst ≤ a ∧ a < d.dst + d.size
      · rw [if_pos hd]
        have : covers a d = true := by simpa [covers] using hd
        simp [this]
      · rw [if_neg hd]
        have : covers a d = false := by simpa [covers] using hd
        simp [this]

/-- Away from the window a layout inside it changes nothing. -/
theorem find_covers_outside {cfg : Config} {layout : List Descriptor} (h : LayoutInWindow cfg layout) {a : Nat}
    (ha : inWindow cfg a = false) : layout.reverse.find? (covers a) = none := by
  rw [List.find?_eq_none]
  intro d hd hc
  have := h d (List.mem_reverse.1 hd)
  simp only [covers, Bool.and_eq_true, decide_eq_true_eq] at hc
  have hin : inWindow cfg a = true := (inWindow_iff _ _).2 ⟨by omega, by omega⟩
  rw [hin] at ha
  cases ha

/-- A layout over a cleared window shows `layoutByte` (20 R45, FIXED). -/
theorem read_layout_cleared {cfg : Config} {layout : List Descriptor} (h : LayoutInWindow cfg layout)
    (img : List Byte) (m : Memory) (a : Addr) :
    (applyLayout img layout (clearWindow cfg m)).read a.toNat =
      if inWindow cfg a.toNat then layoutByte img layout a.toNat else m.read a.toNat := by
  rw [read_applyLayout _ _ _ _ a.isLt, read_clearWindow]
  cases hin : inWindow cfg a.toNat
  · rw [find_covers_outside h hin]
    rfl
  · rfl

/-- THE SPEC OF THE POWER-UP MAPPING (42 R125): the window shows the lookup view at the power-up bank and
slices, every other byte is as before. -/
theorem read_powerUpMap {s : State} {c : Cartridge} (h : configOk s.cfg = true)
    (hc : c.cls = (typeRow s.cfg c.typeTag).cls) (hs : c.cls = .super → winLen s.cfg = 0x8000) (a : Addr) :
    (powerUpMap c s).mem.read a.toNat =
      if inWindow s.cfg a.toNat then viewOf s.cfg c (powerUpBank s.cfg c.cls) 0 0 a.toNat
      else s.mem.read a.toNat := by
  obtain ⟨hfix, hqa, hqb⟩ := layouts_in_window h hc
  have hreg := regions_of_configOk h
  have quirk (qfix : List Descriptor) (hl : LayoutInWindow s.cfg qfix) :
      (quirkMap c qfix { s with mem := clearWindow s.cfg s.mem }).mem.read a.toNat =
        if inWindow s.cfg a.toNat then quirkView s.cfg c qfix 0 0 a.toNat else s.mem.read a.toNat := by
    have e0 : regionBase 0 = 0x4000 := rfl
    have e1 : regionBase 1 = 0x5000 := rfl
    have e2 : sliceSize = 0x1000 := rfl
    rw [quirkMap, copySlice_mem, copySlice_mem, copySlice_cfg, Memory.read_overwrite_slice _ _ _ _ _ _ a.isLt,
      Memory.read_overwrite_slice _ _ _ _ _ _ a.isLt, e0, e1, e2, quirkView]
    by_cases h0 : 0x4000 ≤ a.toNat ∧ a.toNat ≤ 0x4FFF
    · rw [if_neg (by omega), if_pos (by omega), if_pos ((inWindow_iff _ _).2 (by omega)), if_pos h0]
    · by_cases h1 : 0x5000 ≤ a.toNat ∧ a.toNat ≤ 0x5FFF
      · rw [if_pos (by omega), if_pos ((inWindow_iff _ _).2 (by omega)), if_neg h0, if_pos h1]
      · rw [if_neg (by omega), if_neg (by omega), if_neg h0, if_neg h1]
        exact read_layout_cleared hl c.img s.mem a
  unfold powerUpMap viewOf
  cases hcls : c.cls with
  | fixed => exact read_layout_cleared (hfix hcls) c.img s.mem a
  | super =>
    have e1 : winBase s.cfg = s.cfg.winLo.toNat := rfl
    have e2 : winLen s.cfg = s.cfg.winHi.toNat + 1 - s.cfg.winLo.toNat := rfl
    have e3 : bankSize = 0x8000 := rfl
    have hlen := hs hcls
    have hread := Memory.read_overwrite_slice (clearWindow s.cfg s.mem) (winBase s.cfg) c.img
      (s.cfg.powerupBank.val * bankSize) bankSize a.toNat a.isLt
    refine hread.trans ?_
    rw [e1, e3]
    by_cases hin : inWindow s.cfg a.toNat = true
    · have := (inWindow_iff _ _).1 hin
      rw [if_pos hin, if_pos (by omega)]
      rfl
    · have := mt (inWindow_iff _ _).2 hin
      rw [if_neg hin, if_neg (by omega), read_clearWindow, if_neg hin]
  | quirkA => exact quirk _ (hqa hcls)
  | quirkB => exact quirk _ (hqb hcls)

/-- THE SPEC OF TAGWINDOW (42 R126). -/
theorem tag_windowTags (cfg : Config) (cls : CartClass) (pt : PageTable) (p : Byte) :
    (windowTags cfg cls pt).tag p = powerUpTag cfg cls p (pt.tag p) := by
  unfold windowTags powerUpTag
  cases cls
  · simp [isQuirk, tag_sealWindow]
  · simp [isQuirk, PageTable.tag_set1, tag_sealWindow]
  · simp only [PageTable.tag_set1, tag_sealWindow, isQuirk, reduceCtorEq, false_and, if_false, true_and]
    by_cases h1 : p = 0x5F
    · simp [h1]
    · by_cases h2 : p = 0x4F
      · simp [h2]
      · have hn : ¬(p = 0x4F ∨ p = 0x5F) := fun h => h.elim h2 h1
        rw [if_neg h1, if_neg h2, if_neg hn]
  · simp only [PageTable.tag_set1, tag_sealWindow, isQuirk, reduceCtorEq, false_and, if_false, true_and]
    by_cases h1 : p = 0x5F
    · simp [h1]
    · by_cases h2 : p = 0x4F
      · simp [h2]
      · have hn : ¬(p = 0x4F ∨ p = 0x5F) := fun h => h.elim h2 h1
        rw [if_neg h1, if_neg h2, if_neg hn]

/-- The power-up mapping keeps MEM's canonical form. -/
theorem wf_powerUpMap {s : State} (h : s.mem.wf = true) (c : Cartridge) : (powerUpMap c s).mem.wf = true := by
  have hclear := wf_clearWindow h s.cfg
  have quirk (qfix : List Descriptor) :
      (quirkMap c qfix { s with mem := clearWindow s.cfg s.mem }).mem.wf = true := by
    rw [quirkMap, copySlice_mem, copySlice_mem]
    exact Memory.wf_overwrite (Memory.wf_overwrite (Memory.wf_applyLayout hclear _ _) _ _) _ _
  unfold powerUpMap
  cases c.cls
  · exact Memory.wf_applyLayout hclear _ _
  · exact Memory.wf_overwrite hclear _ _
  · exact quirk _
  · exact quirk _

theorem clearWindow_twice (cfg : Config) (m : Memory) :
    clearWindow cfg (clearWindow cfg m) = clearWindow cfg m := Memory.fill_twice ..

theorem sealWindow_twice (cfg : Config) (pt : PageTable) : sealWindow cfg (sealWindow cfg pt) = sealWindow cfg pt := by
  apply PageTable.ext_tag
  intro p
  rw [tag_sealWindow, tag_sealWindow]
  split <;> rfl

/-- What DoRemove leaves when an operation of it finishes with `r` (42 R127). -/
theorem doRemove_finished (s : State) (r : Result) :
    { doRemove s.opened with result := some r } =
      { s with cart := none, bank := 0, total := 1, qsel0 := 0, qsel1 := 0, mem := clearWindow s.cfg s.mem,
               pt := sealWindow s.cfg s.pt, result := some r, outputs := [] } := by
  simp only [doRemove, State.opened]

/-- THE SPEC OF DOREMOVE (42 R127). -/
theorem noCartridgeAfter_doRemove (s : State) (r : Result) :
    NoCartridgeAfter s { doRemove s.opened with result := some r } := by
  rw [doRemove_finished]
  exact {
    cart := rfl
    bank := rfl
    total := rfl
    selectors := ⟨rfl, rfl⟩
    windowBytes := fun a ha => (read_clearWindow _ _ _).trans (if_pos ha)
    otherBytes := fun a ha => (read_clearWindow _ _ _).trans (if_neg (by rw [ha]; exact Bool.false_ne_true))
    windowTags := fun p h1 h2 => (tag_sealWindow _ _ _).trans (if_pos ⟨h1, h2⟩)
    otherTags := fun p h => (tag_sealWindow _ _ _).trans (if_neg h) }

end Sys2Proof.Machine
end

