-- ==== Sys2Proof/Laws/Config.lean ====
section
/-! SUPPORT. The configuration's check in the words of spec 70_reset_and_hazards.md R215 and 42_cartridge.md R124. -/

namespace Sys2Proof.Machine

theorem descriptorOk_iff_fits (cfg : Config) (n : Nat) (d : Descriptor) :
    descriptorOk cfg n d = true ↔ Fits cfg n d := descriptorOk_iff cfg n d

/-- A slice table's check, entry by entry (42 R124). -/
theorem slicesOk_iff (q : Vector (Vector Nat 4) 2) (n : Nat) :
    slicesOk q n = true ↔ ∀ (r : Fin 2) (k : Fin 4), q[r][k] + 0x1000 ≤ n := by
  simp only [slicesOk, List.all_eq_true, Vector.mem_toList_iff, decide_eq_true_eq]
  constructor
  · intro h r k
    exact h q[r] (Vector.getElem_mem _) _ (Vector.getElem_mem _)
  · intro h row hrow off hoff
    obtain ⟨i, hi, rfl⟩ := Vector.getElem_of_mem hrow
    obtain ⟨j, hj, rfl⟩ := Vector.getElem_of_mem hoff
    exact h ⟨i, hi⟩ ⟨j, hj⟩

/-- A type row's check is 42 R124, class by class. -/
theorem typeRowOk_iff (cfg : Config) (row : TypeRow) : typeRowOk cfg row = true ↔ TypeFits cfg row := by
  unfold typeRowOk TypeFits
  cases row.cls <;>
    simp [List.all_eq_true, descriptorOk_iff_fits, slicesOk_iff, superBanks, bankSize]

/-- An overlay's check is 70 R215 item 7. -/
theorem overlayOk_iff_fits (o : Overlay) : overlayOk o = true ↔ OverlayFits o := by
  have hl : (o.rom.flatMap fun p => p.toList).length = 256 * o.rom.length := romBytes_length o.rom
  rw [overlayOk_iff, OverlayFits, hl]
  refine and_congr_right fun _ => ?_
  rw [show pageCount o.ranges = (o.ranges.map fun r => r.2.toNat + 1 - r.1.toNat).sum from rfl]
  omega

/-- The chip pages of the dispatch table (40 R82), by number. -/
theorem chipOf_isSome_iff (a : Addr) : (chipOf (pageOf a)).isSome = true ↔ ∃ ch, (a.toNat / 256, ch) ∈ chipPages := by
  simp only [Option.isSome_iff_exists, chipOf_eq_some_iff, pageOf_toNat]

theorem chipOf_isNone_iff (p : Byte) :
    (chipOf p).isNone = true ↔ p.toNat ∉ [0xC0, 0xD0, 0xD2, 0xD3, 0xD4, 0xE8, 0xEB] := by
  revert p
  decide

/-- THE SPEC OF THE CONFIGURATION'S CHECK (70 R215, log 22). -/
theorem configOk_iff_wellFormed (cfg : Config) : configOk cfg = true ↔
    WellFormedConfig cfg ∧ (∀ e ∈ cfg.catalog, ∃ row ∈ cfg.types, row.tag = e.2.typeTag) ∧
      Memory.wf cfg.memInit = true := by
  have window : windowAligned cfg = true ↔ (cfg.winLo.toNat % 256 = 0 ∧ (cfg.winHi.toNat + 1) % 256 = 0)
      ∧ cfg.winLo.toNat ≤ cfg.winHi.toNat := by simp [windowAligned]
  have regions : windowHoldsRegions cfg = true ↔ cfg.winLo.toNat ≤ 0x4000 ∧ 0x5FFF ≤ cfg.winHi.toNat := by
    simp [windowHoldsRegions]
  have super : windowFitsSuper cfg = true ↔ ∀ e ∈ cfg.catalog, (typeRow cfg e.2.typeTag).cls = .super →
      cfg.winHi.toNat + 1 - cfg.winLo.toNat = 0x8000 := by
    simp [windowFitsSuper, entryClass, winLen, bankSize, List.all_eq_true, imp_iff_not_or]
  have sel : selPageFree cfg = true ↔ cfg.selPage.toNat ∉ [0xC0, 0xD0, 0xD2, 0xD3, 0xD4, 0xE8, 0xEB] := by
    rw [selPageFree, chipOf_isNone_iff]
  have types : typesOk cfg = true ↔ ∀ row ∈ cfg.types, TypeFits cfg row := by
    simp only [typesOk, List.all_eq_true, typeRowOk_iff]
  have catalog : catalogOk cfg = true ↔ ∀ e ∈ cfg.catalog, e.2.typeTag ≠ 0 ∧
      ∃ row ∈ cfg.types, row.tag = e.2.typeTag := by
    simp only [catalogOk, List.all_eq_true, Bool.and_eq_true, bne_iff_ne, List.any_eq_true, beq_iff_eq]
  have overlays : overlaysOk cfg = true ↔ ∀ o ∈ [cfg.ovlOs, cfg.ovlBasic, cfg.ovlSelftest], OverlayFits o := by
    simp [overlaysOk, overlayOk_iff_fits, and_assoc]
  have ctrl : ctrlAddrOk cfg = true ↔ ∀ a, cfg.ctrlAddr = some a → ∃ ch, (a.toNat / 256, ch) ∈ chipPages := by
    unfold ctrlAddrOk
    cases cfg.ctrlAddr with
    | none => simp
    | some a => simp [chipOf_isSome_iff]
  have sizes : sizesOk cfg = true ↔ 0x1000 ≤ cfg.maxCart ∧ ∀ row ∈ cfg.types, row.imgSize ≤ cfg.maxCart := by
    simp only [sizesOk, Bool.and_eq_true, List.all_eq_true, decide_eq_true_eq]
    rfl
  rw [configOk_iff, window, regions, super, sel, types, catalog, overlays, ctrl, sizes]
  constructor
  · rintro ⟨h1, h2, h3, h4, h5, h6, h7, h8, h9, h10⟩
    exact ⟨⟨⟨h1.1.1, h1.1.2, h1.2⟩, h2, h3, h4, h5, fun e he => (h6 e he).1, h7, h8, h9⟩,
      fun e he => (h6 e he).2, h10⟩
  · rintro ⟨h, hc, hm⟩
    exact ⟨⟨⟨h.window.1, h.window.2.1⟩, h.window.2.2⟩, h.regions, h.superWindow, h.selPage, h.types,
      fun e he => ⟨h.tags e he, hc e he⟩, h.overlays, h.ctrlAddr, h.sizes, hm⟩

end Sys2Proof.Machine
end

