-- ==== Sys2Proof/Laws/Control.lean ====
section
/-! SUPPORT. The overlay control latch: one overlay's turn and CtrlUpdate, byte by byte and tag by tag (spec 41_page_table_overlay.md R102, R104, R105). -/

namespace Sys2Proof.Machine

theorem edgeOn_iff (o : Overlay) (v latch : Byte) :
    edgeOn o v latch = true ↔ ¬v.getLsbD o.bit.val = latch.getLsbD o.bit.val := bne_iff_ne

theorem overlayOn_iff (o : Overlay) (v : Byte) : overlayOn o v = true ↔ v.getLsbD o.bit.val = o.level := beq_iff_eq

/-- No edge, no effect (41 R102). -/
theorem overlayEdge_same {v : Byte} {k : OverlayId} {s : State}
    (h : v.getLsbD (s.cfg.ovl k).bit.val = s.ctrl.getLsbD (s.cfg.ovl k).bit.val) : overlayEdge v k s = s :=
  if_neg (fun he => (edgeOn_iff _ _ _).1 he h)

/-- An edge to the level enables (41 R102). -/
theorem overlayEdge_on {v : Byte} {k : OverlayId} {s : State}
    (h : ¬v.getLsbD (s.cfg.ovl k).bit.val = s.ctrl.getLsbD (s.cfg.ovl k).bit.val)
    (hl : v.getLsbD (s.cfg.ovl k).bit.val = (s.cfg.ovl k).level) :
    overlayEdge v k s = overlayEnable (s.cfg.ovl k) s :=
  (if_pos ((edgeOn_iff _ _ _).2 h)).trans (if_pos ((overlayOn_iff _ _).2 hl))

/-- An edge from the level disables (41 R102). -/
theorem overlayEdge_off {v : Byte} {k : OverlayId} {s : State}
    (h : ¬v.getLsbD (s.cfg.ovl k).bit.val = s.ctrl.getLsbD (s.cfg.ovl k).bit.val)
    (hl : ¬v.getLsbD (s.cfg.ovl k).bit.val = (s.cfg.ovl k).level) :
    overlayEdge v k s = overlayDisable (s.cfg.ovl k) s :=
  (if_pos ((edgeOn_iff _ _ _).2 h)).trans (if_neg (fun he => hl ((overlayOn_iff _ _).1 he)))

/-- THE SPEC OF ONE OVERLAY'S TURN, bytes (41 R102, R105). -/
theorem read_overlayEdge (v : Byte) (k : OverlayId) (s : State) (ho : overlayOk (s.cfg.ovl k) = true) (a : Addr) :
    (overlayEdge v k s).mem.read a.toNat = overlayByte (s.cfg.ovl k) v s.ctrl a (s.mem.read a.toNat) := by
  rw [overlayOk_iff] at ho
  rw [overlayByte]
  by_cases h1 : v.getLsbD (s.cfg.ovl k).bit.val = s.ctrl.getLsbD (s.cfg.ovl k).bit.val
  · rw [overlayEdge_same h1, if_pos (Or.inl h1)]
  · by_cases h2 : v.getLsbD (s.cfg.ovl k).bit.val = (s.cfg.ovl k).level
    · rw [overlayEdge_on h1 h2, overlayEnable_mem, read_copyRom _ _ _ _ a.isLt ho.1 (by omega)]
      by_cases h3 : overlayCovers (s.cfg.ovl k) (pageOf a) = false
      · rw [if_pos (Or.inr h3), romAt_outside _ _ _ h3]
        rfl
      · rw [if_neg (by tauto), if_pos h2]
    · rw [overlayEdge_off h1 h2, overlayDisable_mem, read_fillFloat _ _ _ ho.1]
      by_cases h3 : overlayCovers (s.cfg.ovl k) (pageOf a) = false
      · rw [if_pos (Or.inr h3), if_neg (by rw [← overlayCovers_iff, h3]; simp)]
      · have hin := (overlayCovers_iff _ _).1 (Bool.eq_true_of_not_eq_false h3)
        have hn := not_or.2 ⟨h1, h3⟩
        rw [if_pos hin, if_neg hn, if_neg h2]
        rfl

/-- THE SPEC OF ONE OVERLAY'S TURN, tags (41 R102, R105). -/
theorem tag_overlayEdge (v : Byte) (k : OverlayId) (s : State) (p : Byte) :
    (overlayEdge v k s).pt.tag p = overlayTag (s.cfg.ovl k) v s.ctrl p (s.pt.tag p) := by
  rw [overlayTag]
  by_cases h1 : v.getLsbD (s.cfg.ovl k).bit.val = s.ctrl.getLsbD (s.cfg.ovl k).bit.val
  · rw [overlayEdge_same h1, if_pos (Or.inl h1)]
  · have hc := overlayCovers_iff (s.cfg.ovl k) p
    by_cases h2 : v.getLsbD (s.cfg.ovl k).bit.val = (s.cfg.ovl k).level
    · rw [overlayEdge_on h1 h2, overlayEnable_pt, PageTable.tag_setRanges]
      by_cases h3 : overlayCovers (s.cfg.ovl k) p = false
      · rw [if_pos (Or.inr h3), if_neg (by rw [← hc, h3]; simp)]
      · have hn := not_or.2 ⟨h1, h3⟩
        rw [if_pos (hc.1 (Bool.eq_true_of_not_eq_false h3)), if_neg hn, if_pos h2]
    · rw [overlayEdge_off h1 h2, overlayDisable_pt, PageTable.tag_setRanges]
      by_cases h3 : overlayCovers (s.cfg.ovl k) p = false
      · rw [if_pos (Or.inr h3), if_neg (by rw [← hc, h3]; simp)]
      · have hn := not_or.2 ⟨h1, h3⟩
        rw [if_pos (hc.1 (Bool.eq_true_of_not_eq_false h3)), if_neg hn, if_neg h2]

/-- THE SPEC OF CTRLUPDATE, bytes (41 R102). -/
theorem read_ctrlUpdate (v : Byte) (s : State) (hk : configOk s.cfg = true) (a : Addr) : (ctrlUpdate v s).mem.read a.toNat =
        overlayByte s.cfg.ovlSelftest v s.ctrl a
          (overlayByte s.cfg.ovlBasic v s.ctrl a
            (overlayByte s.cfg.ovlOs v s.ctrl a (s.mem.read a.toNat))) := by
  obtain ⟨h1, h2, h3⟩ := overlaysOk_of_configOk hk
  obtain ⟨m1, p1, e1⟩ := overlayEdge_frame v .os s
  obtain ⟨m2, p2, e2⟩ := overlayEdge_frame v .basic (overlayEdge v .os s)
  have c1 : (overlayEdge v .os s).cfg = s.cfg := by rw [e1]
  have c2 : (overlayEdge v .basic (overlayEdge v .os s)).cfg = s.cfg := by rw [e2, e1]
  have d1 : (overlayEdge v .os s).ctrl = s.ctrl := by rw [e1]
  have d2 : (overlayEdge v .basic (overlayEdge v .os s)).ctrl = s.ctrl := by rw [e2, e1]
  have := read_overlayEdge v .selftest (overlayEdge v .basic (overlayEdge v .os s)) (by rw [c2]; exact h3) a
  rw [read_overlayEdge v .basic _ (by rw [c1]; exact h2), read_overlayEdge v .os _ h1, c1, c2, d1, d2] at this
  exact this

/-- THE SPEC OF CTRLUPDATE, tags (41 R102). -/
theorem tag_ctrlUpdate (v : Byte) (s : State) (p : Byte) : (ctrlUpdate v s).pt.tag p =
        overlayTag s.cfg.ovlSelftest v s.ctrl p
          (overlayTag s.cfg.ovlBasic v s.ctrl p
            (overlayTag s.cfg.ovlOs v s.ctrl p (s.pt.tag p))) := by
  obtain ⟨m1, p1, e1⟩ := overlayEdge_frame v .os s
  obtain ⟨m2, p2, e2⟩ := overlayEdge_frame v .basic (overlayEdge v .os s)
  have c1 : (overlayEdge v .os s).cfg = s.cfg := by rw [e1]
  have c2 : (overlayEdge v .basic (overlayEdge v .os s)).cfg = s.cfg := by rw [e2, e1]
  have d1 : (overlayEdge v .os s).ctrl = s.ctrl := by rw [e1]
  have d2 : (overlayEdge v .basic (overlayEdge v .os s)).ctrl = s.ctrl := by rw [e2, e1]
  have := tag_overlayEdge v .selftest (overlayEdge v .basic (overlayEdge v .os s)) p
  rw [tag_overlayEdge v .basic _, tag_overlayEdge v .os _, c1, c2, d1, d2] at this
  exact this

/-- The edge detector compares with the latch's old value through all three turns (41 R102). -/
theorem ctrlUpdate_same (s : State) : ctrlUpdate s.ctrl s = s := by
  rw [ctrlUpdate, overlayEdge_same (k := .os) rfl, overlayEdge_same (k := .basic) rfl,
    overlayEdge_same (k := .selftest) rfl]

/-- CtrlUpdate neither reads nor keeps the emitted signals. -/
theorem ctrlUpdate_emit (v : Byte) (e : Signal) (s : State) :
    ctrlUpdate v (s.emit e) = (ctrlUpdate v s).emit e := by
  have turn (k : OverlayId) (x : State) : overlayEdge v k (x.emit e) = (overlayEdge v k x).emit e := by
    by_cases h1 : v.getLsbD (x.cfg.ovl k).bit.val = x.ctrl.getLsbD (x.cfg.ovl k).bit.val
    · rw [overlayEdge_same h1, overlayEdge_same (s := x.emit e) h1]
    · by_cases h2 : v.getLsbD (x.cfg.ovl k).bit.val = (x.cfg.ovl k).level
      · rw [overlayEdge_on h1 h2, overlayEdge_on (s := x.emit e) h1 h2]
        rfl
      · rw [overlayEdge_off h1 h2, overlayEdge_off (s := x.emit e) h1 h2]
        rfl
  rw [ctrlUpdate, turn, turn, turn, ctrlUpdate]
  rfl

/-- CtrlUpdate keeps MEM's canonical form. -/
theorem wf_overlayEdge {s : State} (h : s.mem.wf = true) (v : Byte) (k : OverlayId) :
    (overlayEdge v k s).mem.wf = true := by
  simp only [overlayEdge]
  split
  · split
    · rw [overlayEnable_mem]
      exact wf_copyRom h _ _
    · rw [overlayDisable_mem]
      exact wf_fillFloat h _
  · exact h

theorem wf_ctrlUpdate {s : State} (h : s.mem.wf = true) (v : Byte) : (ctrlUpdate v s).mem.wf = true :=
  wf_overlayEdge (wf_overlayEdge (wf_overlayEdge h v .os) v .basic) v .selftest

theorem wf_ctrlSnoop {s : State} (h : s.mem.wf = true) (addr : Addr) (v : Byte) :
    (ctrlSnoop addr v s).mem.wf = true := by
  rw [ctrlSnoop]
  split
  · exact wf_ctrlUpdate h v
  · exact h

end Sys2Proof.Machine
end

