-- ==== Sys2Proof/Laws/Decode.lean ====
section
/-! SUPPORT. The fields of a packed command word (spec 30_encoding.md R60 to R62), the disjointness of the opcode map's rows (R63) and the decoder's formats (R61). -/

namespace Sys2Proof

@[simp] theorem opField_packWord (op : Byte) (a : Addr) (b : Byte) : opField (packWord op a b) = op := by
  apply BitVec.eq_of_getLsbD_eq
  intro i hi
  simp only [opField, packWord, BitVec.getLsbD_extractLsb', BitVec.getLsbD_append]
  simp [hi, show ¬(24 + i < 8) by omega, show ¬(24 + i - 8 < 16) by omega,
    show 24 + i - 8 - 16 = i by omega]

@[simp] theorem aField_packWord (op : Byte) (a : Addr) (b : Byte) : aField (packWord op a b) = a := by
  apply BitVec.eq_of_getLsbD_eq
  intro i hi
  simp only [aField, packWord, BitVec.getLsbD_extractLsb', BitVec.getLsbD_append]
  simp [hi, show ¬(8 + i < 8) by omega, show 8 + i - 8 = i by omega]

@[simp] theorem bField_packWord (op : Byte) (a : Addr) (b : Byte) : bField (packWord op a b) = b := by
  apply BitVec.eq_of_getLsbD_eq
  intro i hi
  simp only [bField, packWord, BitVec.getLsbD_extractLsb', BitVec.getLsbD_append]
  simp [hi]

/-- A word is its three fields. -/
theorem packWord_fields (w : Word) : packWord (opField w) (aField w) (bField w) = w := by
  apply BitVec.eq_of_getLsbD_eq
  intro i hi
  simp only [opField, aField, bField, packWord, BitVec.getLsbD_extractLsb', BitVec.getLsbD_append]
  by_cases h8 : i < 8
  · simp [h8]
  · by_cases h24 : i - 8 < 16
    · simp [h8, h24, show 8 + (i - 8) = i by omega]
    · simp [h8, h24, show i - 8 - 16 < 8 by omega, show 24 + (i - 8 - 16) = i by omega]

theorem firstField_eq (w : Word) : firstField w = (aField w).extractLsb' 8 8 := by
  apply BitVec.eq_of_getLsbD_eq
  intro i hi
  simp [firstField, aField, hi, show 8 + i < 16 by omega,
    show 8 + (8 + i) = 16 + i by omega]

theorem lastField_eq (w : Word) : lastField w = (aField w).extractLsb' 0 8 := by
  apply BitVec.eq_of_getLsbD_eq
  intro i hi
  simp [lastField, aField, hi, show i < 16 by omega]

@[simp] theorem firstField_packWord (op f l b : Byte) : firstField (packWord op (f ++ l) b) = f := by
  rw [firstField_eq, aField_packWord]
  apply BitVec.eq_of_getLsbD_eq
  intro i hi
  rw [BitVec.getLsbD_extractLsb']
  have h := BitVec.getLsbD_append (x := f) (y := l) (i := 8 + i)
  rw [h]
  simp [hi]

@[simp] theorem lastField_packWord (op f l b : Byte) : lastField (packWord op (f ++ l) b) = l := by
  rw [lastField_eq, aField_packWord]
  apply BitVec.eq_of_getLsbD_eq
  intro i hi
  rw [BitVec.getLsbD_extractLsb']
  have h := BitVec.getLsbD_append (x := f) (y := l) (i := 0 + i)
  rw [h]
  simp [hi]

/-- SETATTR's operand A is its first page above its last page (30 R61). -/
theorem aField_pages (w : Word) : firstField w ++ lastField w = aField w := by
  rw [firstField_eq, lastField_eq]
  apply BitVec.eq_of_getLsbD_eq
  intro i hi
  simp only [BitVec.getLsbD_append, BitVec.getLsbD_extractLsb']
  by_cases h : i < 8
  · simp [h]
  · simp [h, show i - 8 < 8 by omega, show 8 + (i - 8) = i by omega]

/-- No word is selected by two rows of the opcode map (30 R63): on the bits both masks fix, the patterns differ. -/
theorem opcodeTable_rows_disjoint :
    opcodeTable.Pairwise (fun r q => r.pattern &&& q.mask ≠ q.pattern &&& r.mask) := by
  decide

/-- A row's pattern lies inside its mask (30 R63). -/
theorem opcodeTable_patterns_inside : ∀ r ∈ opcodeTable, r.pattern &&& r.mask = r.pattern := by
  decide

end Sys2Proof
end

