-- ==== Sys2Proof/Laws/Identify.lean ====
section
/-! SUPPORT. INSERT's checks in order (spec 42_cartridge.md R120 to R124, R132). -/

namespace Sys2Proof.Machine

/-- RawSizeOk as the rule writes it (42 R122). -/
theorem rawSizeOk_iff (cfg : Config) (size : Nat) : rawSizeOk cfg size = true ↔ AcceptedSize cfg size := by
  have e1 : minCart = 0x1000 := rfl
  have e2 : size40K = 0xA000 := rfl
  simp [rawSizeOk, AcceptedSize, isPowerOfTwo, e1, e2]
  constructor
  · rintro (h | ⟨⟨h, h1⟩, h2⟩)
    · exact Or.inl h
    · exact Or.inr ⟨⟨_, h⟩, h1, h2⟩
  · rintro (h | ⟨⟨n, h⟩, h1, h2⟩)
    · exact Or.inl h
    · refine Or.inr ⟨⟨?_, h1⟩, h2⟩
      rw [h, Nat.log2_two_pow]

/-- THE SPEC OF INSERT'S CHECKS (42 R132): too short, a rejected signature, or the size check and the catalog. -/
theorem identify_cases (cfg : Config) (bs : List Byte) (size : Nat) :
    (identify cfg (some bs) size = .error .cartCantOpen ∧ size < 0x1000) ∨
    (identify cfg (some bs) size = .error .cartBadFormat ∧ 0x1000 ≤ size ∧ (cfg.sigSavestate <+: bs.take size ∨ cfg.sigContainer <+: bs.take size)) ∨
    (0x1000 ≤ size ∧ ¬ (cfg.sigSavestate <+: bs.take size) ∧ ¬ (cfg.sigContainer <+: bs.take size) ∧ 
      identify cfg (some bs) size =
        if rawSizeOk cfg size = true then identifyImage cfg (bs.take size) size else .error .cartBadFormat) := by
  have e1 : minCart = 0x1000 := rfl
  unfold identify
  simp only [e1, List.isPrefixOf_iff_prefix]
  by_cases h1 : size < 0x1000
  · simp [h1]
  · by_cases h2 : cfg.sigSavestate <+: bs.take size
    · simp [h1, h2]; omega
    · by_cases h3 : cfg.sigContainer <+: bs.take size
      · simp [h1, h2, h3]; omega
      · right; right
        refine ⟨by omega, h2, h3, ?_⟩
        simp [h1, h2, h3]
        cases rawSizeOk cfg size <;> simp

/-- A catalog hit of the image's size is the cartridge (42 R120, R123, R124). -/
theorem identifyImage_eq_ok_iff (cfg : Config) (img : List Byte) (size : Nat) (c : Cartridge) :
    identifyImage cfg img size = .ok c ↔
      ∃ e, catalogEntry cfg (Config.fingerprint img) = some e ∧ size = (typeRow cfg e.typeTag).imgSize ∧
        c = makeCartridge cfg img size e := by
  unfold identifyImage
  split
  · simp [*]
  · rename_i e he
    rw [he]
    constructor
    · intro h
      split at h
      · cases h
        exact ⟨e, rfl, ‹_›, rfl⟩
      · cases h
    · rintro ⟨e', h1, h2, rfl⟩
      cases h1
      rw [if_pos h2]

/-- Every cartridge INSERT makes passed all its checks (42 R120, R132). -/
theorem identify_eq_ok {cfg : Config} {bytes : Option (List Byte)} {size : Nat} {c : Cartridge}
    (h : identify cfg bytes size = .ok c) :
    ∃ bs e, bytes = some bs ∧ catalogEntry cfg (Config.fingerprint (bs.take size)) = some e ∧
      size = (typeRow cfg e.typeTag).imgSize ∧ c = makeCartridge cfg (bs.take size) size e := by
  cases bytes with
  | none => cases h
  | some bs =>
    rcases identify_cases cfg bs size with ⟨hi, -⟩ | ⟨hi, -⟩ | ⟨-, -, -, hi⟩
    · rw [hi] at h
      cases h
    · rw [hi] at h
      cases h
    · rw [hi] at h
      split at h
      · obtain ⟨e, h1, h2, h3⟩ := (identifyImage_eq_ok_iff _ _ _ _).1 h
        exact ⟨bs, e, rfl, h1, h2, h3⟩
      · cases h

end Sys2Proof.Machine
end

