-- ==== Sys2Proof/Laws/Insert.lean ====
section
/-! SUPPORT. Activating a cartridge: the state INSERT finishes with (spec 42_cartridge.md R120, R125, R126). -/

namespace Sys2Proof.Machine

/-- PowerUpMap from cleared selectors: BANK, the selectors and MEM only (42 R125). -/
theorem powerUpMap_eq (c : Cartridge) (s : State) (h0 : s.qsel0 = 0) (h1 : s.qsel1 = 0) :
    powerUpMap c s =
      { s with bank := powerUpBank s.cfg c.cls, qsel0 := 0, qsel1 := 0, mem := (powerUpMap c s).mem } := by
  obtain ⟨a, b⟩ := powerUpMap_selectors c s
  rw [h0, ite_self] at a
  rw [h1, ite_self] at b
  obtain ⟨m, x, y, h⟩ := powerUpMap_frame c s
  rw [h] at a b ⊢
  simp only at a b
  rw [a, b]

/-- The state INSERT maps a catalog hit in (42 R120). -/
theorem removed_with_cart (c : Cartridge) (s : State) :
    ({ doRemove s.opened with cart := some c, total := totalOf c.cls } : State) =
      { s with cart := some c, bank := 0, total := totalOf c.cls, qsel0 := 0, qsel1 := 0,
               mem := clearWindow s.cfg s.mem, pt := sealWindow s.cfg s.pt, outputs := [] } := by
  simp only [doRemove, State.opened]

/-- The state INSERT finishes with on a catalog hit: every field but MEM and PT (42 R120). -/
theorem activate_removed (c : Cartridge) (s : State) :
    activate c (doRemove s.opened) =
      { s with cart := some c, bank := powerUpBank s.cfg c.cls, total := totalOf c.cls, qsel0 := 0, qsel1 := 0,
               mem := (activate c (doRemove s.opened)).mem, pt := windowTags s.cfg c.cls (sealWindow s.cfg s.pt),
               outputs := [] } := by
  have key : ∃ mem, activate c (doRemove s.opened) =
      { s with cart := some c, bank := powerUpBank s.cfg c.cls, total := totalOf c.cls, qsel0 := 0, qsel1 := 0,
               mem := mem, pt := windowTags s.cfg c.cls (sealWindow s.cfg s.pt), outputs := [] } := by
    unfold activate
    rw [removed_with_cart]
    exact ⟨_, by rw [powerUpMap_eq c _ rfl rfl, tagWindow]⟩
  obtain ⟨mem, h⟩ := key
  rw [h]

/-- The tag of a sealed page is TagWindow's whatever it was sealed from (42 R126, R127). -/
theorem powerUpTag_sealed (cfg : Config) (cls : CartClass) (p : Byte) (t : Tag) :
    powerUpTag cfg cls p (if (winFirstPage cfg).toNat ≤ p.toNat ∧ p.toNat ≤ (winLastPage cfg).toNat then .rom else t) =
      powerUpTag cfg cls p t := by
  unfold powerUpTag
  split
  · rfl
  · split
    · rfl
    · split <;> rfl

theorem powerUpTag_twice (cfg : Config) (cls : CartClass) (p : Byte) (t : Tag) :
    powerUpTag cfg cls p (powerUpTag cfg cls p t) = powerUpTag cfg cls p t := by
  unfold powerUpTag
  split
  · rfl
  · split
    · rfl
    · split <;> rfl

/-- THE TAGS OF A SUCCESSFUL INSERT (42 R126). -/
theorem tag_activate (c : Cartridge) (s : State) (p : Byte) :
    (activate c (doRemove s.opened)).pt.tag p = powerUpTag s.cfg c.cls p (s.pt.tag p) := by
  have hpt : (activate c (doRemove s.opened)).pt = windowTags s.cfg c.cls (sealWindow s.cfg s.pt) := by
    rw [activate_removed]
  rw [hpt, tag_windowTags, tag_sealWindow]
  exact powerUpTag_sealed _ _ _ _

/-- A SUPER type of the catalog has its 32KiB window (70 R215 item 3). -/
theorem winLen_of_catalogEntry {cfg : Config} (hk : configOk cfg = true) {fp : Fingerprint} {e : CatalogEntry}
    (h : catalogEntry cfg fp = some e) (hs : (typeRow cfg e.typeTag).cls = .super) : winLen cfg = 0x8000 := by
  have hall := ((configOk_iff cfg).1 hk).2.2.1
  simp only [windowFitsSuper, List.all_eq_true] at hall
  rw [catalogEntry, Option.map_eq_some_iff] at h
  obtain ⟨x, hx, rfl⟩ := h
  simpa [entryClass, hs, bankSize] using hall x (List.mem_of_find?_eq_some hx)

/-- The class facts of a cartridge that passed INSERT's checks (42 R124). -/
theorem cls_of_identify {cfg : Config} (hk : configOk cfg = true) {bytes : Option (List Byte)} {size : Nat}
    {c : Cartridge} (h : identify cfg bytes size = .ok c) :
    c.cls = (typeRow cfg c.typeTag).cls ∧ (c.cls = .super → winLen cfg = 0x8000) := by
  obtain ⟨bs, e, -, hcat, -, rfl⟩ := identify_eq_ok h
  exact ⟨rfl, fun h => winLen_of_catalogEntry hk hcat h⟩

/-- THE BYTES OF A SUCCESSFUL INSERT (42 R125): the lookup view in the window, no other byte changed. -/
theorem read_activate {s : State} (hk : configOk s.cfg = true) {c : Cartridge}
    (hc : c.cls = (typeRow s.cfg c.typeTag).cls) (hs : c.cls = .super → winLen s.cfg = 0x8000) (a : Addr) :
    (activate c (doRemove s.opened)).mem.read a.toNat =
      if inWindow s.cfg a.toNat then viewOf s.cfg c (powerUpBank s.cfg c.cls) 0 0 a.toNat
      else s.mem.read a.toNat := by
  rw [activate, tagWindow_mem, removed_with_cart]
  generalize hu : ({ s with cart := some c, bank := 0, total := totalOf c.cls, qsel0 := 0, qsel1 := 0,
                            mem := clearWindow s.cfg s.mem, pt := sealWindow s.cfg s.pt,
                            outputs := [] } : State) = u
  have hcfg : u.cfg = s.cfg := by rw [← hu]
  have hmem : u.mem = clearWindow s.cfg s.mem := by rw [← hu]
  rw [read_powerUpMap (by rw [hcfg]; exact hk) (by rw [hcfg]; exact hc) (by rw [hcfg]; exact hs), hcfg, hmem,
    read_clearWindow]
  split <;> rfl

theorem wf_doRemove {s : State} (h : s.mem.wf = true) : (doRemove s).mem.wf = true := by
  rw [doRemove_mem]
  exact wf_clearWindow h _

theorem wf_activate {s : State} (h : s.mem.wf = true) (c : Cartridge) : (activate c s).mem.wf = true := by
  rw [activate, tagWindow_mem]
  generalize hu : ({ s with cart := some c, total := totalOf c.cls } : State) = u
  exact wf_powerUpMap (by rw [← hu]; exact h) c

/-- A successful INSERT keeps MEM's canonical form. -/
theorem wf_activate_removed {s : State} (h : s.mem.wf = true) (c : Cartridge) :
    (activate c (doRemove s.opened)).mem.wf = true :=
  wf_activate (wf_doRemove (s := s.opened) h) c

/-- Everything a running INSERT can do (42 R120, R132): a failing check and the removed state, or the cartridge
and its mapping, or the broken precondition (log 12). -/
theorem execInsert_cases (bytes : Option (List Byte)) (size : Nat) {s : State} (hc : s.crashed = false) :
    (bufferHolds bytes size = false ∧ execInsert bytes size s = .fault .bufferShorterThanSize) ∨
    (bufferHolds bytes size = true ∧ ∃ r, identify s.cfg bytes size = .error r ∧
      execInsert bytes size s = .next
        { s with cart := none, bank := 0, total := 1, qsel0 := 0, qsel1 := 0, mem := clearWindow s.cfg s.mem,
                 pt := sealWindow s.cfg s.pt, result := some r, outputs := [] }) ∨
    (bufferHolds bytes size = true ∧ ∃ c, identify s.cfg bytes size = .ok c ∧
      execInsert bytes size s = .next
        { s with cart := some c, bank := powerUpBank s.cfg c.cls, total := totalOf c.cls, qsel0 := 0, qsel1 := 0,
                 mem := (activate c (doRemove s.opened)).mem, pt := (activate c (doRemove s.opened)).pt,
                 result := some .ok, outputs := [] }) := by
  have he : s.opened.cfg = s.cfg := rfl
  rw [execInsert, operate_running hc, he]
  cases hb : bufferHolds bytes size
  · exact Or.inl ⟨rfl, rfl⟩
  · rw [if_pos rfl]
    refine Or.inr ?_
    cases hi : identify s.cfg bytes size with
    | error r =>
      refine Or.inl ⟨rfl, r, rfl, ?_⟩
      rw [← doRemove_finished]
      rfl
    | ok c =>
      refine Or.inr ⟨rfl, c, rfl, ?_⟩
      have hpt : (activate c (doRemove s.opened)).pt = windowTags s.cfg c.cls (sealWindow s.cfg s.pt) := by
        rw [activate_removed]
      rw [hpt]
      change Host.Outcome.next { activate c (doRemove s.opened) with result := some .ok } = _
      generalize hm : (activate c (doRemove s.opened)).mem = mem
      have := activate_removed c s
      rw [hm] at this
      rw [this]

end Sys2Proof.Machine
end

