-- ==== Sys2Proof/Laws/Lifecycle.lean ====
section
/-! SUPPORT. The reset lines, the key-hold request, COLD's second step and the snapshot stream (spec 44_lifecycle_snapshot.md R170 to R175). -/

namespace Sys2Proof.Machine

/-- ResetLines emits the five signals in order and writes nothing else (44 R170). -/
theorem resetLines_eq (s : State) :
    resetLines s =
      { s with outputs := s.outputs ++ resetSignals, history := resetSignals.reverse ++ s.history } := by
  simp only [resetLines, State.emit, resetSignals, List.append_assoc, List.cons_append, List.nil_append,
    List.reverse_cons, List.reverse_nil]

/-- COLD's key-hold request emits at most one signal and writes nothing else (44 R171, R172). -/
theorem keyHoldRequest_eq (s : State) :
    keyHoldRequest s =
      { s with outputs := s.outputs ++ keyHoldSignals s, history := (keyHoldSignals s).reverse ++ s.history } := by
  unfold keyHoldRequest keyHoldSignals skipBasic bootTape
  cases s.mode.getLsbD 0 <;> cases s.mode.getLsbD 1 <;> simp [State.emit]

theorem remap_none {s : State} (h : s.cart = none) : remap s = s := by
  rw [remap, h]

/-- COLD's second step with a cartridge whose selectors are at 0 unless its class has slices: BANK, the selectors,
MEM and PT only (44 R171). -/
theorem remap_some {s : State} {c : Cartridge} (h : s.cart = some c)
    (hq : isQuirk c.cls = false → s.qsel0 = 0 ∧ s.qsel1 = 0) :
    remap s = { s with bank := powerUpBank s.cfg c.cls, qsel0 := 0, qsel1 := 0,
                       mem := (powerUpMap c s).mem, pt := windowTags s.cfg c.cls s.pt } := by
  have hsel : (powerUpMap c s).qsel0 = 0 ∧ (powerUpMap c s).qsel1 = 0 := by
    obtain ⟨a, b⟩ := powerUpMap_selectors c s
    rw [a, b]
    cases hc : isQuirk c.cls
    · exact hq hc
    · exact ⟨rfl, rfl⟩
  obtain ⟨m, x, y, hp⟩ := powerUpMap_frame c s
  rw [hp] at hsel
  simp only at hsel
  obtain ⟨rfl, rfl⟩ := hsel
  have hr : remap s = tagWindow c (powerUpMap c s) := by rw [remap, h]
  rw [hr, hp, tagWindow]

/-! ### The stream -/

/-- A typed read of a field of its own width takes it (44 R173). -/
theorem readField_same (w : Nat) (v : BitVec w) (rest : Stream) : readField w (⟨w, v⟩ :: rest) = some (v, rest) := by
  simp [readField]

/-- The legacy fields are consumed, whatever their values (44 R173, R175). -/
theorem skipFields_widths (ws : List Nat) (fields rest : Stream) (h : fields.map (fun f => f.width) = ws) :
    skipFields ws (fields ++ rest) = some rest := by
  induction fields generalizing ws with
  | nil =>
    subst h
    rfl
  | cons f fields ih =>
    subst h
    simp only [List.map_cons, List.cons_append, skipFields]
    rw [show f = ⟨f.width, f.value⟩ from rfl, readField_same]
    exact ih _ rfl

/-- THE SPEC OF THE HEAD (44 R173, R175): the mode flags and what follows ADB's fixed fields. -/
theorem readHead_fields (ws : List Nat) (m tag : Byte) (fields rest : Stream)
    (h : fields.map (fun f => f.width) = ws) :
    readHead ws ([⟨8, m⟩, ⟨8, tag⟩] ++ fields ++ rest) = some (m, rest) := by
  simp only [readHead, List.cons_append, List.nil_append]
  rw [readField_same]
  simp only
  rw [readField_same]
  simp only
  rw [skipFields_widths _ _ _ h]

/-- A stream of ADB's widths that ends early has no head left to read (44 R175). -/
theorem skipFields_short (ws : List Nat) (fields : Stream) (h : fields.map (fun f => f.width) <+: ws)
    (hl : fields.length < ws.length) : skipFields ws fields = none := by
  induction ws generalizing fields with
  | nil => exact absurd hl (Nat.not_lt_zero _)
  | cons w ws ih =>
    cases fields with
    | nil => rfl
    | cons f fields =>
      simp only [List.map_cons, List.cons_prefix_cons] at h
      obtain ⟨rfl, h⟩ := h
      simp only [skipFields]
      rw [show f = ⟨f.width, f.value⟩ from rfl, readField_same]
      exact ih _ h (by simpa using hl)

end Sys2Proof.Machine
end

