-- ==== Sys2Proof/Laws/PerInstr.lean ====
section
/-! SUPPORT. One lemma per operation about its command word: its OP byte and its must-be-zero fields are those of its row of the opcode map (spec 30_encoding.md R61, R63). -/

namespace Sys2Proof.Laws.RowFields

open Sys2Proof

/-- The OP byte of an operation's row (30 R63). -/
def opOf : Instr → Byte
  | .rd _ => 0x01
  | .wr _ _ => 0x02
  | .setattr _ _ _ => 0x10
  | .ctrlw _ => 0x11
  | .setmode _ => 0x12
  | .insert _ _ => 0x20
  | .remove => 0x21
  | .install _ _ _ => 0x30
  | .installr _ _ _ => 0x31
  | .uninst _ => 0x32
  | .fire _ _ => 0x33
  | .warm => 0x40
  | .cold => 0x41
  | .save => 0x50
  | .load _ => 0x51

/-- Whether the format leaves field A zero (formats FB and F0 of 30 R61). -/
def zeroA : Instr → Bool
  | .rd _ => false
  | .wr _ _ => false
  | .setattr _ _ _ => false
  | .ctrlw _ => true
  | .setmode _ => true
  | .insert _ _ => true
  | .remove => true
  | .install _ _ _ => false
  | .installr _ _ _ => false
  | .uninst _ => true
  | .fire _ _ => false
  | .warm => true
  | .cold => true
  | .save => true
  | .load _ => true

/-- Whether the format leaves field B zero (formats FA and F0 of 30 R61). -/
def zeroB : Instr → Bool
  | .rd _ => true
  | .wr _ _ => false
  | .setattr _ _ _ => false
  | .ctrlw _ => false
  | .setmode _ => false
  | .insert _ _ => true
  | .remove => true
  | .install _ _ _ => false
  | .installr _ _ _ => false
  | .uninst _ => false
  | .fire _ _ => false
  | .warm => true
  | .cold => true
  | .save => true
  | .load _ => true

/-- The command word's OP byte is the row's, and its must-be-zero fields are zero. -/
def Statement (i : Instr) : Prop :=
  opField (encodeWord i) = opOf i ∧
    (zeroA i = true → aField (encodeWord i) = 0) ∧ (zeroB i = true → bField (encodeWord i) = 0)

theorem rd (addr : Addr) : Statement (.rd addr) := by
  simp [Statement, encodeWord, opOf, zeroA, zeroB]

theorem wr (addr : Addr) (val : Byte) : Statement (.wr addr val) := by
  simp [Statement, encodeWord, opOf, zeroA, zeroB]

theorem setattr (first last : Byte) (kind : Tag) : Statement (.setattr first last kind) := by
  simp [Statement, encodeWord, opOf, zeroA, zeroB]

theorem ctrlw (v : Byte) : Statement (.ctrlw v) := by
  simp [Statement, encodeWord, opOf, zeroA, zeroB]

theorem setmode (v : Byte) : Statement (.setmode v) := by
  simp [Statement, encodeWord, opOf, zeroA, zeroB]

theorem insert (bytes : Option (List Byte)) (size : Nat) : Statement (.insert bytes size) := by
  simp [Statement, encodeWord, opOf, zeroA, zeroB]

theorem remove : Statement (.remove) := by
  simp [Statement, encodeWord, opOf, zeroA, zeroB]

theorem install (addr : Addr) (code : Byte) (h : Handler) : Statement (.install addr code h) := by
  simp [Statement, encodeWord, opOf, zeroA, zeroB]

theorem installr (addr : Addr) (code : Byte) (h : Handler) : Statement (.installr addr code h) := by
  simp [Statement, encodeWord, opOf, zeroA, zeroB]

theorem uninst (code : Byte) : Statement (.uninst code) := by
  simp [Statement, encodeWord, opOf, zeroA, zeroB]

theorem fire (pc : Addr) (code : Byte) : Statement (.fire pc code) := by
  simp [Statement, encodeWord, opOf, zeroA, zeroB]

theorem warm : Statement (.warm) := by
  simp [Statement, encodeWord, opOf, zeroA, zeroB]

theorem cold : Statement (.cold) := by
  simp [Statement, encodeWord, opOf, zeroA, zeroB]

theorem save : Statement (.save) := by
  simp [Statement, encodeWord, opOf, zeroA, zeroB]

theorem load (s : Stream) : Statement (.load s) := by
  simp [Statement, encodeWord, opOf, zeroA, zeroB]

end Sys2Proof.Laws.RowFields
end

