-- ==== Sys2Proof/Laws/Step.lean ====
section
/-! SUPPORT. Everything a step can do, and which fields the invariants read (spec 60_exceptions.md R194, 10_state.md R26). -/

namespace Sys2Proof.Machine

/-- A step that answers a next state idles, refuses the request, or runs the operation of the oldest request. -/
theorem step_cases {s t : State} (h : step s = .next t) :
    configOk s.cfg = true ∧
      ((s.requests = [] ∧ t = s) ∨
        (∃ r rest reason, s.requests = r :: rest ∧ accept r = .error reason ∧
          t = ({ s with requests := rest } : State).refuse reason) ∨
        (∃ r rest i, s.requests = r :: rest ∧ accept r = .ok i ∧ exec i { s with requests := rest } = .next t)) := by
  unfold step at h
  split at h
  · rename_i hk
    refine ⟨hk, ?_⟩
    split at h
    · rename_i hr
      cases h
      exact Or.inl ⟨hr, rfl⟩
    · rename_i r rest hr
      split at h
      · rename_i reason ha
        cases h
        exact Or.inr (Or.inl ⟨r, rest, reason, hr, ha, rfl⟩)
      · rename_i i ha
        exact Or.inr (Or.inr ⟨r, rest, i, hr, ha, h⟩)
  · cases h

/-- An accepted request decodes to an operation of its port. -/
theorem accept_ok {r : Request} {i : Instr} (h : accept r = .ok i) :
    decode r.word r.side = .ok i ∧ i.port = r.port := by
  unfold accept at h
  split at h
  · cases h
  · split at h
    · cases h
      exact ⟨‹_›, ‹_›⟩
    · cases h

/-- The invariants read CFG, CART, BANK, TOTAL and the selectors only (10 R26). -/
theorem Inv.congr {s t : State} (h : Inv s) (h1 : t.cfg = s.cfg) (h2 : t.cart = s.cart) (h3 : t.bank = s.bank)
    (h4 : t.total = s.total) (h5 : t.qsel0 = s.qsel0) (h6 : t.qsel1 = s.qsel1) : Inv t where
  config := h1 ▸ h.config
  bank := h3 ▸ h4 ▸ h.bank
  noCart hn := by
    rw [h3, h4, h5, h6]
    exact h.noCart (h2 ▸ hn)
  cart c hc := by
    rw [h1]
    exact h.cart c (h2 ▸ hc)
  total c hc := h4 ▸ h.total c (h2 ▸ hc)
  superCart c hc hs := by
    rw [h1, h4]
    exact h.superCart c (h2 ▸ hc) hs
  selectors c hc hq := by
    rw [h5, h6]
    exact h.selectors c (h2 ▸ hc) hq
  bankZero c hc hn := h3 ▸ h.bankZero c (h2 ▸ hc) hn

/-- A bank copy with the SUPER cartridge that is inserted keeps the invariants (42 R128). -/
theorem Inv.withBank {s : State} (h : Inv s) {c : Cartridge} (hc : s.cart = some c) (hs : c.cls = .super)
    (b : Fin 16) (mem : Memory) : Inv { s with bank := b.val, mem := mem } where
  config := h.config
  bank := by
    have := (h.superCart c hc hs).1
    have := b.isLt
    change b.val < s.total
    omega
  noCart hn := by
    rw [hc] at hn
    cases hn
  cart := h.cart
  total := h.total
  superCart := h.superCart
  selectors := h.selectors
  bankZero c' hc' hn := by
    rw [hc] at hc'
    cases hc'
    exact absurd hs hn

theorem Inv.copyBank {s : State} (h : Inv s) {c : Cartridge} (hc : s.cart = some c) (hs : c.cls = .super)
    (b : Fin 16) : Inv (Machine.copyBank c b.val s) := by
  rw [Machine.copyBank]
  exact h.withBank hc hs b _

/-- A slice copy with the QUIRK cartridge that is inserted keeps the invariants (42 R130). -/
theorem Inv.withSlices {s : State} (h : Inv s) {c : Cartridge} (hc : s.cart = some c) (hq : isQuirk c.cls = true)
    (q0 q1 : BitVec 2) (mem : Memory) : Inv { s with qsel0 := q0, qsel1 := q1, mem := mem } where
  config := h.config
  bank := h.bank
  noCart hn := by
    rw [hc] at hn
    cases hn
  cart := h.cart
  total := h.total
  superCart := h.superCart
  selectors c' hc' hq' := by
    rw [hc] at hc'
    cases hc'
    rw [hq] at hq'
    cases hq'
  bankZero := h.bankZero

/-- The trigger keeps the invariants (40 R84). -/
theorem Inv.cartTrigger {s : State} (h : Inv s) (addr : Addr) : Inv (cartTrigger addr s) := by
  rcases cartTrigger_cases addr s with he | ⟨c, b, hc, hs, -, -, he⟩ | ⟨c, r, k, hc, hq, -, he⟩
  · rw [he]
    exact h
  · rw [he]
    exact h.copyBank hc hs b
  · rw [he]
    exact h.withSlices hc hq _ _ _

end Sys2Proof.Machine
end

