-- ==== Sys2Proof/Tests/Slice0.lean ====
section
/-! SUPPORT. Tests: words written out from the spec's encodings, ill-formed terms refused, single steps with results from spec/95_test_vectors.md, and a witness for every statement that has hypotheses. -/

namespace Sys2Proof.Tests

open Sys2Proof.Machine

set_option Elab.async false

/-! ### Small states -/

/-- REF with small overlays, so that reads of MEM are short: OS without ranges, BASIC page 0xA0, SELFTEST page
0x50. -/
def cfg : Config :=
  { referenceConfig with
    ovlOs := ⟨0, true, [], []⟩
    ovlBasic := ⟨1, false, [(0xA0, 0xA0)], [Vector.replicate 256 0x20]⟩
    ovlSelftest := ⟨7, false, [(0x50, 0x50)], [Vector.replicate 256 0xD0]⟩ }

/-- S0 of 95 section 1.3 (the eight boot words) under `cfg`. -/
def s0 : State :=
  { State.powerOn cfg with
    pt := (State.powerOn cfg).pt.setRanges
      [(0xC0, 0xC0), (0xD0, 0xD0), (0xD2, 0xD2), (0xD3, 0xD3), (0xD4, 0xD4), (0xD5, 0xD5), (0xE8, 0xE8),
        (0xEB, 0xEB)] .hardware }

/-- An image of `pages` 256-byte pages, page p filled with `f p`. -/
def pagesOf (pages : Nat) (f : Nat → Byte) : List Byte :=
  (List.range pages).flatMap fun p => List.replicate 256 (f p)

/-- Image E of 95 section 1.2: byte i is `0x80 | i[13:8]`. -/
def imgE : List Byte := pagesOf 64 fun p => 0x80 ||| BitVec.ofNat 8 p

/-- A 512KiB image: bank 0 is 0x08 throughout, the other banks 0x18. -/
def imgS : List Byte := List.replicate 0x8000 0x08 ++ List.replicate 0x78000 0x18

/-- A 40KiB image of ten 4KiB blocks, block j being `(j + 1) << 4` (the high nibbles of image Q of 95). -/
def imgQ : List Byte := pagesOf 160 fun p => BitVec.ofNat 8 ((p / 16 + 1) * 16)

def cartE : Cartridge := ⟨1, .fixed, imgE, 0x4000, 0, "EE16", 0, 0⟩
def cartS : Cartridge := ⟨2, .super, imgS, 0x80000, 0, "SUPER", 0, 0⟩
def cartQ : Cartridge := ⟨3, .quirkA, imgQ, 0xA000, 0, "QUIRK_A", 0, 0⟩
def cartB : Cartridge := ⟨4, .quirkB, imgQ, 0xA000, 0, "QUIRK_B", 0, 0⟩

/-- S0 with a SUPER cartridge, its window not copied yet. -/
def superS : State := { s0 with cart := some cartS, total := 16 }

/-- S0 with a QUIRK_A cartridge and its HARDWARE pages, its window not copied yet. -/
def quirkS : State := { s0 with cart := some cartQ, total := 4, pt := windowTags cfg .quirkA s0.pt }

/-- S0 with a QUIRK_B cartridge and its HARDWARE pages, its window not copied yet. -/
def quirkB : State := { s0 with cart := some cartB, total := 4, pt := windowTags cfg .quirkB s0.pt }

/-- The state an operation leaves; the state before where it stops. -/
def after (i : Instr) (s : State) : State :=
  match exec i s with
  | .next t => t
  | .fault _ => s
  | .refused _ => s

/-- An outcome is a next state. -/
def ran : Out → Bool
  | .next _ => true
  | .fault _ => false
  | .refused _ => false

theorem ran_next {o : Out} (h : ran o = true) : ∃ t, o = .next t :=
  match o, h with
  | .next t, _ => ⟨t, rfl⟩

/-- A word on a port with nothing on the side. -/
def req (p : Port) (w : Word) : Request := ⟨p, w, Side.zero⟩

/-! ### Decoding (30 R60 to R64; 95 V3 to V20) -/

/-- 30 R61: OP 0000 0001, A 0100 1111 1111 0110, B 0000 0000. -/
theorem test_decode_rd : decode 0b00000001010011111111011000000000 Side.zero = .ok (.rd 0x4FF6) := by decide

/-- 30 R61: OP 0000 0010, A 0000 0110 0000 0000, B 1010 1001. -/
theorem test_decode_wr : decode 0b00000010000001100000000010101001 Side.zero = .ok (.wr 0x0600 0xA9) := by decide

/-- 30 R62: OP 0001 0000, first 1101 0000, last 1101 0001, B 0000 0010. -/
theorem test_decode_setattr :
    decode 0b00010000110100001101000100000010 Side.zero = .ok (.setattr 0xD0 0xD1 .hardware) := by decide

/-- 30 R61: OP 0001 0001, A 0, B 1111 1101; OP 0001 0010, A 0, B 0000 0001. -/
theorem test_decode_latch_words :
    decode 0b00010001000000000000000011111101 Side.zero = .ok (.ctrlw 0xFD) ∧
    decode 0b00010010000000000000000000000001 Side.zero = .ok (.setmode 0x01) := by decide

/-- 30 R61: OP 0010 0000 and 0010 0001, A and B 0. -/
theorem test_decode_cartridge_words :
    decode 0b00100000000000000000000000000000 ⟨some [1, 2], 2, 0, []⟩ = .ok (.insert (some [1, 2]) 2) ∧
    decode 0b00100001000000000000000000000000 Side.zero = .ok .remove := by decide

/-- 30 R61: OP 0011 0000 to 0011 0011, A 1110 0100 0101 1001, B 0000 0011. -/
theorem test_decode_trap_words :
    decode 0b00110000111001000101100100000011 ⟨none, 0, 7, []⟩ = .ok (.install 0xE459 0x03 7) ∧
    decode 0b00110001111001000101100100000011 ⟨none, 0, 7, []⟩ = .ok (.installr 0xE459 0x03 7) ∧
    decode 0b00110010000000000000000000000011 Side.zero = .ok (.uninst 0x03) ∧
    decode 0b00110011111001000101101100000011 Side.zero = .ok (.fire 0xE45B 0x03) := by decide

/-- 30 R61: OP 0100 0000, 0100 0001, 0101 0000 and 0101 0001, A and B 0. -/
theorem test_decode_lifecycle_words :
    decode 0b01000000000000000000000000000000 Side.zero = .ok .warm ∧
    decode 0b01000001000000000000000000000000 Side.zero = .ok .cold ∧
    decode 0b01010000000000000000000000000000 Side.zero = .ok .save ∧
    decode 0b01010001000000000000000000000000 ⟨none, 0, 0, [⟨8, 1⟩]⟩ = .ok (.load [⟨8, 1⟩]) := by decide

/-- 95 V4, V7, V8, V11 to V15. -/
theorem test_decode_reserved :
    decode 0x014FF601 Side.zero = .error .mustBeZero ∧ decode 0x10D0D003 Side.zero = .error .tagThree ∧
    decode 0x10D0D006 Side.zero = .error .mustBeZero ∧ decode 0x110100FD Side.zero = .error .mustBeZero ∧
    decode 0x00000000 Side.zero = .error .unknownOp ∧ decode 0xFFFFFFFF Side.zero = .error .unknownOp ∧
    decode 0x20000001 Side.zero = .error .mustBeZero ∧ decode 0x32E45903 Side.zero = .error .mustBeZero := by
  decide

/-- 95 V9 and V16, encoded. -/
theorem test_encode :
    encodeWord (.setattr 0x00 0xFF .rom) = 0x1000FF01 ∧ encodeWord (.fire 0xE45B 0x03) = 0x33E45B03 := by decide

/-! ### Ill-formed terms -/

/-- 70 R217 item 4. -/
theorem test_wf_refuses_short_buffer : Instr.wf (.insert (some [0, 0]) 3) = false := by decide

theorem test_wf_accepts_exact_buffer : Instr.wf (.insert (some [0, 0]) 2) = true ∧ Instr.wf (.insert none 9) = true := by
  decide

theorem test_config_ok : configOk cfg = true := by decide +kernel

theorem test_reference_config_ok : configOk referenceConfig = true := by decide +kernel

/-- 70 R215 item 1. -/
theorem test_config_window_unaligned :
    configOk { cfg with winLo := 0x3F80 } = false ∧ windowAligned { cfg with winLo := 0x3F80 } = false := by
  decide +kernel

/-- 70 R215 item 2. -/
theorem test_config_window_without_regions :
    configOk { cfg with winHi := 0x5EFF } = false ∧ windowHoldsRegions { cfg with winHi := 0x5EFF } = false := by
  decide +kernel

/-- 70 R215 item 3. -/
theorem test_config_super_window :
    configOk { cfg with winHi := 0xCFFF } = false ∧ windowFitsSuper { cfg with winHi := 0xCFFF } = false := by
  decide +kernel

/-- 70 R215 item 4. -/
theorem test_config_sel_page_on_chip :
    configOk { cfg with selPage := 0xD4 } = false ∧ selPageFree { cfg with selPage := 0xD4 } = false := by
  decide +kernel

/-- 70 R215 item 6: a destination beyond the window. -/
theorem test_config_layout_outside :
    configOk { cfg with types := [⟨1, .fixed, 0x4000, [⟨0, 0xBFFF, 2⟩]⟩] } = false ∧
    typesOk { cfg with types := [⟨1, .fixed, 0x4000, [⟨0, 0xBFFF, 2⟩]⟩] } = false := by decide +kernel

/-- 70 R215 item 6: a catalog tag 0. -/
theorem test_config_tag_zero :
    configOk { cfg with catalog := [(1, ⟨0, "", 0, 0⟩)] } = false ∧
    catalogOk { cfg with catalog := [(1, ⟨0, "", 0, 0⟩)] } = false := by decide +kernel

/-- 70 R215 item 7: ROM of the wrong length. -/
theorem test_config_overlay_length :
    configOk { cfg with ovlOs := ⟨0, true, [(0xF0, 0xF0)], []⟩ } = false ∧
    overlaysOk { cfg with ovlOs := ⟨0, true, [(0xF0, 0xF0)], []⟩ } = false := by decide +kernel

/-- 70 R215 item 8. -/
theorem test_config_ctrl_addr :
    configOk { cfg with ctrlAddr := some 0x0600 } = false ∧ ctrlAddrOk { cfg with ctrlAddr := some 0x0600 } = false := by
  decide +kernel

/-- 70 R215 item 9. -/
theorem test_config_max_cart :
    configOk { cfg with maxCart := 0x7FFFF } = false ∧ sizesOk { cfg with maxCart := 0x7FFFF } = false := by
  decide +kernel

/-- MEM_INIT in the canonical form (log 3). -/
theorem test_config_mem_init :
    configOk { cfg with memInit := [(1, 5), (0, 5)] } = false ∧ memInitOk { cfg with memInit := [(1, 5), (0, 5)] } = false := by
  decide +kernel

/-! ### Single steps (95_test_vectors.md) -/

/-- V21, first half. -/
theorem test_wr_ram : (after (.wr 0x0600 0xA9) s0).mem = [(0x0600, 0xA9)] := by decide +kernel

/-- V24, first half: the empty window is ROM. -/
theorem test_wr_rom : (after (.wr 0x4000 0x55) s0).mem = [] := by decide +kernel

/-- V23: the reference OS ROM's last byte, under the reference configuration. -/
theorem test_rd_rom : (after (.rd 0xFFFF) State.reset).result = some (.data 0xEF) := by decide +kernel

/-- V26: the chip signal carries the full address. -/
theorem test_rd_chip : (after (.rd 0xE80A) s0).outputs = [.chipGet .audioTimer 0xE80A] := by decide +kernel

/-- V33 and V9. -/
theorem test_setattr :
    (after (.setattr 0x10 0x0F .rom) s0).pt.tag 0x10 = .ram ∧ (after (.setattr 0x00 0xFF .rom) s0).pt.tag 0xD3 = .rom := by
  decide +kernel

/-- V35 and V37: BASIC on, then off, at page 0xA0. -/
theorem test_ctrlw_basic :
    (after (.ctrlw 0xFD) s0).mem.read 0xA000 = 0x20 ∧
    (after (.ctrlw 0xFF) { s0 with ctrl := 0xFD }).mem.read 0xA0FF = 0xFF ∧
    (after (.ctrlw 0xFF) { s0 with ctrl := 0xFD }).pt.tag 0xA0 = .ram := by decide +kernel

/-- V39b: no overlay uses bit 2. -/
theorem test_ctrlw_unused_bit : (after (.ctrlw 0xFB) s0).ctrl = 0xFB ∧ (after (.ctrlw 0xFB) s0).mem = [] := by
  decide +kernel

/-- V39c: the snoop comes after the chip's byte. -/
theorem test_wr_snoop :
    (after (.wr 0xD301 0xFD) s0).ctrl = 0xFD ∧
    (after (.wr 0xD301 0xFD) s0).outputs = [.chipPut .peripheral 0xD301 0xFD] := by decide +kernel

/-- V39g. -/
theorem test_setmode : (after (.setmode 0x03) s0).mode = 0x03 := by decide +kernel

/-- V40 and V41. -/
theorem test_insert_cannot_open :
    (after (.insert none 0) s0).result = some .cartCantOpen ∧
    (after (.insert (some (List.replicate 0xFFF 0)) 0xFFF) s0).result = some .cartCantOpen := by decide +kernel

/-- V1 at 0xA000: image offset 0x2000, E[0x2000] = 0xA0; at 0x8000: E[0] = 0x80 (D20). -/
theorem test_insert_maps_ee16 :
    (activate cartE (doRemove s0.opened)).mem.read 0xA000 = 0xA0 ∧
    (activate cartE (doRemove s0.opened)).mem.read 0x8000 = 0x80 := by
  have h (a : Addr) := read_activate (s := s0) (c := cartE) test_config_ok (by decide) (fun h => by cases h) a
  refine ⟨(h 0xA000).trans ?_, (h 0x8000).trans ?_⟩ <;> decide +kernel

/-- V49 and V66: no cartridge, page 0x4F ROM again. -/
theorem test_remove :
    (after .remove quirkS).cart = none ∧ (after .remove quirkS).total = 1 ∧
    (after .remove quirkS).pt.tag 0x4F = .rom := by decide +kernel

/-- V51, to bank 0 (V50: bank 0 reads 0x08 at 0x4000): the access selects the bank and copies it. -/
theorem test_wr_bank :
    (after (.wr 0xD500 0x00) { superS with bank := 7 }).bank = 0 ∧
    (after (.wr 0xD500 0x00) { superS with bank := 7 }).mem.read 0x4000 = 0x08 := by decide +kernel

/-- V61: the read sees the new slice, block 2 of the image. -/
theorem test_rd_slice :
    (after (.rd 0x4FF8) quirkS).qsel0 = 2 ∧ (after (.rd 0x4FF8) quirkS).mem.read 0x4000 = 0x30 := by decide +kernel

/-- V77: the sentinel wraps. -/
theorem test_install_wraps : (after (.install 0xFFFF 0x01 9) s0).mem = [(0x0000, 0x01), (0xFFFF, 0xF2)] := by
  decide +kernel

/-- V70: the slot. -/
theorem test_install_slot : (after (.install 0xE459 0x03 9) s0).slot 0x03 = ⟨true, 0xE459, 9⟩ := by decide +kernel

/-- V78. -/
theorem test_installr_wraps :
    (after (.installr 0xFFFE 0x02 9) s0).mem = [(0x0000, 0x60), (0xFFFE, 0xF2), (0xFFFF, 0x02)] := by decide +kernel

/-- V79: the slot is cleared, its address and handler stay. -/
theorem test_uninst :
    (after (.uninst 0x03) (after (.install 0xE459 0x03 9) s0)).slot 0x03 = ⟨false, 0xE459, 9⟩ := by decide +kernel

/-- V71. -/
theorem test_fire_invokes :
    (after (.fire 0xE45B 0x03) (after (.install 0xE459 0x03 9) s0)).outputs = [.invoke 9] := by decide +kernel

/-- V73. -/
theorem test_fire_crashes :
    (after (.fire 0xE45C 0x03) (after (.install 0xE459 0x03 9) s0)).crashed = true ∧
    (after (.fire 0xE45C 0x03) (after (.install 0xE459 0x03 9) s0)).outputs = [.crash] := by decide +kernel

/-- V87. -/
theorem test_warm :
    (after .warm s0).outputs =
      [.chipReset .videoColor, .chipReset .audioTimer, .chipReset .peripheral, .chipReset .videoAddrgen, .cpuReset] := by
  decide +kernel

/-- V91 and V89 (MODE = 0: no key hold). -/
theorem test_cold :
    (after .cold s0).mem = [(0x0244, 0x01)] ∧ (after .cold s0).outputs.length = 5 ∧
    (after .cold { s0 with mode := 0x02 }).outputs.length = 6 := by decide +kernel

/-- V92b. -/
theorem test_save_super :
    (after .save { superS with mode := 0x01, bank := 7 }).result = some (.stream [⟨8, 0x01⟩, ⟨8, 0x02⟩, ⟨8, 0x07⟩]) := by
  decide +kernel

/-- V92. -/
theorem test_save_none : (after .save s0).result = some (.stream [⟨8, 0x00⟩, ⟨8, 0x00⟩]) := by decide +kernel

/-- V95a. -/
theorem test_load_none : (after (.load [⟨8, 0x05⟩, ⟨8, 0x09⟩]) s0).mode = 0x05 := by decide +kernel

/-- V95: a bank of 16, and a short stream. -/
theorem test_load_refused :
    (after (.load [⟨8, 1⟩, ⟨8, 2⟩, ⟨8, 0x10⟩]) superS).result = some (.refused .snapshotMismatch) ∧
    (after (.load [⟨8, 1⟩, ⟨8, 2⟩]) superS).result = some (.refused .snapshotMismatch) := by decide +kernel

/-- The first step from reset runs the word (60 R194). -/
theorem test_step_from_reset :
    (match step (State.reset.withFetchWord 32 0x41000000) with
      | .next t => t.outputs.length
      | .fault _ => 0
      | .refused _ => 0) = 5 := by decide +kernel

/-! ### Witnesses: every statement's hypotheses are met by a concrete state and operands -/

/-- `cfg` with a catalog that knows image E as type 1 (95 section 1.2). -/
def cfgE : Config := { cfg with catalog := [(Config.fingerprint imgE, ⟨1, "EE16", 0, 0⟩)] }

def sE : State := { s0 with cfg := cfgE }

/-- A SUPER cartridge with bank 0 copied into the window. -/
def superF : State := { superS with mem := Memory.overwrite [] 0x4000 (imageSlice imgS 0 0x8000) }

theorem length_imgS : imgS.length = 0x80000 := by
  rw [imgS, List.length_append, List.length_replicate, List.length_replicate]

theorem inv_s0 : Inv s0 where
  config := test_config_ok
  bank := by decide
  noCart _ := ⟨rfl, rfl, rfl, rfl⟩
  cart c h := by cases h
  total c h := by cases h
  superCart c h := by cases h
  selectors c h := by cases h
  bankZero c h := by cases h

theorem inv_superF : Inv superF where
  config := test_config_ok
  bank := by decide
  noCart h := by cases h
  cart c h := by
    cases h
    exact ⟨by decide, by decide, length_imgS, by decide⟩
  total c h := by
    cases h
    rfl
  superCart c h _ := by
    cases h
    exact ⟨rfl, rfl, by decide⟩
  selectors c h _ := ⟨rfl, rfl⟩
  bankZero c h hn := by
    cases h
    exact absurd rfl hn

/-- The SUPER window shows bank 0. -/
theorem faithful_superF : WindowFaithful superF where
  bytes a ha := by
    have h := (inWindow_iff _ _).1 ha
    have h1 : superF.cfg.winLo.toNat = 0x4000 := rfl
    have h2 : superF.cfg.winHi.toNat = 0xBFFF := rfl
    have hr := Memory.read_overwrite_slice [] 0x4000 imgS 0 0x8000 a.toNat a.isLt
    rw [if_pos (by omega)] at hr
    refine hr.trans ?_
    change _ = imageByte imgS (0 * 0x8000 + (a.toNat - 0x4000))
    rw [Nat.zero_mul]
  sealed := by decide +kernel

theorem witness_EncodeOfDecodeIsWord : decode 0x10FF0001 Side.zero = .ok (.setattr 0xFF 0x00 .rom) := by decide

/-- Both sides of the first clause, and the premises of the two refusals. -/
theorem witness_ReservedWordsAreRefused :
    (decode 0x014FF601 Side.zero = .error .mustBeZero) ∧ (decode 0x10000003 Side.zero = .error .tagThree) ∧
    configOk cfg = true ∧ ({ s0 with requests := [req .cpu 0x014FF601] } : State).requests = [req .cpu 0x014FF601] ∧
    decode 0x21000000 Side.zero = .ok .remove ∧
    ¬(Port.cpu = .cpu ↔ (∃ a, Instr.remove = .rd a) ∨ (∃ a v, Instr.remove = .wr a v) ∨ (∃ pc c, Instr.remove = .fire pc c)) ∧
    ¬(Port.host = .cpu ↔ (∃ a, Instr.rd 0x4FF6 = .rd a) ∨ (∃ a v, Instr.rd 0x4FF6 = .wr a v)
      ∨ (∃ pc c, Instr.rd 0x4FF6 = .fire pc c)) :=
  ⟨by decide, by decide, test_config_ok, rfl, by decide, by simp, by simp⟩

theorem witness_StepRunsTheRequestedOperation :
    configOk cfg = true ∧ ({ s0 with requests := [req .cpu 0x33E45B03] } : State).requests = [req .cpu 0x33E45B03] ∧
    decode 0x33E45B03 Side.zero = .ok (.fire 0xE45B 0x03) ∧ (Instr.fire 0xE45B 0x03).port = .cpu :=
  ⟨test_config_ok, rfl, by decide, rfl⟩

/-- V74's WARM, and V20's REMOVE on the wrong port, of a crashed machine. -/
theorem witness_CrashedMachineRefusesEveryOperation :
    ({ s0 with crashed := true } : State).crashed = true ∧
    (∃ t, step { s0 with crashed := true, requests := [req .host 0x40000000] } = .next t) ∧
    (∃ t, step { s0 with crashed := true, requests := [req .cpu 0x21000000] } = .next t) ∧
    (∃ t, step { s0 with crashed := true } = .next t) := by
  refine ⟨rfl, ?_, ?_, ?_⟩ <;> exact ran_next (by decide +kernel)

/-- No request; a served one; a refused one. -/
theorem witness_StepTakesTheOldestRequest :
    configOk s0.cfg = true ∧ s0.requests = [] ∧
    (∃ t, step { s0 with requests := [req .host 0x40000000, req .host 0x21000000] } = .next t) ∧
    (∃ t, step { s0 with requests := [req .cpu 0x21000000] } = .next t) :=
  ⟨test_config_ok, rfl, ran_next (by decide +kernel), ran_next (by decide +kernel)⟩

theorem wellFormed_cfg : WellFormedConfig cfg := ((configOk_iff_wellFormed cfg).1 test_config_ok).1

/-- Each item of 70 R215 broken at a boundary: 1 and 3 a window of the wrong length, 2 a region outside, 4 a chip
page, 6 a slice, a bank image, a descriptor and a tag 0, 7 a missing ROM, 8 the first page past PERIPHERAL's and
VIDEO_ADDRGEN's, 9 one byte too few; and a configuration that keeps them all. -/
theorem witness_IllFormedConfigIsRejected :
    ¬WellFormedConfig { cfg with winHi := 0xBFFE } ∧ ¬WellFormedConfig { cfg with winLo := 0x4100 } ∧
    ¬WellFormedConfig { cfg with winHi := 0xC0FF } ∧ ¬WellFormedConfig { cfg with selPage := 0xEB } ∧
    ¬WellFormedConfig { cfg with types := [⟨3, .quirkA, 0x7FFF, []⟩] } ∧
    ¬WellFormedConfig { cfg with types := [⟨2, .super, 0x7FFFF, []⟩] } ∧
    ¬WellFormedConfig { cfg with types := [⟨1, .fixed, 0x4000, [⟨0, 0x3FFF, 1⟩]⟩] } ∧
    ¬WellFormedConfig { cfg with catalog := [(1, ⟨0, "", 0, 0⟩)] } ∧
    ¬WellFormedConfig { cfg with ovlOs := ⟨0, true, [(0xF0, 0xF0)], []⟩ } ∧
    ¬WellFormedConfig { cfg with ctrlAddr := some 0xD500 } ∧ ¬WellFormedConfig { cfg with maxCart := 0x7FFFF } ∧
    WellFormedConfig s0.cfg ∧ (∀ e ∈ s0.cfg.catalog, ∃ row ∈ s0.cfg.types, row.tag = e.2.typeTag) ∧
    Memory.wf s0.cfg.memInit = true ∧ configOk ({ s0 with cfg := { cfg with selPage := 0xD4 } } : State).cfg = false := by
  refine ⟨fun h => absurd h.window (by decide), fun h => absurd h.regions (by decide),
    fun h => absurd h.superWindow (by decide), fun h => absurd h.selPage (by decide), fun h => ?_, fun h => ?_,
    fun h => ?_, fun h => absurd h.tags (by decide), fun h => ?_, fun h => ?_,
    fun h => absurd h.sizes (by decide), wellFormed_cfg, by decide, by decide, test_config_sel_page_on_chip.1⟩
  · exact absurd ((h.types _ (List.mem_singleton.2 rfl)).2.2.1 rfl).1 (by decide)
  · exact absurd ((h.types _ (List.mem_singleton.2 rfl)).2.1 rfl) (by decide)
  · exact absurd ((h.types _ (List.mem_singleton.2 rfl)).1 rfl _ (List.mem_singleton.2 rfl)).2.1 (by decide)
  · exact absurd (h.overlays _ (List.mem_cons_self ..)).2 (by decide)
  · obtain ⟨ch, hch⟩ := h.ctrlAddr 0xD500 rfl
    revert hch
    cases ch <;> decide

theorem witness_EveryLegalOperationAnswers :
    Instr.wf (.insert (some [0, 0]) 2) = true ∧ Instr.wf (.insert (some [0, 0]) 3) = false ∧ s0.crashed = false := by
  decide

/-- RAM at 0x0600 and the last RAM address, ROM at the window's first and last address. -/
theorem witness_ReadOfRamOrRomGivesTheByte :
    s0.crashed = false ∧ s0.pt.tag (pageOf 0x0600) = .ram ∧ s0.pt.tag (pageOf 0xFFFF) = .ram ∧
    s0.pt.tag (pageOf 0x4000) = .rom ∧ s0.pt.tag (pageOf 0xBFFF) = .rom := by decide +kernel

theorem witness_WriteToRamStoresOneByte :
    s0.crashed = false ∧ s0.pt.tag (pageOf 0x0000) = .ram ∧ s0.pt.tag (pageOf 0x3FFF) = .ram := by decide +kernel

theorem witness_WriteToRomIsDropped :
    s0.crashed = false ∧ s0.pt.tag (pageOf 0x4000) = .rom ∧ s0.pt.tag (pageOf 0xBFFF) = .rom := by decide +kernel

/-- First and last address of chip pages; CTRL_ADDR, and an address away from it. -/
theorem witness_ChipAccessIsPassedOn :
    s0.crashed = false ∧ s0.pt.tag (pageOf 0xD000) = .hardware ∧
    ((0xD000#16).toNat / 256, Chip.videoColor) ∈ chipPages ∧ ((0xEBFF#16).toNat / 256, Chip.audioTimer) ∈ chipPages ∧
    s0.pt.tag (pageOf 0xEBFF) = .hardware ∧ s0.cfg.ctrlAddr ≠ some 0xD000 ∧
    s0.pt.tag (pageOf 0xD301) = .hardware ∧ ((0xD301#16).toNat / 256, Chip.peripheral) ∈ chipPages := by
  decide +kernel

/-- The snoop; the three ways a WR misses the latch; no CTRL_ADDR and a CTRLW; CTRL_ADDR on page 0xD5. -/
theorem witness_LatchSnoopsChipWriteAtCtrlAddr :
    s0.crashed = false ∧ s0.pt.tag (pageOf 0xD301) = .hardware ∧
    ((0xD301#16).toNat / 256, Chip.peripheral) ∈ chipPages ∧ s0.cfg.ctrlAddr = some 0xD301 ∧
    (∃ t, exec (.wr 0xD300 0xFD) s0 = .next t) ∧ s0.cfg.ctrlAddr ≠ some 0xD300 ∧
    (∃ t, exec (.wr 0xD301 0xFD) (State.powerOn cfg) = .next t) ∧
    (State.powerOn cfg).pt.tag (pageOf 0xD301) ≠ .hardware ∧
    (∃ t, exec (.wr 0xD500 0xFD) s0 = .next t) ∧ (∀ ch, ((0xD500#16).toNat / 256, ch) ∉ chipPages) ∧
    ({ s0 with cfg := { cfg with ctrlAddr := none } } : State).cfg.ctrlAddr = none ∧
    (∃ t, exec (.ctrlw 0xFD) { s0 with cfg := { cfg with ctrlAddr := none } } = .next t) ∧
    (after (.ctrlw 0xFD) { s0 with cfg := { cfg with ctrlAddr := none } }).ctrl ≠ s0.ctrl ∧
    ({ s0 with cfg := { cfg with ctrlAddr := some 0xD500 } } : State).cfg.ctrlAddr = some 0xD500 := by
  refine ⟨rfl, by decide +kernel, by decide, rfl, ran_next (by decide +kernel), by decide,
    ran_next (by decide +kernel), by decide +kernel, ran_next (by decide +kernel), ?_, rfl,
    ran_next (by decide +kernel), by decide +kernel, rfl⟩
  intro ch
  cases ch <;> decide

/-- V32: page 0x06 tagged HARDWARE has no target. -/
theorem witness_HardwarePageWithoutTargetFloats :
    (after (.setattr 0x06 0x06 .hardware) s0).crashed = false ∧
    (after (.setattr 0x06 0x06 .hardware) s0).pt.tag (pageOf 0x0600) = .hardware ∧
    (∀ ch, ((0x0600#16).toNat / 256, ch) ∉ chipPages) ∧ ¬isCartridgePage cfg ((0x0600#16).toNat / 256) := by
  refine ⟨by decide +kernel, by decide +kernel, ?_, ?_⟩
  · intro ch
    cases ch <;> decide
  · rintro ⟨h, -⟩
    revert h
    decide

/-- V29, V64: SEL_PAGE with no cartridge; beside the region's 4-byte window with a QUIRK cartridge. -/
theorem witness_CartridgePageWithoutTrigger :
    s0.crashed = false ∧ s0.pt.tag (pageOf 0xD500) = .hardware ∧ isCartridgePage cfg ((0xD500#16).toNat / 256) ∧
    TriggersNothing s0 0xD500 ∧ quirkS.pt.tag (pageOf 0x4FF5) = .hardware ∧
    isCartridgePage cfg ((0x4FF5#16).toNat / 256) ∧ TriggersNothing quirkS 0x4FF5 ∧ TriggersNothing quirkS 0x5FFA ∧
    TriggersNothing superS 0x4FF6 := by
  have chip (n : Nat) (h : n = 0xD5 ∨ n = 0x4F) : ∀ ch, (n, ch) ∉ chipPages := by
    intro ch
    rcases h with rfl | rfl <;> cases ch <;> decide
  have none : TriggersNothing s0 0xD500 := fun c h => by
    cases (show (Option.none : Option Cartridge) = some c from h)
  refine ⟨rfl, by decide +kernel, ⟨by decide, chip _ (by decide)⟩, none, by decide +kernel,
    ⟨by decide, chip _ (by decide)⟩, ?_, ?_, ?_⟩ <;> intro c h <;> cases h
  · exact ⟨fun h => (by cases h), fun _ => by decide⟩
  · exact ⟨fun h => (by cases h), fun _ => by decide⟩
  · exact ⟨fun _ h => absurd h (by decide), fun h => by cases h⟩

/-- V51, V52: the first and the last bank. -/
theorem witness_BankSelectSwitchesBeforeService :
    superS.crashed = false ∧ configOk superS.cfg = true ∧ superS.pt.tag (pageOf 0xD500) = .hardware ∧
    superS.cart = some cartS ∧ cartS.cls = .super ∧ (0xD500#16).toNat / 256 = superS.cfg.selPage.toNat ∧
    selMatch superS.cfg (nibbleOf 0xD500) = some 0 ∧ selMatch superS.cfg (nibbleOf 0xD5FF) = some 15 :=
  ⟨rfl, test_config_ok, by decide +kernel, rfl, rfl, by decide, by decide, by decide⟩

/-- V61, V62, V69: the first and last address of both 4-byte windows, both classes. -/
theorem witness_SliceAccessSwitchesBeforeService :
    quirkS.crashed = false ∧ configOk quirkS.cfg = true ∧ quirkS.pt.tag (pageOf 0x4FF6) = .hardware ∧
    quirkS.pt.tag (pageOf 0x5FF9) = .hardware ∧ quirkS.cart = some cartQ ∧ isQuirk cartQ.cls = true ∧
    quirkB.cart = some cartB ∧ isQuirk cartB.cls = true ∧
    (0x4FF6#16).toNat = 0x4FF6 + (0 : Fin 2).val * 0x1000 + (0#2).toNat ∧
    (0x5FF9#16).toNat = 0x4FF6 + (1 : Fin 2).val * 0x1000 + (3#2).toNat :=
  ⟨rfl, test_config_ok, by decide +kernel, by decide +kernel, rfl, rfl, rfl, rfl, by decide, by decide⟩

/-- The premise of the crash refusal, of every operation. -/
theorem witness_RefusedWhenCrashed : ({ s0 with crashed := true } : State).crashed = true := rfl

theorem witness_SetattrTagsExactlyTheRange : s0.crashed = false := rfl

theorem witness_ControlWriteActsOnEdges : s0.crashed = false ∧ configOk s0.cfg = true := ⟨rfl, test_config_ok⟩

theorem witness_RepeatedControlWriteDoesNothing : s0.crashed = false := rfl

theorem witness_SetmodeStoresTheFlags : s0.crashed = false := rfl

theorem witness_RemoveLeavesNoCartridge : superS.crashed = false := rfl

theorem witness_RemovedWindowReadsZero :
    superS.crashed = false ∧ configOk superS.cfg = true ∧ (∃ t, exec .remove superS = .next t) ∧
    inWindow superS.cfg (0x4000#16).toNat = true ∧ inWindow superS.cfg (0xBFFF#16).toNat = true :=
  ⟨rfl, test_config_ok, ran_next (by decide +kernel), by decide, by decide⟩

theorem signatures_imgE : ¬(cfgE.sigSavestate <+: imgE) ∧ ¬(cfgE.sigContainer <+: imgE) := by
  constructor <;> rw [← List.isPrefixOf_iff_prefix] <;> decide +kernel

theorem length_imgE : imgE.length = 0x4000 := by decide +kernel

theorem catalog_imgE : catalogEntry cfgE (Config.fingerprint imgE) = some ⟨1, "EE16", 0, 0⟩ := by
  simp [catalogEntry, cfgE]

theorem config_cfgE : configOk cfgE = true := by decide +kernel

theorem accepted_imgE : AcceptedSize cfgE 0x4000 := Or.inr ⟨⟨14, rfl⟩, by decide, by decide⟩

theorem signatures_take_imgE (n : Nat) : ¬(cfgE.sigSavestate <+: imgE.take n ∨ cfgE.sigContainer <+: imgE.take n) := by
  rintro (h | h)
  · exact signatures_imgE.1 (h.trans (List.take_prefix _ _))
  · exact signatures_imgE.2 (h.trans (List.take_prefix _ _))

theorem refused_size : ¬AcceptedSize cfgE 0x3000 := by
  rintro (h | ⟨⟨n, h⟩, -⟩)
  · cases h
  · have h2 : 0x2000 < 2 ^ n := by omega
    have h3 : 2 ^ n < 2 ^ 14 := by omega
    have h4 := (Nat.pow_lt_pow_iff_right (show 1 < 2 by decide)).1 (show 2 ^ 13 < 2 ^ n from h2)
    have h5 := (Nat.pow_lt_pow_iff_right (show 1 < 2 by decide)).1 h3
    omega

/-- Rows 1 to 4 of 42 R132 at their boundaries: null, 0xFFF bytes, 0x1000 bytes that begin with a signature, a
refused size. -/
theorem witness_InsertOutcomesInCheckingOrder :
    sE.crashed = false ∧ bufferHolds none 9 = true ∧ bufferHolds (some (List.replicate 0xFFF 0)) 0xFFF = true ∧
    bufferHolds (some (cfgE.sigContainer ++ imgE)) 0x1000 = true ∧
    cfgE.sigContainer <+: (cfgE.sigContainer ++ imgE).take 0x1000 ∧
    bufferHolds (some imgE) 0x3000 = true ∧ ¬AcceptedSize cfgE 0x3000 ∧
    ¬(cfgE.sigSavestate <+: imgE.take 0x3000 ∨ cfgE.sigContainer <+: imgE.take 0x3000) := by
  have holds (n : Nat) (h : n ≤ 0x4000) (p : List Byte) : bufferHolds (some (p ++ imgE)) n = true := by
    have h2 := length_imgE
    simp only [bufferHolds, List.length_append, decide_eq_true_eq]
    omega
  refine ⟨rfl, rfl, by decide +kernel, holds _ (by decide) _, ?_, holds _ (by decide) [], refused_size,
    signatures_take_imgE _⟩
  rw [List.take_append]
  exact ⟨imgE.take (0x1000 - 4), rfl⟩

/-- Rows 5 to 7 of 42 R132, image E: no catalog entry, another size than the entry's, and OK. -/
theorem witness_InsertOutcomesInCheckingOrder_catalog :
    bufferHolds (some imgE) 0x4000 = true ∧ AcceptedSize cfgE 0x4000 ∧
    ¬(cfgE.sigSavestate <+: imgE.take 0x4000 ∨ cfgE.sigContainer <+: imgE.take 0x4000) ∧
    catalogEntry { cfgE with catalog := [] } (Config.fingerprint (imgE.take 0x4000)) = none ∧
    (∃ e, catalogEntry { cfgE with types := [⟨1, .fixed, 0x2000, []⟩] } (Config.fingerprint (imgE.take 0x4000)) = some e ∧
      0x4000 ≠ (typeRow { cfgE with types := [⟨1, .fixed, 0x2000, []⟩] } e.typeTag).imgSize) ∧
    (∃ e, catalogEntry cfgE (Config.fingerprint (imgE.take 0x4000)) = some e ∧
      0x4000 = (typeRow cfgE e.typeTag).imgSize) := by
  have hs := signatures_take_imgE 0x4000
  rw [List.take_of_length_le (Nat.le_of_eq length_imgE)] at *
  refine ⟨?_, accepted_imgE, hs, rfl, ⟨_, catalog_imgE, by decide⟩, ⟨_, catalog_imgE, by decide⟩⟩
  rw [bufferHolds, length_imgE]
  rfl

theorem witness_InsertMapsTheImage :
    sE.crashed = false ∧ configOk sE.cfg = true ∧ 0x4000 ≤ imgE.length ∧
    ¬(sE.cfg.sigSavestate <+: imgE.take 0x4000) ∧ ¬(sE.cfg.sigContainer <+: imgE.take 0x4000) ∧
    AcceptedSize sE.cfg 0x4000 ∧
    catalogEntry sE.cfg (Config.fingerprint (imgE.take 0x4000)) = some ⟨1, "EE16", 0, 0⟩ ∧
    0x4000 = (typeRow sE.cfg 1).imgSize := by
  rw [List.take_of_length_le (Nat.le_of_eq length_imgE)]
  exact ⟨rfl, config_cfgE, Nat.le_of_eq length_imgE.symm, signatures_imgE.1, signatures_imgE.2, accepted_imgE,
    catalog_imgE, by decide⟩

theorem witness_InsertIsIdempotent :
    configOk s0.cfg = true ∧ s0.mem.wf = true ∧ ∃ t, exec (.insert none 0) s0 = .next t :=
  ⟨test_config_ok, by decide, ran_next (by decide +kernel)⟩

theorem witness_MirroredOffsetCartridgeWindows :
    sE.crashed = false ∧ configOk sE.cfg = true ∧ imgE.length = 0x4000 ∧
    ¬(sE.cfg.sigSavestate <+: imgE) ∧ ¬(sE.cfg.sigContainer <+: imgE) ∧
    catalogEntry sE.cfg (Config.fingerprint imgE) = some ⟨1, "EE16", 0, 0⟩ ∧
    typeRow sE.cfg 1 = ⟨1, .fixed, 0x4000,
      [⟨0x0000, 0x4000, 0x2000⟩, ⟨0x0000, 0x6000, 0x2000⟩, ⟨0x0000, 0x8000, 0x2000⟩,
        ⟨0x2000, 0xA000, 0x2000⟩]⟩ :=
  ⟨rfl, config_cfgE, length_imgE, signatures_imgE.1, signatures_imgE.2, catalog_imgE, by decide⟩

theorem witness_InstallRecordsSlotAndSentinel : s0.crashed = false := rfl

theorem witness_InstallrAddsReturnOpcode : s0.crashed = false := rfl

theorem witness_UninstClearsValidOnly : s0.crashed = false := rfl

/-- V77 (the sentinel's pc wraps), V73. -/
theorem witness_FireInvokesOrCrashes :
    ({ s0 with esc := s0.esc.set 1 ⟨true, 0xFFFF, 9⟩ } : State).crashed = false ∧
    ({ s0 with esc := s0.esc.set 1 ⟨true, 0xFFFF, 9⟩ } : State).slot 1 = ⟨true, 0xFFFF, 9⟩ ∧
    (0xFFFF#16) + 2 = 0x0001 ∧ ¬((s0.slot 3).valid = true ∧ (s0.slot 3).addr + 2 = 0xE45B) := by decide +kernel

theorem witness_InstalledTrapFiresOnlyAtItsAddress :
    s0.crashed = false ∧ (∃ t, exec (.install 0xFFFF 0x01 9) s0 = .next t) ∧
    (∃ t, exec (.installr 0xFFFE 0x02 9) s0 = .next t) ∧ (0x0002#16) ≠ 0xFFFF + 2 :=
  ⟨rfl, ran_next (by decide +kernel), ran_next (by decide +kernel), by decide⟩

theorem witness_StaleSentinelCrashes :
    s0.crashed = false ∧ (0xE480#16) ≠ 0xE459 ∧ (0xE480#16) ≠ 0xE459 + 1 ∧ (0xE480#16) + 1 ≠ 0xE459 ∧
    (∃ t, exec (.install 0xE459 0x03 1) s0 = .next t) ∧
    (∃ u, exec (.install 0xE480 0x03 2) (after (.install 0xE459 0x03 1) s0) = .next u) :=
  ⟨rfl, by decide, by decide, by decide, ran_next (by decide +kernel), ran_next (by decide +kernel)⟩

theorem witness_WarmEmitsResetsAndKeepsState : s0.crashed = false := rfl

theorem witness_ColdRestoresThePowerUpMapping :
    s0.crashed = false ∧ s0.cart = none ∧ superF.crashed = false ∧ Inv superF ∧ superF.cart = some cartS :=
  ⟨rfl, rfl, rfl, inv_superF, rfl⟩

/-- No cartridge, a class that has no bank field, and the one that has. -/
theorem witness_SaveWritesTheStream :
    s0.crashed = false ∧ s0.cart = none ∧ quirkS.crashed = false ∧ quirkS.cart = some cartQ ∧ cartQ.cls ≠ .super ∧
    superS.crashed = false ∧ superS.cart = some cartS ∧ cartS.cls = .super :=
  ⟨rfl, rfl, rfl, rfl, by decide, rfl, rfl, rfl⟩

/-- V93 and V95a, V96's legacy widths; V95: one field short, an empty stream, bank 16. -/
theorem witness_LoadRestoresModeAndBank :
    s0.crashed = false ∧ s0.cartIsSuper = false ∧ ([] : Stream).map (fun f => f.width) = s0.cfg.legacy ∧
    superS.crashed = false ∧ superS.cart = some cartS ∧ cartS.cls = .super ∧ (15#8).toNat < 16 ∧
    ([⟨16, 0⟩, ⟨8, 0⟩] : Stream).map (fun f => f.width) = ({ cfg with legacy := [16, 8] } : Config).legacy ∧
    superS.cartIsSuper = true ∧ ([] : Stream).map (fun f => f.width) = superS.cfg.legacy ∧ 16 ≤ (0x10#8).toNat ∧
    ([⟨8, 1⟩, ⟨8, 2⟩] : Stream).map (fun f => f.width) <+: snapshotWidths superS ∧
    ([⟨8, 1⟩, ⟨8, 2⟩] : Stream).length < (snapshotWidths superS).length ∧
    ([] : Stream).length < (snapshotWidths s0).length :=
  ⟨rfl, rfl, rfl, rfl, rfl, rfl, by decide, rfl, rfl, rfl, by decide, ⟨[8], rfl⟩, by decide, by decide⟩

theorem witness_SaveThenLoadRestoresTheBank :
    superF.crashed = false ∧ Inv superF ∧ superF.cart = some cartS ∧ cartS.cls = .super ∧
    (∃ t, exec .save superF = .next t) ∧ (after .save superF).result = some (.stream [⟨8, 0⟩, ⟨8, 2⟩, ⟨8, 0⟩]) ∧
    ({ superF with bank := 2, mem := [] } : State).crashed = false ∧
    ({ superF with bank := 2, mem := [] } : State).cart = superF.cart ∧
    ({ superF with bank := 2, mem := [] } : State).cfg = superF.cfg ∧
    inWindow superF.cfg (0xBFFF#16).toNat = true :=
  ⟨rfl, inv_superF, rfl, rfl, ran_next (by decide +kernel), by decide +kernel, rfl, rfl, rfl, by decide⟩

theorem witness_StepKeepsTheInvariants : Inv superF ∧ ∃ t, step superF = .next t :=
  ⟨inv_superF, ran_next (by decide +kernel)⟩

theorem witness_StepKeepsTheMemoryForm :
    s0.mem.wf = true ∧ ∃ t, step { s0 with requests := [req .host 0x21000000] } = .next t := by
  exact ⟨by decide, ran_next (by decide +kernel)⟩

theorem witness_PowerOnMeetsTheMemoryForm : configOk cfg = true := test_config_ok

/-- Each clause's change happens: a field that its operation does change. -/
theorem witness_StateIsWrittenOnlyByItsOperations :
    (after (.setattr 0 0 .rom) s0).pt.tag 0 ≠ s0.pt.tag 0 ∧ (after (.ctrlw 0xFD) s0).ctrl ≠ s0.ctrl ∧
    (after (.setmode 1) s0).mode ≠ s0.mode ∧ (after .remove superS).cart ≠ superS.cart ∧
    (after .remove superS).total ≠ superS.total ∧ (after (.rd 0xD501) superS).bank ≠ superS.bank ∧
    (after (.rd 0x4FF8) quirkS).qsel0 ≠ quirkS.qsel0 ∧ (after (.rd 0x5FF9) quirkS).qsel1 ≠ quirkS.qsel1 ∧
    (after (.install 0 1 9) s0).slot 1 ≠ s0.slot 1 ∧ (after (.fire 0 1) s0).crashed ≠ s0.crashed := by
  refine ⟨by decide +kernel, by decide +kernel, by decide +kernel, ?_, by decide +kernel, by decide +kernel,
    by decide +kernel, by decide +kernel, by decide +kernel, by decide +kernel⟩
  intro h
  cases h

theorem witness_OnlyFireCrashes :
    (∃ t, exec (.fire 0x1234 0x99) s0 = .next t) ∧ s0.crashed = false ∧ (after (.fire 0x1234 0x99) s0).crashed = true :=
  ⟨ran_next (by decide +kernel), rfl, by decide +kernel⟩

theorem witness_CpuPortCannotReconfigure :
    (Instr.wr 0xD300 0xFD).port = .cpu ∧ (∃ t, exec (.wr 0xD300 0xFD) s0 = .next t) ∧
    (∀ v addr, Instr.wr 0xD300 0xFD = .wr addr v → s0.cfg.ctrlAddr ≠ some addr) := by
  refine ⟨rfl, ran_next (by decide +kernel), ?_⟩
  intro v addr h
  cases h
  decide

/-- Under REF the latch leaves the window to ADB's copies at no edge, an OS edge and an edge of an unused bit, and
not at a BASIC edge or a SELFTEST edge; a WR to CTRL_ADDR off a HARDWARE page is no control write. -/
theorem test_leavesWindow_reference :
    leavesWindow State.reset (.ctrlw 0xFF) = true ∧ leavesWindow State.reset (.ctrlw 0xFE) = true ∧
    leavesWindow State.reset (.ctrlw 0xFB) = true ∧ leavesWindow State.reset (.ctrlw 0xFD) = false ∧
    leavesWindow State.reset (.ctrlw 0x7F) = false ∧ leavesWindow State.reset (.wr 0xD301 0xFD) = true := by
  decide +kernel

theorem witness_CopiesRefineTheLookupView :
    Inv superF ∧ WindowFaithful superF ∧ leavesWindow superF (.rd 0xD50F) = true ∧
    leavesWindow superF (.setattr 0x40 0x4F .hardware) = true ∧
    leavesWindow superF (.setattr 0xC0 0xC0 .ram) = true ∧
    leavesWindow superF (.install 0x3FFE 1 9) = true ∧ leavesWindow superF (.installr 0xC000 1 9) = true ∧
    leavesWindow superF .cold = true ∧ leavesWindow superF (.wr 0xD507 0) = true ∧
    leavesWindow superF (.ctrlw 0xFE) = true ∧ leavesWindow superF (.wr 0xD301 0xFE) = true ∧
    (∃ t, exec (.rd 0xD50F) superF = .next t) ∧ ∃ t, exec (.ctrlw 0xFE) superF = .next t :=
  ⟨inv_superF, faithful_superF, rfl, by decide, by decide, by decide, by decide, by decide, by decide,
    by decide, by decide +kernel, ran_next (by decide +kernel), ran_next (by decide +kernel)⟩

theorem empty_s0 : EmptyWindow s0 where
  cart := rfl
  bytes a _ := by
    have h : s0.mem = [] := by decide +kernel
    rw [h, Memory.read_nil]
    rfl
  tags := by decide +kernel

theorem witness_EmptyWindowStaysEmpty :
    Inv s0 ∧ EmptyWindow s0 ∧ leavesWindow s0 (.setattr 0x00 0x3F .rom) = true ∧
    (∀ first last kind, Instr.setattr 0x00 0x3F .rom = .setattr first last kind →
      pagesApart s0.cfg first last = true) ∧
    (∃ t, exec (.setattr 0x00 0x3F .rom) s0 = .next t) ∧ (after (.setattr 0x00 0x3F .rom) s0).cart = none ∧
    s0.crashed = false ∧ ∃ t, exec .remove s0 = .next t := by
  refine ⟨inv_s0, empty_s0, by decide, ?_, ran_next (by decide +kernel), rfl, rfl, ran_next (by decide +kernel)⟩
  intro first last kind h
  cases h
  decide

theorem witness_PowerOnState : configOk cfg = true := test_config_ok

end Sys2Proof.Tests
end

section
/-! PROOFS. ADB's state (spec 10_state.md): what an operation leaves, the invariants (R26), MEM's canonical form (R12),
which operations write which piece of state (R11 to R19) and the empty window (R26 item 7). -/

namespace Sys2Proof.Machine

/-! ### What an operation leaves -/

/-- The state an operation leaves when it is neither refused nor stopped, but for the result it reports. -/
def effect (i : Instr) (s : State) : State :=
  match i with
  | .rd addr => (busRead addr s).2
  | .wr addr val => busWrite addr val s
  | .setattr first last kind => { s with pt := s.pt.setRange first last kind }
  | .ctrlw v => ctrlUpdate v s
  | .setmode v => { s with mode := v }
  | .insert bytes size =>
    match identify s.cfg bytes size with
    | .error _ => doRemove s
    | .ok c => activate c (doRemove s)
  | .remove => doRemove s
  | .install addr code h => plantTrap addr code h s
  | .installr addr code h => (plantTrap addr code h s).poke (addr + 2) s.cfg.retOp
  | .uninst code => s.setSlot code { s.slot code with valid := false }
  | .fire pc code =>
    if slotMatches (s.slot code) pc then s.emit (.invoke (s.slot code).handler) else s.raiseCrash
  | .warm => resetLines s
  | .cold =>
    let u := remap (resetLines s)
    keyHoldRequest (u.poke u.cfg.coldAddr u.cfg.coldVal)
  | .save => s
  | .load stream => (loadStream stream s).getD s

/-- While crashed every operation is refused (60 R191). -/
theorem exec_crashed (i : Instr) {s : State} (hc : s.crashed = true) :
    exec i s = .next (s.refuse .machineCrashed) := by
  cases i <;>
    simp only [exec, execRd, execWr, execSetattr, execCtrlw, execSetmode, execInsert, execRemove, execInstall,
      execInstallr, execUninst, execFire, execWarm, execCold, execSave, execLoad, operate_crashed hc]

/-- A running operation with legal operands finishes in its effect; a LOAD whose stream does not serve reports that,
and changes nothing (60 R195, 44 R175). -/
theorem exec_running {i : Instr} {s : State} (hc : s.crashed = false) (hw : i.wf = true) :
    ∃ r, exec i s = (effect i s.opened).finish r := by
  cases i with
  | insert bytes size =>
    have hb : bufferHolds bytes size = true := hw
    simp only [exec, execInsert, operate_running hc, hb, if_true, effect]
    cases identify s.opened.cfg bytes size with
    | error r => exact ⟨r, rfl⟩
    | ok c => exact ⟨.ok, rfl⟩
  | fire pc code =>
    simp only [exec, execFire, operate_running hc, effect]
    split
    · exact ⟨_, rfl⟩
    · exact ⟨_, rfl⟩
  | load stream =>
    simp only [exec, execLoad, operate_running hc, effect]
    cases loadStream stream s.opened with
    | none => exact ⟨.refused .snapshotMismatch, rfl⟩
    | some t => exact ⟨.ok, rfl⟩
  | _ =>
    simp only [exec, execRd, execWr, execSetattr, execCtrlw, execSetmode, execRemove, execInstall,
      execInstallr, execUninst, execWarm, execCold, execSave, operate_running hc, effect]
    exact ⟨_, rfl⟩

/-- Only INSERT has operands that are not legal; running, it stops on them (log 12). -/
theorem exec_illegal {i : Instr} {s : State} (hc : s.crashed = false) (hw : i.wf = false) :
    exec i s = .fault .bufferShorterThanSize := by
  cases i with
  | insert bytes size =>
    have hb : bufferHolds bytes size = false := hw
    simp only [exec, execInsert, operate_running hc, hb]
    rfl
  | _ => cases hw

/-- THE INVERSION OF EXEC: an operation that answers a next state is refused while crashed, or its operands are legal
and the next state is its effect with a result recorded (60 R191, R195). -/
theorem exec_next {i : Instr} {s t : State} (h : exec i s = .next t) :
    (s.crashed = true ∧ t = s.refuse .machineCrashed) ∨
      (s.crashed = false ∧ i.wf = true ∧ ∃ r, t = { effect i s.opened with result := some r }) := by
  cases hc : s.crashed with
  | true =>
    rw [exec_crashed i hc] at h
    exact Or.inl ⟨rfl, (Host.Outcome.next.inj h).symm⟩
  | false =>
    cases hw : i.wf with
    | true =>
      obtain ⟨r, he⟩ := exec_running hc hw
      rw [he] at h
      exact Or.inr ⟨rfl, rfl, r, (Host.Outcome.next.inj h).symm⟩
    | false =>
      rw [exec_illegal hc hw] at h
      cases h

/-- THE INDUCTION STEP OF AN INVARIANT: a property that does not look at the queue, the result and the outputs, and
that the effect of every operation with legal operands keeps, is kept by every step. -/
theorem step_keeps {P : State → Prop}
    (reports : ∀ (s : State) (q : List Request) (r : Option Result) (o : List Signal),
      P s → P { s with requests := q, result := r, outputs := o })
    (keeps : ∀ (i : Instr) (s : State), i.wf = true → P s → P (effect i s))
    {s t : State} (hs : P s) (h : step s = .next t) : P t := by
  obtain ⟨-, hstep⟩ := step_cases h
  rcases hstep with ⟨-, rfl⟩ | ⟨r, rest, reason, -, -, rfl⟩ | ⟨r, rest, i, -, -, he⟩
  · exact hs
  · exact reports s rest _ _ hs
  · rcases exec_next he with ⟨-, rfl⟩ | ⟨-, hw, res, rfl⟩
    · exact reports s rest _ _ hs
    · exact reports _ _ (some res) _ (keeps i _ hw (reports s rest s.result [] hs))

/-! ### What the shared operations write -/

/-- The trigger writes BANK, the selectors and MEM only (40 R84). -/
theorem cartTrigger_frame (addr : Addr) (s : State) :
    ∃ bank q0 q1 mem, cartTrigger addr s = { s with bank := bank, qsel0 := q0, qsel1 := q1, mem := mem } := by
  rcases cartTrigger_cases addr s with he | ⟨c, b, -, -, -, -, he⟩ | ⟨c, r, k, -, -, -, he⟩
  · exact ⟨_, _, _, _, he⟩
  · exact ⟨_, _, _, _, he⟩
  · exact ⟨_, _, _, _, he⟩

/-- A bus read writes BANK, the selectors and MEM, and emits (40 R80). -/
theorem busRead_frame (addr : Addr) (s : State) :
    ∃ bank q0 q1 mem out hist, (busRead addr s).2 =
      { s with bank := bank, qsel0 := q0, qsel1 := q1, mem := mem, outputs := out, history := hist } := by
  rcases busRead_state addr s with he | ⟨ch, he⟩ | he
  · exact ⟨_, _, _, _, _, _, he⟩
  · exact ⟨_, _, _, _, _, _, he⟩
  · obtain ⟨b, q0, q1, m, ht⟩ := cartTrigger_frame addr s
    exact ⟨b, q0, q1, m, _, _, he.trans ht⟩

/-- A bus write writes what a bus read writes, or, at CTRL_ADDR, MEM, PT and CTRL (40 R81, 41 R104). -/
theorem busWrite_frame (addr : Addr) (val : Byte) (s : State) :
    (∃ bank q0 q1 mem out hist, busWrite addr val s =
      { s with bank := bank, qsel0 := q0, qsel1 := q1, mem := mem, outputs := out, history := hist }) ∨
    (s.cfg.ctrlAddr = some addr ∧ ∃ mem pt out hist, busWrite addr val s =
      { s with mem := mem, pt := pt, ctrl := val, outputs := out, history := hist }) := by
  rcases busWrite_state addr val s with he | ⟨-, he⟩ | ⟨-, ch, he⟩ | he
  · exact Or.inl ⟨_, _, _, _, _, _, he⟩
  · exact Or.inl ⟨_, _, _, _, _, _, he⟩
  · rcases ctrlSnoop_cases addr val (s.emit (.chipPut ch addr val)) with ⟨ha, hs⟩ | ⟨-, hs⟩
    · obtain ⟨m, p, hu⟩ := ctrlUpdate_frame val (s.emit (.chipPut ch addr val))
      exact Or.inr ⟨ha, m, p, _, _, he.trans (hs.trans hu)⟩
    · exact Or.inl ⟨_, _, _, _, _, _, he.trans hs⟩
  · obtain ⟨b, q0, q1, m, ht⟩ := cartTrigger_frame addr s
    exact Or.inl ⟨b, q0, q1, m, _, _, he.trans ht⟩

/-- A cartridge made active on an empty slot: the cartridge fields, MEM and PT (42 R120). -/
theorem activate_frame (c : Cartridge) (s : State) :
    ∃ mem pt, activate c (doRemove s) =
      { s with cart := some c, bank := powerUpBank s.cfg c.cls, total := totalOf c.cls, qsel0 := 0, qsel1 := 0,
               mem := mem, pt := pt } := by
  unfold activate
  rw [powerUpMap_eq c _ rfl rfl]
  exact ⟨_, _, rfl⟩

/-- COLD's second step writes BANK, the selectors, MEM and PT only (44 R171). -/
theorem remap_frame (s : State) :
    ∃ bank q0 q1 mem pt, remap s = { s with bank := bank, qsel0 := q0, qsel1 := q1, mem := mem, pt := pt } := by
  unfold remap
  split
  · exact ⟨_, _, _, _, _, rfl⟩
  · rename_i c _
    obtain ⟨m, q0, q1, hp⟩ := powerUpMap_frame c s
    rw [hp]
    exact ⟨_, _, _, _, _, rfl⟩

/-- LOAD writes nothing on a stream that does not serve, and otherwise MODE and a SUPER cartridge's bank (44 R175). -/
theorem loadStream_cases (stream : Stream) (s : State) :
    loadStream stream s = none ∨ (∃ m, loadStream stream s = some { s with mode := m }) ∨
      ∃ (m : Byte) (c : Cartridge) (b : Fin 16), s.cart = some c ∧ c.cls = .super ∧
        loadStream stream s = some (copyBank c b.val { s with mode := m }) := by
  unfold loadStream
  split
  · exact Or.inl rfl
  · rename_i m rest _
    split
    · exact Or.inr (Or.inl ⟨m, rfl⟩)
    · rename_i c hc
      split
      · rename_i hs
        split
        · exact Or.inl rfl
        · rename_i b _
          exact Or.inr (Or.inr ⟨m, c, b, hc, hs, rfl⟩)
      · exact Or.inr (Or.inl ⟨m, rfl⟩)

/-! ### The invariants (10 R26 items 1 to 4) -/

/-- The invariants of a state with no cartridge. -/
theorem inv_of_no_cartridge {s : State} (hk : configOk s.cfg = true) (hc : s.cart = none) (hb : s.bank = 0)
    (ht : s.total = 1) (h0 : s.qsel0 = 0) (h1 : s.qsel1 = 0) : Inv s where
  config := hk
  bank := by omega
  noCart _ := ⟨hb, ht, h0, h1⟩
  cart c h := by simp [hc] at h
  total c h := by simp [hc] at h
  superCart c h := by simp [hc] at h
  selectors c h := by simp [hc] at h
  bankZero c h := by simp [hc] at h

/-- The power-up bank is below TOTAL (10 R16). -/
theorem powerUpBank_lt_totalOf (cfg : Config) (cls : CartClass) : powerUpBank cfg cls < totalOf cls := by
  cases cls with
  | super => exact cfg.powerupBank.isLt
  | fixed | quirkA | quirkB => exact Nat.zero_lt_succ _

theorem powerUpBank_eq_zero (cfg : Config) {cls : CartClass} (h : cls ≠ .super) : powerUpBank cfg cls = 0 := by
  cases cls with
  | super => exact absurd rfl h
  | _ => rfl

/-- The invariants of a state whose cartridge stands at its power-up mapping. -/
theorem inv_of_power_up {s : State} {c : Cartridge} (hk : configOk s.cfg = true) (hc : s.cart = some c)
    (hb : s.bank = powerUpBank s.cfg c.cls) (ht : s.total = totalOf c.cls) (h0 : s.qsel0 = 0) (h1 : s.qsel1 = 0)
    (himg : c.imgLen = (typeRow s.cfg c.typeTag).imgSize ∧ c.cls = (typeRow s.cfg c.typeTag).cls
      ∧ c.img.length = c.imgLen ∧ c.typeTag ≠ 0)
    (hs : c.cls = .super → c.imgLen = 16 * 0x8000 ∧ winLen s.cfg = 0x8000) : Inv s := by
  have only {d : Cartridge} (hd : s.cart = some d) : d = c := Option.some.inj (hd.symm.trans hc)
  exact {
    config := hk
    bank := by rw [hb, ht]; exact powerUpBank_lt_totalOf _ _
    noCart := fun hn => by simp [hc] at hn
    cart := fun d hd => only hd ▸ himg
    total := fun d hd => only hd ▸ ht
    superCart := fun d hd hsup => by
      obtain rfl := only hd
      rw [ht, hsup]
      exact ⟨rfl, hs hsup⟩
    selectors := fun _ _ _ => ⟨h0, h1⟩
    bankZero := fun d hd hn => by
      obtain rfl := only hd
      rw [hb, powerUpBank_eq_zero _ hn] }

theorem inv_powerOn {cfg : Config} (hk : configOk cfg = true) : Inv (State.powerOn cfg) :=
  inv_of_no_cartridge hk rfl rfl rfl rfl rfl

theorem inv_doRemove {s : State} (hk : configOk s.cfg = true) : Inv (doRemove s) :=
  inv_of_no_cartridge hk rfl rfl rfl rfl rfl

/-- A SUPER type's image is 16 banks of 32KiB (42 R124). -/
theorem imgSize_of_super {cfg : Config} (hk : configOk cfg = true) {t : Byte} (hs : (typeRow cfg t).cls = .super) :
    (typeRow cfg t).imgSize = 16 * 0x8000 := by
  rcases typeRowOk_of_configOk hk t with hr | hr
  · obtain ⟨-, hsize, -⟩ := (typeRowOk_iff cfg _).1 hr
    exact hsize hs
  · rw [hr] at hs
    cases hs

/-- A catalog entry's tag is not 0 (30 R67). -/
theorem typeTag_ne_zero_of_catalogEntry {cfg : Config} (hk : configOk cfg = true) {fp : Fingerprint}
    {e : CatalogEntry} (h : catalogEntry cfg fp = some e) : e.typeTag ≠ 0 := by
  obtain ⟨x, hx, rfl⟩ := Option.map_eq_some_iff.1 h
  obtain ⟨hwf, -⟩ := (configOk_iff_wellFormed cfg).1 hk
  exact hwf.tags x (List.mem_of_find?_eq_some hx)

/-- A successful INSERT meets the invariants: its checks say of the cartridge what R26 items 3 and 4 say. -/
theorem inv_activate {s : State} (hk : configOk s.cfg = true) {bytes : Option (List Byte)} {size : Nat}
    (hb : bufferHolds bytes size = true) {c : Cartridge} (hi : identify s.cfg bytes size = .ok c) :
    Inv (activate c (doRemove s)) := by
  obtain ⟨hcls, hwin⟩ := cls_of_identify hk hi
  obtain ⟨bs, e, rfl, hcat, hsize, rfl⟩ := identify_eq_ok hi
  have hlen : (bs.take size).length = size := by
    rw [List.length_take, Nat.min_eq_left (of_decide_eq_true hb)]
  obtain ⟨m, p, ha⟩ := activate_frame (makeCartridge s.cfg (bs.take size) size e) s
  rw [ha]
  refine inv_of_power_up hk rfl rfl rfl rfl rfl
    ⟨hsize, rfl, hlen, typeTag_ne_zero_of_catalogEntry hk hcat⟩ fun hs => ⟨?_, hwin hs⟩
  exact hsize.trans (imgSize_of_super hk hs)

theorem inv_busRead {s : State} (h : Inv s) (addr : Addr) : Inv (busRead addr s).2 := by
  rcases busRead_state addr s with he | ⟨ch, he⟩ | he
  · rw [he]
    exact h
  · rw [he]
    exact h.congr rfl rfl rfl rfl rfl rfl
  · rw [he]
    exact h.cartTrigger addr

theorem inv_ctrlUpdate {s : State} (h : Inv s) (v : Byte) : Inv (ctrlUpdate v s) := by
  obtain ⟨m, p, hu⟩ := ctrlUpdate_frame v s
  rw [hu]
  exact h.congr rfl rfl rfl rfl rfl rfl

theorem inv_ctrlSnoop {s : State} (h : Inv s) (addr : Addr) (v : Byte) : Inv (ctrlSnoop addr v s) := by
  rcases ctrlSnoop_cases addr v s with ⟨-, hs⟩ | ⟨-, hs⟩
  · rw [hs]
    exact inv_ctrlUpdate h v
  · rw [hs]
    exact h

theorem inv_busWrite {s : State} (h : Inv s) (addr : Addr) (val : Byte) : Inv (busWrite addr val s) := by
  rcases busWrite_state addr val s with he | ⟨-, he⟩ | ⟨-, ch, he⟩ | he
  · rw [he]
    exact h
  · rw [he]
    exact h.congr rfl rfl rfl rfl rfl rfl
  · rw [he]
    have hp : Inv (s.emit (.chipPut ch addr val)) := h.congr rfl rfl rfl rfl rfl rfl
    exact inv_ctrlSnoop hp addr val
  · rw [he]
    exact h.cartTrigger addr

/-- COLD's second step puts an inserted cartridge back to its power-up mapping (44 R171). -/
theorem inv_remap {s : State} (h : Inv s) : Inv (remap s) := by
  cases hc : s.cart with
  | none =>
    rw [remap_none hc]
    exact h
  | some c =>
    rw [remap_some hc (h.selectors c hc)]
    exact inv_of_power_up h.config hc rfl (h.total c hc) rfl rfl (h.cart c hc) fun hs => (h.superCart c hc hs).2

theorem inv_loadStream {s : State} (h : Inv s) (stream : Stream) : Inv ((loadStream stream s).getD s) := by
  rcases loadStream_cases stream s with hl | ⟨m, hl⟩ | ⟨m, c, b, hc, hs, hl⟩
  · rw [hl]
    exact h
  · rw [hl]
    exact h.congr rfl rfl rfl rfl rfl rfl
  · rw [hl]
    have hm : Inv { s with mode := m } := h.congr rfl rfl rfl rfl rfl rfl
    exact hm.copyBank hc hs b

theorem inv_resetLines {s : State} (h : Inv s) : Inv (resetLines s) := by
  rw [resetLines_eq]
  exact h.congr rfl rfl rfl rfl rfl rfl

/-- Every operation with legal operands keeps the invariants. -/
theorem inv_effect {i : Instr} {s : State} (hw : i.wf = true) (h : Inv s) : Inv (effect i s) := by
  cases i with
  | rd addr => exact inv_busRead h addr
  | wr addr val => exact inv_busWrite h addr val
  | ctrlw v => exact inv_ctrlUpdate h v
  | insert bytes size =>
    simp only [effect]
    split
    · exact inv_doRemove h.config
    · exact inv_activate h.config hw ‹_›
  | remove => exact inv_doRemove h.config
  | fire pc code =>
    simp only [effect]
    split
    · exact h.congr rfl rfl rfl rfl rfl rfl
    · exact h.congr rfl rfl rfl rfl rfl rfl
  | warm => exact inv_resetLines h
  | cold =>
    have hr : Inv (remap (resetLines s)) := inv_remap (inv_resetLines h)
    simp only [effect, keyHoldRequest_eq]
    exact hr.congr rfl rfl rfl rfl rfl rfl
  | load stream => exact inv_loadStream h stream
  | setattr | setmode | install | installr | uninst | save => exact h.congr rfl rfl rfl rfl rfl rfl

/-- Settles O40: the invariants do not look at the queue or the reports, and every effect keeps them. -/
theorem stepKeepsTheInvariants : Obligations.StepKeepsTheInvariants := fun _ _ =>
  step_keeps (fun _ _ _ _ h => h.congr rfl rfl rfl rfl rfl rfl) fun _ _ => inv_effect

/-- The reference configuration passes the check of 70 R215 (log 2). -/
theorem configOk_referenceConfig : configOk referenceConfig = true := by decide +kernel

/-- Settles O41: the reference configuration passes its check, and power-on inserts no cartridge. -/
theorem resetMeetsTheInvariants : Obligations.ResetMeetsTheInvariants := inv_powerOn configOk_referenceConfig

/-! ### MEM's canonical form (10 R12, log 3) -/

theorem wf_cartTrigger {s : State} (h : s.mem.wf = true) (addr : Addr) : (cartTrigger addr s).mem.wf = true := by
  rcases cartTrigger_cases addr s with he | ⟨c, b, -, -, -, -, he⟩ | ⟨c, r, k, -, -, -, he⟩
  · rw [he]
    exact h
  · rw [he, copyBank_mem]
    exact Memory.wf_overwrite h _ _
  · rw [he, copySlice_mem]
    exact Memory.wf_overwrite h _ _

theorem wf_busRead {s : State} (h : s.mem.wf = true) (addr : Addr) : (busRead addr s).2.mem.wf = true := by
  rcases busRead_state addr s with he | ⟨ch, he⟩ | he
  · rw [he]
    exact h
  · rw [he]
    exact h
  · rw [he]
    exact wf_cartTrigger h addr

theorem wf_busWrite {s : State} (h : s.mem.wf = true) (addr : Addr) (val : Byte) :
    (busWrite addr val s).mem.wf = true := by
  rcases busWrite_state addr val s with he | ⟨-, he⟩ | ⟨-, ch, he⟩ | he
  · rw [he]
    exact h
  · rw [he]
    exact Memory.wf_write h addr val
  · rw [he]
    exact wf_ctrlSnoop (s := s.emit (.chipPut ch addr val)) h addr val
  · rw [he]
    exact wf_cartTrigger h addr

theorem wf_plantTrap {s : State} (hm : s.mem.wf = true) (addr : Addr) (code : Byte) (h : Handler) :
    (plantTrap addr code h s).mem.wf = true := by
  rw [plantTrap_mem]
  exact Memory.wf_write (Memory.wf_write hm _ _) _ _

theorem wf_remap {s : State} (h : s.mem.wf = true) : (remap s).mem.wf = true := by
  unfold remap
  split
  · exact h
  · exact wf_powerUpMap h _

theorem wf_loadStream {s : State} (h : s.mem.wf = true) (stream : Stream) :
    ((loadStream stream s).getD s).mem.wf = true := by
  rcases loadStream_cases stream s with hl | ⟨m, hl⟩ | ⟨m, c, b, -, -, hl⟩
  · rw [hl]
    exact h
  · rw [hl]
    exact h
  · rw [hl, Option.getD_some, copyBank_mem]
    exact Memory.wf_overwrite h _ _

/-- Every operation keeps MEM's canonical form. -/
theorem wf_effect (i : Instr) {s : State} (h : s.mem.wf = true) : (effect i s).mem.wf = true := by
  cases i with
  | rd addr => exact wf_busRead h addr
  | wr addr val => exact wf_busWrite h addr val
  | ctrlw v => exact wf_ctrlUpdate h v
  | insert bytes size =>
    simp only [effect]
    split
    · exact wf_doRemove h
    · exact wf_activate (wf_doRemove h) _
  | remove => exact wf_doRemove h
  | install addr code hd => exact wf_plantTrap h addr code hd
  | installr addr code hd =>
    simp only [effect, poke_mem]
    exact Memory.wf_write (wf_plantTrap h addr code hd) _ _
  | fire pc code =>
    simp only [effect]
    split
    · exact h
    · exact h
  | warm =>
    simp only [effect, resetLines_mem]
    exact h
  | cold =>
    simp only [effect, keyHoldRequest_eq, poke_mem]
    refine Memory.wf_write (wf_remap ?_) _ _
    rw [resetLines_mem]
    exact h
  | load stream => exact wf_loadStream h stream
  | setattr | setmode | uninst | save => exact h

/-- Settles O42: every operation changes MEM by copies, fills and writes only, and each keeps the form. -/
theorem stepKeepsTheMemoryForm : Obligations.StepKeepsTheMemoryForm := fun _ _ =>
  step_keeps (P := fun s => s.mem.wf = true) (fun _ _ _ _ h => h) fun i _ _ h => wf_effect i h

/-- What power-on does of one overlay keeps the form (70 R210). -/
theorem wf_enabledOverlay {m : Memory} (h : m.wf = true) (o : Overlay) (latch : Byte) :
    (if overlayOn o latch then copyRom o.ranges o.rom m else m).wf = true := by
  split
  · exact wf_copyRom h _ _
  · exact h

/-- MEM_INIT is in the form by the configuration's check; power-on clears the window and copies ROM (70 R210). -/
theorem wf_powerOn {cfg : Config} (hk : configOk cfg = true) : (State.powerOn cfg).mem.wf = true := by
  obtain ⟨-, -, hinit⟩ := (configOk_iff_wellFormed cfg).1 hk
  exact wf_enabledOverlay (wf_enabledOverlay (wf_enabledOverlay (wf_clearWindow hinit cfg) _ _) _ _) _ _

/-- Settles O43: `wf_powerOn`, and the reference configuration is one that passes its check. -/
theorem powerOnMeetsTheMemoryForm : Obligations.PowerOnMeetsTheMemoryForm :=
  ⟨fun _ => wf_powerOn, wf_powerOn configOk_referenceConfig⟩

/-! ### Which operations write which piece of state (10 R11 to R19, R25, 20 R40) -/

/-- Settles O44: each operation writes the fields of its frame and no other. -/
theorem stateIsWrittenOnlyByItsOperations : Obligations.StateIsWrittenOnlyByItsOperations := by
  intro i s t h
  rcases exec_next h with ⟨-, rfl⟩ | ⟨-, -, r, rfl⟩
  · simp
  · cases i with
    | rd addr =>
      obtain ⟨b, q0, q1, m, o, g, he⟩ := busRead_frame addr s.opened
      simp [effect, he]
    | wr addr val =>
      rcases busWrite_frame addr val s.opened with ⟨b, q0, q1, m, o, g, he⟩ | ⟨ha, m, p, o, g, he⟩
      · simp [effect, he]
      · rw [opened_cfg] at ha
        simp [effect, he, ha]
    | ctrlw v =>
      obtain ⟨m, p, he⟩ := ctrlUpdate_frame v s.opened
      simp [effect, he]
    | insert bytes size =>
      simp only [effect]
      split
      · simp
      · rename_i c _
        obtain ⟨m, p, he⟩ := activate_frame c s.opened
        simp [he]
    | fire pc code =>
      simp only [effect]
      split
      · simp
      · simp
    | cold =>
      obtain ⟨b, q0, q1, m, p, he⟩ := remap_frame (resetLines s.opened)
      simp [effect, keyHoldRequest_eq, he]
    | load stream =>
      rcases loadStream_cases stream s.opened with he | ⟨m, he⟩ | ⟨m, c, b, -, -, he⟩
      · simp [effect, he]
      · simp [effect, he]
      · simp [effect, he]
    | setattr | setmode | remove | install | installr | uninst | warm | save => simp [effect]

/-! ### The empty window (10 R26 item 7) -/

/-- Only CART, MEM and PT decide whether the window is empty. -/
theorem EmptyWindow.congr {s t : State} (h : EmptyWindow s) (hcfg : t.cfg = s.cfg) (hcart : t.cart = none)
    (hmem : ∀ a : Addr, inWindow s.cfg a.toNat = true → t.mem.read a.toNat = s.mem.read a.toNat)
    (hpt : ∀ p : Byte, (winFirstPage s.cfg).toNat ≤ p.toNat → p.toNat ≤ (winLastPage s.cfg).toNat →
      t.pt.tag p = s.pt.tag p) : EmptyWindow t where
  cart := hcart
  bytes a ha := by
    rw [hcfg] at ha
    exact (hmem a ha).trans (h.bytes a ha)
  tags p h1 h2 := by
    rw [hcfg] at h1 h2
    exact (hpt p h1 h2).trans (h.tags p h1 h2)

/-- A state that differs in neither CART, MEM, PT nor CFG has an empty window too. -/
theorem EmptyWindow.same {s t : State} (h : EmptyWindow s) (hcfg : t.cfg = s.cfg) (hcart : t.cart = s.cart)
    (hmem : t.mem = s.mem) (hpt : t.pt = s.pt) : EmptyWindow t :=
  h.congr hcfg (hcart.trans h.cart) (fun a _ => by rw [hmem]) fun p _ _ => by rw [hpt]

/-- A byte stored outside the window leaves it empty. -/
theorem EmptyWindow.write {s t : State} (h : EmptyWindow s) {addr : Addr} {v : Byte}
    (ha : inWindow s.cfg addr.toNat = false) (hcfg : t.cfg = s.cfg) (hcart : t.cart = s.cart)
    (hmem : t.mem = s.mem.write addr v) (hpt : t.pt = s.pt) : EmptyWindow t :=
  h.congr hcfg (hcart.trans h.cart)
    (fun a hw => by
      rw [hmem, Memory.read_write, if_neg]
      rintro rfl
      rw [hw] at ha
      cases ha)
    fun p _ _ => by rw [hpt]

theorem emptyWindow_doRemove (s : State) : EmptyWindow (doRemove s) where
  cart := rfl
  bytes a ha := by
    rw [doRemove_cfg] at ha
    rw [doRemove_mem, read_clearWindow, if_pos ha]
  tags p h1 h2 := by
    rw [doRemove_cfg] at h1 h2
    rw [doRemove_pt, tag_sealWindow, if_pos ⟨h1, h2⟩]

/-- A range apart from the window holds no window page. -/
theorem not_mem_of_pagesApart {cfg : Config} {first last p : Byte} (h : pagesApart cfg first last = true)
    (h1 : (winFirstPage cfg).toNat ≤ p.toNat) (h2 : p.toNat ≤ (winLastPage cfg).toNat) :
    ¬(first.toNat ≤ p.toNat ∧ p.toNat ≤ last.toNat) := by
  simp only [pagesApart, Bool.or_eq_true, decide_eq_true_eq] at h
  omega

/-- An overlay apart from the window covers no window page. -/
theorem overlayCovers_of_overlayApart {cfg : Config} {o : Overlay} {p : Byte} (h : overlayApart cfg o = true)
    (h1 : (winFirstPage cfg).toNat ≤ p.toNat) (h2 : p.toNat ≤ (winLastPage cfg).toNat) :
    overlayCovers o p = false := by
  simp only [overlayCovers, List.any_eq_false, Bool.and_eq_true, decide_eq_true_eq]
  exact fun r hr => not_mem_of_pagesApart (List.all_eq_true.1 h r hr) h1 h2

/-- With its edges apart, each overlay's bit stays or the overlay covers no window page (41 R102). -/
theorem edgesApart_cases {s : State} {v p : Byte} (h : edgesApart s v = true)
    (h1 : (winFirstPage s.cfg).toNat ≤ p.toNat) (h2 : p.toNat ≤ (winLastPage s.cfg).toNat) :
    ∀ o ∈ [s.cfg.ovlOs, s.cfg.ovlBasic, s.cfg.ovlSelftest],
      v.getLsbD o.bit.val = s.ctrl.getLsbD o.bit.val ∨ overlayCovers o p = false := by
  intro o ho
  have := List.all_eq_true.1 h o ho
  rw [Bool.or_eq_true, Bool.not_eq_true', edgeOn, bne_eq_false_iff_eq] at this
  exact this.imp_right fun ha => overlayCovers_of_overlayApart ha h1 h2

/-- A control write whose edges lie apart from the window writes no window byte (41 R102). -/
theorem read_ctrlUpdate_window {s : State} (hk : configOk s.cfg = true) {v : Byte} (h : edgesApart s v = true)
    {a : Addr} (ha : inWindow s.cfg a.toNat = true) :
    (ctrlUpdate v s).mem.read a.toNat = s.mem.read a.toNat := by
  obtain ⟨h1, h2⟩ := page_of_window ha
  have hno := edgesApart_cases h h1 h2
  rw [read_ctrlUpdate v s hk, overlayByte, if_pos (hno _ (by simp)), overlayByte, if_pos (hno _ (by simp)),
    overlayByte, if_pos (hno _ (by simp))]

/-- A control write whose edges lie apart from the window tags no window page (41 R102). -/
theorem tag_ctrlUpdate_window {s : State} {v p : Byte} (h : edgesApart s v = true)
    (h1 : (winFirstPage s.cfg).toNat ≤ p.toNat) (h2 : p.toNat ≤ (winLastPage s.cfg).toNat) :
    (ctrlUpdate v s).pt.tag p = s.pt.tag p := by
  have hno := edgesApart_cases h h1 h2
  rw [tag_ctrlUpdate, overlayTag, if_pos (hno _ (by simp)), overlayTag, if_pos (hno _ (by simp)),
    overlayTag, if_pos (hno _ (by simp))]

theorem emptyWindow_ctrlUpdate {s : State} (h : EmptyWindow s) (hk : configOk s.cfg = true) {v : Byte}
    (he : edgesApart s v = true) : EmptyWindow (ctrlUpdate v s) := by
  obtain ⟨m, p, hu⟩ := ctrlUpdate_frame v s
  exact h.congr (by rw [hu]) (by rw [hu]; exact h.cart) (fun a => read_ctrlUpdate_window hk he)
    fun p => tag_ctrlUpdate_window he

theorem cartTrigger_none {s : State} (h : s.cart = none) (addr : Addr) : cartTrigger addr s = s := by
  rw [cartTrigger, h]

theorem emptyWindow_busRead {s : State} (h : EmptyWindow s) (addr : Addr) : EmptyWindow (busRead addr s).2 := by
  rcases busRead_state addr s with he | ⟨ch, he⟩ | he
  · rw [he]
    exact h
  · rw [he]
    exact h.same rfl rfl rfl rfl
  · rw [he, cartTrigger_none h.cart]
    exact h

/-- A bus write stores into RAM pages only, and the window's are ROM; at CTRL_ADDR the edges decide (40 R81,
41 R104). -/
theorem emptyWindow_busWrite {s : State} (h : EmptyWindow s) (hk : configOk s.cfg = true) {addr : Addr} {val : Byte}
    (hl : leavesWindow s (.wr addr val) = true) : EmptyWindow (busWrite addr val s) := by
  rcases busWrite_state addr val s with he | ⟨hram, he⟩ | ⟨hhw, ch, he⟩ | he
  · rw [he]
    exact h
  · have ha : inWindow s.cfg addr.toNat = false := by
      rw [Bool.eq_false_iff]
      intro ha
      obtain ⟨h1, h2⟩ := page_of_window ha
      rw [h.tags _ h1 h2] at hram
      cases hram
    rw [he]
    exact h.write ha rfl rfl rfl rfl
  · have hput : EmptyWindow (s.emit (.chipPut ch addr val)) := h.same rfl rfl rfl rfl
    rcases ctrlSnoop_cases addr val (s.emit (.chipPut ch addr val)) with ⟨ha, hs⟩ | ⟨-, hs⟩
    · rw [emit_cfg] at ha
      simp only [leavesWindow, ha, hhw, ne_eq, not_true_eq_false, decide_false, bne_self_eq_false,
        Bool.false_or] at hl
      rw [he, hs]
      exact emptyWindow_ctrlUpdate hput hk hl
    · rw [he, hs]
      exact hput
  · rw [he, cartTrigger_none h.cart]
    exact h

/-- A trap planted outside the window leaves it empty (43 R151). -/
theorem emptyWindow_plantTrap {s : State} (h : EmptyWindow s) {addr : Addr} (code : Byte) (hd : Handler)
    (h1 : inWindow s.cfg addr.toNat = false) (h2 : inWindow s.cfg (addr + 1).toNat = false) :
    EmptyWindow (plantTrap addr code hd s) := by
  have hslot : EmptyWindow ((s.setSlot code ⟨true, addr, hd⟩).poke addr s.cfg.escOp) :=
    h.write h1 rfl rfl rfl rfl
  exact hslot.write h2 rfl rfl rfl rfl

theorem emptyWindow_loadStream {s : State} (h : EmptyWindow s) (stream : Stream) :
    EmptyWindow ((loadStream stream s).getD s) := by
  rcases loadStream_cases stream s with hl | ⟨m, hl⟩ | ⟨m, c, b, hc, -, -⟩
  · rw [hl]
    exact h
  · rw [hl]
    exact h.same rfl rfl rfl rfl
  · rw [h.cart] at hc
    cases hc

theorem emptyWindow_resetLines {s : State} (h : EmptyWindow s) : EmptyWindow (resetLines s) := by
  rw [resetLines_eq]
  exact h.same rfl rfl rfl rfl

/-- Every operation that leaves the window, and inserts nothing, leaves an empty window empty. -/
theorem emptyWindow_effect {i : Instr} {s : State} (hk : configOk s.cfg = true) (h : EmptyWindow s)
    (hl : leavesWindow s i = true)
    (hset : ∀ first last kind, i = .setattr first last kind → pagesApart s.cfg first last = true)
    (hnone : (effect i s).cart = none) : EmptyWindow (effect i s) := by
  cases i with
  | rd addr => exact emptyWindow_busRead h addr
  | wr addr val => exact emptyWindow_busWrite h hk hl
  | setattr first last kind =>
    refine h.congr rfl h.cart (fun _ _ => rfl) fun p h1 h2 => ?_
    exact (PageTable.tag_setRange ..).trans (if_neg (not_mem_of_pagesApart (hset _ _ _ rfl) h1 h2))
  | ctrlw v => exact emptyWindow_ctrlUpdate h hk hl
  | insert bytes size =>
    simp only [effect] at hnone ⊢
    split at hnone
    · exact emptyWindow_doRemove s
    · rename_i c _
      obtain ⟨m, p, ha⟩ := activate_frame c s
      rw [ha] at hnone
      cases hnone
  | remove => exact emptyWindow_doRemove s
  | install addr code hd =>
    simp only [leavesWindow, Bool.and_eq_true, Bool.not_eq_true'] at hl
    exact emptyWindow_plantTrap h code hd hl.1 hl.2
  | installr addr code hd =>
    simp only [leavesWindow, Bool.and_eq_true, Bool.not_eq_true'] at hl
    obtain ⟨⟨h1, h2⟩, h3⟩ := hl
    exact (emptyWindow_plantTrap h code hd h1 h2).write (addr := addr + 2) (v := s.cfg.retOp) (by simpa using h3)
      rfl rfl rfl rfl
  | fire pc code =>
    simp only [effect]
    split
    · exact h.same rfl rfl rfl rfl
    · exact h.same rfl rfl rfl rfl
  | warm => exact emptyWindow_resetLines h
  | cold =>
    have hr := emptyWindow_resetLines h
    simp only [effect, keyHoldRequest_eq, remap_none hr.cart, resetLines_cfg]
    exact hr.write (addr := s.cfg.coldAddr) (v := s.cfg.coldVal) (by simpa [leavesWindow] using hl) rfl rfl rfl rfl
  | load stream => exact emptyWindow_loadStream h stream
  | setmode | uninst | save => exact h.same rfl rfl rfl rfl

/-- What power-on does of one overlay leaves the window's bytes, if an enabled one lies apart from it (70 R210). -/
theorem read_enabledOverlay {cfg : Config} {o : Overlay} {latch : Byte} (ho : overlayOk o = true)
    (h : overlayOn o latch = true → overlayApart cfg o = true) (m : Memory) {a : Addr}
    (ha : inWindow cfg a.toNat = true) :
    (if overlayOn o latch then copyRom o.ranges o.rom m else m).read a.toNat = m.read a.toNat := by
  obtain ⟨h1, h2⟩ := page_of_window ha
  obtain ⟨hr, hl⟩ := (overlayOk_iff o).1 ho
  split
  · rename_i hon
    rw [read_copyRom _ _ _ _ a.isLt hr hl.ge, romAt_outside _ _ _ (overlayCovers_of_overlayApart (h hon) h1 h2)]
    rfl
  · rfl

/-- What power-on does of one overlay leaves a ROM page ROM (70 R210). -/
theorem tag_enabledOverlay (o : Overlay) (latch : Byte) {pt : PageTable} {p : Byte} (h : pt.tag p = .rom) :
    (if overlayOn o latch then pt.setRanges o.ranges .rom else pt).tag p = .rom := by
  split
  · rw [PageTable.tag_setRanges, h, ite_self]
  · exact h

/-- Power-on leaves the window empty when the overlays it enables lie apart from the window (70 R210). -/
theorem emptyWindow_powerOn {cfg : Config} (hk : configOk cfg = true)
    (h : ∀ o ∈ [cfg.ovlOs, cfg.ovlBasic, cfg.ovlSelftest], overlayOn o cfg.ctrlReset = true →
      overlayApart cfg o = true) : EmptyWindow (State.powerOn cfg) where
  cart := rfl
  bytes a ha := by
    obtain ⟨hos, hbasic, hself⟩ := overlaysOk_of_configOk hk
    change (powerOnBytes cfg).read a.toNat = 0x00
    change inWindow cfg a.toNat = true at ha
    rw [powerOnBytes, read_enabledOverlay hself (h _ (by simp)) _ ha,
      read_enabledOverlay hbasic (h _ (by simp)) _ ha, read_enabledOverlay hos (h _ (by simp)) _ ha,
      read_clearWindow, if_pos ha]
  tags p h1 h2 := by
    have hseal : (sealWindow cfg (Vector.replicate 256 Tag.ram)).tag p = .rom :=
      (tag_sealWindow _ _ _).trans (if_pos ⟨h1, h2⟩)
    exact tag_enabledOverlay _ _ (tag_enabledOverlay _ _ (tag_enabledOverlay _ _ hseal))

/-- Settles O48: `emptyWindow_effect`, `emptyWindow_doRemove`, and of the reference overlays power-on enables the OS
alone, whose range lies apart from the window. -/
theorem emptyWindowStaysEmpty : Obligations.EmptyWindowStaysEmpty := by
  refine ⟨fun i s t hinv hw hl hset h hnone => ?_, fun s t hc h => ?_, ?_⟩
  · rcases exec_next h with ⟨-, rfl⟩ | ⟨-, -, r, rfl⟩
    · exact hw.same rfl rfl rfl rfl
    · have hopen : EmptyWindow s.opened := hw.same rfl rfl rfl rfl
      have hleft := emptyWindow_effect (s := s.opened) hinv.config hopen hl hset hnone
      exact hleft.same rfl rfl rfl rfl
  · rcases exec_next h with ⟨hcr, -⟩ | ⟨-, -, r, rfl⟩
    · rw [hc] at hcr
      cases hcr
    · exact (emptyWindow_doRemove s.opened).same rfl rfl rfl rfl
  · exact emptyWindow_powerOn configOk_referenceConfig (by decide)

end Sys2Proof.Machine
end

section
/-! PROOFS. ADB's memory (spec 20_memory.md): the step and its queue (R47), and the copies in MEM as a refinement of
the lookup view of the window (R45). -/

namespace Sys2Proof.Machine

/-! ### The step (R47, 60 R194, log 6) -/

/-- A word that decodes to an operation of its port is accepted (60 R194). -/
theorem accept_of_decode {r : Request} {i : Instr} (hd : decode r.word r.side = .ok i) (hp : i.port = r.port) :
    accept r = .ok i := by
  rw [accept, hd]
  exact if_pos hp

/-- A step runs the operation of an accepted request (60 R194). -/
theorem step_of_accepted {s : State} {r : Request} {rest : List Request} {i : Instr} (hk : configOk s.cfg = true)
    (hq : s.requests = r :: rest) (ha : accept r = .ok i) : step s = exec i { s with requests := rest } := by
  rw [step, if_pos hk, hq]
  simp only [ha]

/-- With no request a step idles (70 R213). -/
theorem step_of_no_request {s : State} (hk : configOk s.cfg = true) (hq : s.requests = []) : step s = .next s := by
  rw [step, if_pos hk, hq]

/-- Settles O5: the request is accepted, so the step is exec of its operation. -/
theorem stepRunsTheRequestedOperation : Obligations.StepRunsTheRequestedOperation :=
  fun _ _ _ _ hk hq hd hp => step_of_accepted hk hq (accept_of_decode hd hp)

/-- Settles O7: a refusal reports on the shorter queue, and no operation writes the queue it is run on. -/
theorem stepTakesTheOldestRequest : Obligations.StepTakesTheOldestRequest := by
  refine ⟨fun s => step_of_no_request, fun s t r rest hq h => ?_⟩
  obtain ⟨-, hstep⟩ := step_cases h
  rcases hstep with ⟨hnil, -⟩ | ⟨r', rest', reason, hq', -, rfl⟩ | ⟨r', rest', i, hq', -, he⟩
  · rw [hq] at hnil
    cases hnil
  · rw [hq] at hq'
    cases hq'
    rfl
  · rw [hq] at hq'
    cases hq'
    obtain ⟨-, hkept, -⟩ := stateIsWrittenOnlyByItsOperations i _ t he
    exact hkept

/-! ### What keeps the window faithful (R45) -/

/-- The window stays faithful when its view, its bytes and its pages' tags stay. -/
theorem WindowFaithful.congr {s t : State} (h : WindowFaithful s) (hcfg : t.cfg = s.cfg) (hview : view t = view s)
    (hmem : ∀ a : Addr, inWindow s.cfg a.toNat = true → t.mem.read a.toNat = s.mem.read a.toNat)
    (hpt : ∀ p : Byte, (winFirstPage s.cfg).toNat ≤ p.toNat → p.toNat ≤ (winLastPage s.cfg).toNat →
      t.pt.tag p = s.pt.tag p) : WindowFaithful t where
  bytes a ha := by
    rw [hcfg] at ha
    rw [hmem a ha, hview, h.bytes a ha]
  sealed p h1 h2 := by
    rw [hcfg] at h1 h2
    rw [hpt p h1 h2]
    exact h.sealed p h1 h2

/-- A state with the same view, MEM and PT is as faithful. -/
theorem WindowFaithful.same {s t : State} (h : WindowFaithful s) (hcfg : t.cfg = s.cfg) (hview : view t = view s)
    (hmem : t.mem = s.mem) (hpt : t.pt = s.pt) : WindowFaithful t :=
  h.congr hcfg hview (fun _ _ => by rw [hmem]) fun _ _ _ => by rw [hpt]

/-- A byte stored outside the window leaves it faithful. -/
theorem WindowFaithful.write {s t : State} (h : WindowFaithful s) {addr : Addr} {v : Byte}
    (ha : inWindow s.cfg addr.toNat = false) (hcfg : t.cfg = s.cfg) (hview : view t = view s)
    (hmem : t.mem = s.mem.write addr v) (hpt : t.pt = s.pt) : WindowFaithful t :=
  h.congr hcfg hview
    (fun a hw => by
      rw [hmem, Memory.read_write, if_neg]
      rintro rfl
      rw [hw] at ha
      cases ha)
    fun _ _ _ => by rw [hpt]

/-- An empty window shows the view of no cartridge (10 R26 item 7). -/
theorem EmptyWindow.faithful {s : State} (h : EmptyWindow s) : WindowFaithful s where
  bytes a ha := by rw [h.bytes a ha, view, h.cart]
  sealed p h1 h2 := by
    rw [h.tags p h1 h2]
    decide

/-! ### The copies show the view they were made for -/

/-- TagWindow leaves no window page RAM (42 R126). -/
theorem powerUpTag_ne_ram {cfg : Config} (cls : CartClass) {p : Byte} (t : Tag)
    (h1 : (winFirstPage cfg).toNat ≤ p.toNat) (h2 : p.toNat ≤ (winLastPage cfg).toNat) :
    powerUpTag cfg cls p t ≠ .ram := by
  unfold powerUpTag
  split
  · decide
  · split
    · decide
    · rw [if_pos ⟨h1, h2⟩]
      decide

/-- The power-up mapping and its tags make the window faithful, whatever it held (42 R125, R126). -/
theorem windowFaithful_remap {s : State} {c : Cartridge} (hk : configOk s.cfg = true) (hcart : s.cart = some c)
    (hc : c.cls = (typeRow s.cfg c.typeTag).cls) (hs : c.cls = .super → winLen s.cfg = 0x8000)
    (hq : isQuirk c.cls = false → s.qsel0 = 0 ∧ s.qsel1 = 0) : WindowFaithful (remap s) := by
  rw [remap_some hcart hq]
  refine ⟨fun a ha => ?_, fun p h1 h2 => ?_⟩
  · rw [view, hcart]
    exact (read_powerUpMap hk hc hs a).trans (if_pos ha)
  · rw [tag_windowTags]
    exact powerUpTag_ne_ram _ _ h1 h2

/-- A bank copy shows the bank it selects over the whole 32KiB window (42 R128). -/
theorem windowFaithful_copyBank {s : State} (h : WindowFaithful s) {c : Cartridge} (hcart : s.cart = some c)
    (hs : c.cls = .super) (hlen : winLen s.cfg = 0x8000) (b : Nat) : WindowFaithful (copyBank c b s) where
  bytes a ha := by
    have hwin := (inWindow_iff _ _).1 ha
    rw [copyBank_cfg] at hwin
    have hcovered : winBase s.cfg ≤ a.toNat ∧ a.toNat < winBase s.cfg + bankSize := by
      unfold winLen at hlen
      unfold winBase bankSize
      omega
    rw [copyBank_mem, Memory.read_overwrite_slice _ _ _ _ _ _ a.isLt, if_pos hcovered, view, copyBank_cart, hcart]
    simp only [viewOf, hs, copyBank_bank, copyBank_cfg, bankSize]
  sealed := h.sealed

/-- The view of a paired-window cartridge is one `quirkView` at every bank and selector (R45). -/
theorem viewOf_quirk (cfg : Config) {c : Cartridge} (hq : isQuirk c.cls = true) :
    ∃ qfix, ∀ bank q0 q1 a, viewOf cfg c bank q0 q1 a = quirkView cfg c qfix q0 q1 a := by
  unfold viewOf
  cases hcls : c.cls with
  | fixed | super =>
    rw [hcls] at hq
    cases hq
  | quirkA => exact ⟨cfg.qfixA, fun _ _ _ _ => rfl⟩
  | quirkB => exact ⟨cfg.qfixB, fun _ _ _ _ => rfl⟩

/-- Selecting slice k in region r changes the view there only, to slice k (42 R130). -/
theorem quirkView_select (cfg : Config) (c : Cartridge) (qfix : List Descriptor) (q0 q1 k : BitVec 2) (r : Fin 2)
    (a : Nat) :
    quirkView cfg c qfix (if r = 0 then k else q0) (if r = 0 then q1 else k) a =
      if regionBase r ≤ a ∧ a < regionBase r + sliceSize then
        imageByte c.img (sliceOffset cfg c.cls r k + (a - regionBase r))
      else quirkView cfg c qfix q0 q1 a := by
  match r with
  | 0 =>
    have region : 0x4000 ≤ a ∧ a ≤ 0x4FFF ↔ regionBase 0 ≤ a ∧ a < regionBase 0 + sliceSize := by
      simp only [regionBase, sliceSize, Fin.val_zero]
      omega
    simp only [quirkView, ← region, if_true]
    split
    · rfl
    · rfl
  | 1 =>
    have region : 0x5000 ≤ a ∧ a ≤ 0x5FFF ↔ regionBase 1 ≤ a ∧ a < regionBase 1 + sliceSize := by
      simp only [regionBase, sliceSize, Fin.val_one]
      omega
    simp only [quirkView, ← region, one_ne_zero, if_false]
    by_cases h0 : 0x4000 ≤ a ∧ a ≤ 0x4FFF
    · have h1 : ¬(0x5000 ≤ a ∧ a ≤ 0x5FFF) := by omega
      rw [if_pos h0, if_neg h1, if_pos h0]
    · rw [if_neg h0, if_neg h0]
      split
      · rfl
      · rfl

/-- A slice copy shows the slice it selects in its region, and leaves the rest of the window (42 R130). -/
theorem windowFaithful_copySlice {s : State} (h : WindowFaithful s) {c : Cartridge} (hcart : s.cart = some c)
    (hq : isQuirk c.cls = true) (r : Fin 2) (k : BitVec 2) : WindowFaithful (copySlice c r k s) where
  bytes a ha := by
    obtain ⟨qfix, hview⟩ := viewOf_quirk s.cfg hq
    have hbefore := h.bytes a ha
    rw [view, hcart] at hbefore
    rw [view, copySlice_cart, hcart]
    simp only [hview, copySlice_cfg, copySlice_qsel0, copySlice_qsel1] at hbefore ⊢
    rw [copySlice_mem, Memory.read_overwrite_slice _ _ _ _ _ _ a.isLt, quirkView_select, hbefore]
  sealed := h.sealed

/-! ### Every operation that leaves the window keeps it faithful -/

/-- The window of an inserted SUPER cartridge is one bank long (10 R26 item 4, 70 R215 item 3). -/
theorem Inv.winLen_of_super {s : State} (hi : Inv s) {c : Cartridge} (hcart : s.cart = some c)
    (hs : c.cls = .super) : winLen s.cfg = 0x8000 := by
  obtain ⟨-, -, hlen⟩ := hi.superCart c hcart hs
  exact hlen

theorem windowFaithful_cartTrigger {s : State} (hi : Inv s) (h : WindowFaithful s) (addr : Addr) :
    WindowFaithful (cartTrigger addr s) := by
  rcases cartTrigger_cases addr s with he | ⟨c, b, hcart, hs, -, -, he⟩ | ⟨c, r, k, hcart, hq, -, he⟩
  · rw [he]
    exact h
  · rw [he]
    exact windowFaithful_copyBank h hcart hs (hi.winLen_of_super hcart hs) b.val
  · rw [he]
    exact windowFaithful_copySlice h hcart hq r k

theorem windowFaithful_busRead {s : State} (hi : Inv s) (h : WindowFaithful s) (addr : Addr) :
    WindowFaithful (busRead addr s).2 := by
  rcases busRead_state addr s with he | ⟨ch, he⟩ | he
  · rw [he]
    exact h
  · rw [he]
    exact h.same rfl rfl rfl rfl
  · rw [he]
    exact windowFaithful_cartTrigger hi h addr

theorem windowFaithful_ctrlUpdate {s : State} (hk : configOk s.cfg = true) (h : WindowFaithful s) {v : Byte}
    (he : edgesApart s v = true) : WindowFaithful (ctrlUpdate v s) := by
  obtain ⟨m, p, hu⟩ := ctrlUpdate_frame v s
  refine h.congr ?_ ?_ (fun a => read_ctrlUpdate_window hk he) fun p => tag_ctrlUpdate_window he
  · rw [hu]
  · rw [hu]
    rfl

/-- A control write by the snoop of a WR has its edges apart from the window if the WR leaves the window. -/
theorem edgesApart_of_leavesWindow_wr {s : State} {addr : Addr} {val : Byte} (ha : s.cfg.ctrlAddr = some addr)
    (hhw : s.pt.tag (pageOf addr) = .hardware) (hl : leavesWindow s (.wr addr val) = true) :
    edgesApart s val = true := by
  simpa [leavesWindow, ha, hhw] using hl

/-- A bus write stores into RAM pages only, and no window page is RAM; at CTRL_ADDR the edges decide (40 R81,
41 R104). -/
theorem windowFaithful_busWrite {s : State} (hi : Inv s) (h : WindowFaithful s) {addr : Addr} {val : Byte}
    (hl : leavesWindow s (.wr addr val) = true) : WindowFaithful (busWrite addr val s) := by
  rcases busWrite_state addr val s with he | ⟨hram, he⟩ | ⟨hhw, ch, he⟩ | he
  · rw [he]
    exact h
  · have ha : inWindow s.cfg addr.toNat = false := by
      rw [Bool.eq_false_iff]
      intro ha
      obtain ⟨h1, h2⟩ := page_of_window ha
      exact h.sealed _ h1 h2 hram
    rw [he]
    exact h.write ha rfl rfl rfl rfl
  · have hput : WindowFaithful (s.emit (.chipPut ch addr val)) := h.same rfl rfl rfl rfl
    rcases ctrlSnoop_cases addr val (s.emit (.chipPut ch addr val)) with ⟨ha, hs⟩ | ⟨-, hs⟩
    · have hedges : edgesApart s val = true := edgesApart_of_leavesWindow_wr ha hhw hl
      rw [he, hs]
      exact windowFaithful_ctrlUpdate (s := s.emit (.chipPut ch addr val)) hi.config hput hedges
    · rw [he, hs]
      exact hput
  · rw [he]
    exact windowFaithful_cartTrigger hi h addr

/-- Retagging to ROM or HARDWARE, or away from the window, makes no window page RAM (41 R100). -/
theorem windowFaithful_setRange {s : State} (h : WindowFaithful s) {first last : Byte} {kind : Tag}
    (hl : leavesWindow s (.setattr first last kind) = true) :
    WindowFaithful { s with pt := s.pt.setRange first last kind } where
  bytes := h.bytes
  sealed p h1 h2 := by
    rw [PageTable.tag_setRange]
    split
    · rename_i hin
      rw [leavesWindow, Bool.or_eq_true, bne_iff_ne] at hl
      exact hl.resolve_left fun hapart => not_mem_of_pagesApart hapart h1 h2 hin
    · exact h.sealed p h1 h2

/-- A trap planted outside the window leaves it faithful (43 R151). -/
theorem windowFaithful_plantTrap {s : State} (h : WindowFaithful s) {addr : Addr} (code : Byte) (hd : Handler)
    (h1 : inWindow s.cfg addr.toNat = false) (h2 : inWindow s.cfg (addr + 1).toNat = false) :
    WindowFaithful (plantTrap addr code hd s) := by
  have hslot : WindowFaithful ((s.setSlot code ⟨true, addr, hd⟩).poke addr s.cfg.escOp) :=
    h.write h1 rfl rfl rfl rfl
  exact hslot.write h2 rfl rfl rfl rfl

/-- INSERT ends with no cartridge and an empty window, or with the new cartridge at its power-up mapping
(42 R120). -/
theorem windowFaithful_insert {s : State} (hk : configOk s.cfg = true) (bytes : Option (List Byte)) (size : Nat) :
    WindowFaithful (effect (.insert bytes size) s) := by
  simp only [effect]
  split
  · exact (emptyWindow_doRemove s).faithful
  · rename_i c hid
    obtain ⟨hcls, hlen⟩ := cls_of_identify hk hid
    exact windowFaithful_remap (s := { doRemove s with cart := some c, total := totalOf c.cls }) hk rfl hcls hlen
      fun _ => ⟨rfl, rfl⟩

theorem windowFaithful_loadStream {s : State} (hi : Inv s) (h : WindowFaithful s) (stream : Stream) :
    WindowFaithful ((loadStream stream s).getD s) := by
  rcases loadStream_cases stream s with hl | ⟨m, hl⟩ | ⟨m, c, b, hcart, hs, hl⟩
  · rw [hl]
    exact h
  · rw [hl]
    exact h.same rfl rfl rfl rfl
  · have hmode : WindowFaithful { s with mode := m } := h.same rfl rfl rfl rfl
    rw [hl]
    exact windowFaithful_copyBank hmode hcart hs (hi.winLen_of_super hcart hs) b.val

theorem windowFaithful_resetLines {s : State} (h : WindowFaithful s) : WindowFaithful (resetLines s) := by
  rw [resetLines_eq]
  exact h.same rfl rfl rfl rfl

/-- Where the invariants hold, COLD's second step keeps the window faithful (44 R171). -/
theorem windowFaithful_remap_of_inv {s : State} (hi : Inv s) (h : WindowFaithful s) : WindowFaithful (remap s) := by
  cases hcart : s.cart with
  | none =>
    rw [remap_none hcart]
    exact h
  | some c =>
    obtain ⟨-, hcls, -, -⟩ := hi.cart c hcart
    exact windowFaithful_remap hi.config hcart hcls (hi.winLen_of_super hcart) (hi.selectors c hcart)

theorem remap_cfg (s : State) : (remap s).cfg = s.cfg := by
  obtain ⟨b, q0, q1, m, p, hr⟩ := remap_frame s
  rw [hr]

/-- COLD maps the cartridge, then stores its flag byte outside the window (44 R171). -/
theorem windowFaithful_cold {s : State} (hi : Inv s) (h : WindowFaithful s) (hl : leavesWindow s .cold = true) :
    WindowFaithful (effect .cold s) := by
  have hmapped := windowFaithful_remap_of_inv (inv_resetLines hi) (windowFaithful_resetLines h)
  have hcfg : (remap (resetLines s)).cfg = s.cfg := (remap_cfg _).trans (resetLines_cfg s)
  have hout : inWindow (remap (resetLines s)).cfg s.cfg.coldAddr.toNat = false := by
    rw [hcfg]
    simpa [leavesWindow] using hl
  simp only [effect, keyHoldRequest_eq, hcfg]
  exact hmapped.write (addr := s.cfg.coldAddr) (v := s.cfg.coldVal) hout rfl rfl rfl rfl

/-- Every operation that leaves the window keeps it faithful. -/
theorem windowFaithful_effect {i : Instr} {s : State} (hi : Inv s) (h : WindowFaithful s)
    (hl : leavesWindow s i = true) : WindowFaithful (effect i s) := by
  cases i with
  | rd addr => exact windowFaithful_busRead hi h addr
  | wr addr val => exact windowFaithful_busWrite hi h hl
  | setattr first last kind => exact windowFaithful_setRange h hl
  | ctrlw v => exact windowFaithful_ctrlUpdate hi.config h hl
  | insert bytes size => exact windowFaithful_insert hi.config bytes size
  | remove => exact (emptyWindow_doRemove s).faithful
  | install addr code hd =>
    simp only [leavesWindow, Bool.and_eq_true, Bool.not_eq_true'] at hl
    obtain ⟨h1, h2⟩ := hl
    exact windowFaithful_plantTrap h code hd h1 h2
  | installr addr code hd =>
    simp only [leavesWindow, Bool.and_eq_true, Bool.not_eq_true'] at hl
    obtain ⟨⟨h1, h2⟩, h3⟩ := hl
    have htrap := windowFaithful_plantTrap h code hd h1 h2
    exact htrap.write (addr := addr + 2) (v := s.cfg.retOp) h3 rfl rfl rfl rfl
  | fire pc code =>
    simp only [effect]
    split
    · exact h.same rfl rfl rfl rfl
    · exact h.same rfl rfl rfl rfl
  | warm => exact windowFaithful_resetLines h
  | cold => exact windowFaithful_cold hi h hl
  | load stream => exact windowFaithful_loadStream hi h stream
  | setmode | uninst | save => exact h.same rfl rfl rfl rfl

/-- Settles O47: a refused operation changes neither view nor copies, a served one has its effect on the opened
state, which has the view and the copies of the state before. -/
theorem copiesRefineTheLookupView : Obligations.CopiesRefineTheLookupView := by
  intro i s t hi h hl he
  rcases exec_next he with ⟨-, rfl⟩ | ⟨-, -, r, rfl⟩
  · exact h.same rfl rfl rfl rfl
  · have hinv : Inv s.opened := hi.congr rfl rfl rfl rfl rfl rfl
    have hopen : WindowFaithful s.opened := h.same rfl rfl rfl rfl
    have hleft := windowFaithful_effect hinv hopen hl
    exact hleft.same rfl rfl rfl rfl

end Sys2Proof.Machine
end

section
/-! PROOFS. The command word (spec 30_encoding.md): decoding inverts encoding (R60 to R63), the reserved words (R64)
and the example words (R68). -/

namespace Sys2Proof

/-! ### Decoding the word of an operation (R60 to R63) -/

/-- The operation with its side operands read off the port: the word holds the others (30 R60). -/
def Instr.withSide (side : Side) : Instr → Instr
  | .insert _ _ => .insert side.bytes side.size
  | .install addr code _ => .install addr code side.handler
  | .installr addr code _ => .installr addr code side.handler
  | .load _ => .load side.stream
  | i => i

theorem withSide_encodeSide (i : Instr) : i.withSide (encodeSide i) = i := by
  cases i <;> rfl

theorem decodeF0_packWord (op : Byte) (i : Instr) : decodeF0 (packWord op 0#16 0#8) i = .ok i := by
  simp [decodeF0]

theorem decodeFB_packWord (op b : Byte) (f : Byte → Instr) : decodeFB (packWord op 0#16 b) f = .ok (f b) := by
  simp [decodeFB]

theorem decodeFP_packWord (op first last : Byte) (kind : Tag) :
    decodeFP (packWord op (first ++ last) (tagCode kind)) = .ok (.setattr first last kind) := by
  cases kind with
  | ram | rom | hardware => simp [decodeFP, tagCode]

/-- The word of an operation decodes to it, its side operands read off the port. -/
theorem decode_encodeWord (i : Instr) (side : Side) : decode (encodeWord i) side = .ok (i.withSide side) := by
  cases i with
  | rd | wr | install | installr | fire => simp [decode, encodeWord, Instr.withSide]
  | ctrlw | setmode | uninst => simp [decode, encodeWord, Instr.withSide, decodeFB_packWord]
  | setattr => simp [decode, encodeWord, Instr.withSide, decodeFP_packWord]
  | insert | remove | warm | cold | save | load =>
    simp [decode, encodeWord, Instr.withSide, decodeF0_packWord]

/-- Settles O1: the word gives the operation with the port's side operands, which are its own. -/
theorem decodeOfEncodeIsSelf : Obligations.DecodeOfEncodeIsSelf := by
  intro i
  rw [decode_encodeWord, withSide_encodeSide]

/-- Settles O4: each example word is the word of the operation beside it. -/
theorem specExampleWordsDecode : Obligations.SpecExampleWordsDecode := fun side =>
  ⟨decode_encodeWord (.rd 0x4FF6) side,
    decode_encodeWord (.wr 0x0600 0xA9) side,
    decode_encodeWord (.setattr 0xD0 0xD0 .hardware) side,
    decode_encodeWord (.ctrlw 0xFD) side,
    decode_encodeWord (.setmode 0x01) side,
    decode_encodeWord (.insert none 0) side,
    decode_encodeWord .remove side,
    decode_encodeWord (.install 0xE459 0x03 0) side,
    decode_encodeWord (.installr 0xE459 0x03 0) side,
    decode_encodeWord (.uninst 0x03) side,
    decode_encodeWord (.fire 0xE45B 0x03) side,
    decode_encodeWord .warm side,
    decode_encodeWord .cold side,
    decode_encodeWord .save side,
    decode_encodeWord (.load []) side⟩

/-! ### A word that decodes is an operation's word (R61) -/

/-- A word is known from its three fields (30 R60). -/
theorem packWord_eq_of_fields {w : Word} {op : Byte} {a : Addr} {b : Byte} (hop : opField w = op)
    (ha : aField w = a) (hb : bField w = b) : packWord op a b = w := by
  rw [← hop, ← ha, ← hb, packWord_fields]

theorem encodeWord_of_decodeF0 {w : Word} {op : Byte} {i j : Instr} (hop : opField w = op)
    (henc : encodeWord i = packWord op 0 0) (h : decodeF0 w i = .ok j) : encodeWord j = w := by
  unfold decodeF0 at h
  split at h
  · rename_i hzero
    obtain ⟨ha, hb⟩ := hzero
    cases h
    exact henc.trans (packWord_eq_of_fields hop ha hb)
  · cases h

theorem encodeWord_of_decodeFB {w : Word} {op : Byte} {f : Byte → Instr} {j : Instr} (hop : opField w = op)
    (henc : ∀ b, encodeWord (f b) = packWord op 0 b) (h : decodeFB w f = .ok j) : encodeWord j = w := by
  unfold decodeFB at h
  split at h
  · rename_i ha
    cases h
    exact (henc _).trans (packWord_eq_of_fields hop ha rfl)
  · cases h

/-- SETATTR's word has the pages in A and the tag's number in B (30 R61, R62). -/
theorem encodeWord_setattr_of_fields {w : Word} {kind : Tag} (hop : opField w = 0x10)
    (hb : bField w = tagCode kind) : encodeWord (.setattr (firstField w) (lastField w) kind) = w :=
  packWord_eq_of_fields hop (aField_pages w).symm hb

theorem encodeWord_of_decodeFP {w : Word} {j : Instr} (hop : opField w = 0x10) (h : decodeFP w = .ok j) :
    encodeWord j = w := by
  unfold decodeFP at h
  split at h
  case h_1 hb | h_2 hb | h_3 hb =>
    cases h
    exact encodeWord_setattr_of_fields hop (BitVec.eq_of_toNat_eq hb)
  case h_4 | h_5 => cases h

theorem opField_eq_of_toNat {w : Word} {n : Nat} (h : (opField w).toNat = n) : opField w = BitVec.ofNat 8 n := by
  rw [← h, BitVec.ofNat_toNat, BitVec.setWidth_eq]

/-- Settles O2: along the rows of the decoder, each of which checks every field its format fixes. -/
theorem encodeOfDecodeIsWord : Obligations.EncodeOfDecodeIsWord := by
  intro w side i h
  unfold decode at h
  split at h
  case h_1 hop =>
    split at h
    · rename_i hb
      cases h
      exact packWord_eq_of_fields (opField_eq_of_toNat hop) rfl hb
    · cases h
  case h_2 hop | h_8 hop | h_9 hop | h_11 hop =>
    cases h
    exact packWord_eq_of_fields (opField_eq_of_toNat hop) rfl rfl
  case h_3 hop => exact encodeWord_of_decodeFP (opField_eq_of_toNat hop) h
  case h_4 hop | h_5 hop | h_10 hop => exact encodeWord_of_decodeFB (opField_eq_of_toNat hop) (fun _ => rfl) h
  case h_6 hop | h_7 hop | h_12 hop | h_13 hop | h_14 hop | h_15 hop =>
    exact encodeWord_of_decodeF0 (opField_eq_of_toNat hop) rfl h
  case h_16 => cases h

/-! ### The reserved words (R64) -/

/-- Masking a word masks its fields (30 R60). -/
theorem packWord_and (op mop : Byte) (a ma : Addr) (b mb : Byte) :
    packWord op a b &&& packWord mop ma mb = packWord (op &&& mop) (a &&& ma) (b &&& mb) :=
  BitVec.and_append.trans (congrArg (· ++ (b &&& mb)) BitVec.and_append)

theorem packWord_inj {op op' : Byte} {a a' : Addr} {b b' : Byte} :
    packWord op a b = packWord op' a' b' ↔ op = op' ∧ a = a' ∧ b = b' := by
  constructor
  · intro h
    exact ⟨by simpa using congrArg opField h, by simpa using congrArg aField h, by simpa using congrArg bField h⟩
  · rintro ⟨rfl, rfl, rfl⟩
    rfl

/-- A masked comparison of a word compares its masked fields (30 R63). -/
theorem and_packWord_eq_iff (w : Word) (mop op : Byte) (ma a : Addr) (mb b : Byte) :
    w &&& packWord mop ma mb = packWord op a b ↔
      opField w &&& mop = op ∧ aField w &&& ma = a ∧ bField w &&& mb = b := by
  rw [← packWord_inj, ← packWord_and, packWord_fields]

/-- A row of the opcode map by its OP byte and the must-be-zero bits of its fields A and B (30 R61, R63). -/
def formatRow (mnemonic : String) (op : Byte) (zerosA : Addr) (zerosB : Byte) (port : Port) : Row :=
  ⟨mnemonic, packWord 0xFF zerosA zerosB, packWord op 0 0, port⟩

theorem opcodeTable_eq_formatRows : opcodeTable =
    [ formatRow "RD" 0x01 0 0xFF .cpu,
      formatRow "WR" 0x02 0 0 .cpu,
      formatRow "SETATTR" 0x10 0 0xFC .host,
      formatRow "CTRLW" 0x11 0xFFFF 0 .host,
      formatRow "SETMODE" 0x12 0xFFFF 0 .host,
      formatRow "INSERT" 0x20 0xFFFF 0xFF .host,
      formatRow "REMOVE" 0x21 0xFFFF 0xFF .host,
      formatRow "INSTALL" 0x30 0 0 .host,
      formatRow "INSTALLR" 0x31 0 0 .host,
      formatRow "UNINST" 0x32 0xFFFF 0 .host,
      formatRow "FIRE" 0x33 0 0 .cpu,
      formatRow "WARM" 0x40 0xFFFF 0xFF .host,
      formatRow "COLD" 0x41 0xFFFF 0xFF .host,
      formatRow "SAVE" 0x50 0xFFFF 0xFF .host,
      formatRow "LOAD" 0x51 0xFFFF 0xFF .host ] := rfl

theorem formatRow_selects (mnemonic : String) (op : Byte) (zerosA : Addr) (zerosB : Byte) (port : Port) (w : Word) :
    (formatRow mnemonic op zerosA zerosB port).selects w = true ↔
      opField w = op ∧ aField w &&& zerosA = 0 ∧ bField w &&& zerosB = 0 := by
  rw [Row.selects, formatRow, beq_iff_eq, and_packWord_eq_iff, show (0xFF : Byte) = BitVec.allOnes 8 from rfl,
    BitVec.and_allOnes]

/-- Some row of the opcode map selects the word of every operation. -/
theorem encodeWord_selected (i : Instr) : ∃ row ∈ opcodeTable, row.selects (encodeWord i) = true := by
  have hkind (kind : Tag) : tagCode kind &&& 0xFC#8 = 0#8 := by cases kind <;> rfl
  rw [opcodeTable_eq_formatRows]
  cases i with
  | setattr => simp [formatRow_selects, encodeWord, hkind]
  | _ => simp [formatRow_selects, encodeWord]

/-- A SETATTR word with tag 3, by its fields (30 R64). -/
theorem setattr_tagThree_iff (w : Word) :
    w &&& 0xFF0000FC = 0x10000000 ∧ w &&& 0x00000003 = 0x00000003 ↔ opField w = 0x10 ∧ bField w = 3 := by
  have hrow : w &&& 0xFF0000FC = 0x10000000 ↔ opField w = 0x10 ∧ aField w &&& 0 = 0 ∧ bField w &&& 0xFC = 0 := by
    have := formatRow_selects "SETATTR" 0x10 0 0xFC .host w
    rwa [Row.selects, beq_iff_eq] at this
  have htag : w &&& 0x00000003 = 0x00000003 ↔ opField w &&& 0 = 0 ∧ aField w &&& 0 = 0 ∧ bField w &&& 3 = 3 :=
    and_packWord_eq_iff w 0 0 0 0 3 3
  have hbyte : ∀ b : Byte, b &&& 0xFC = 0 ∧ b &&& 3 = 3 ↔ b = 3 := by decide
  rw [hrow, htag, ← hbyte (bField w)]
  simp [and_assoc]

theorem encodeWord_not_tagThree (i : Instr) : ¬(opField (encodeWord i) = 0x10 ∧ bField (encodeWord i) = 3) := by
  rintro ⟨hop, hb⟩
  cases i with
  | setattr first last kind =>
    rw [encodeWord, bField_packWord] at hb
    cases kind <;> cases hb
  | _ =>
    rw [encodeWord, opField_packWord] at hop
    cases hop

/-- A tag field that is neither beyond its two bits nor 3 is a tag's number (30 R62). -/
theorem exists_tagCode {b : Byte} (hzero : b &&& 0xFC = 0) (hthree : b ≠ 3) : ∃ kind, b = tagCode kind := by
  have hcases : ∀ b : Byte, b &&& 0xFC = 0 → b ≠ 3 →
      b = tagCode .ram ∨ b = tagCode .rom ∨ b = tagCode .hardware := by decide
  rcases hcases b hzero hthree with h | h | h <;> exact ⟨_, h⟩

/-- A word that a row selects, but for SETATTR with tag 3, is the word of an operation of that row. -/
theorem exists_encodeWord_of_selects {w : Word} {row : Row} (hrow : row ∈ opcodeTable)
    (hsel : row.selects w = true) (htag : ¬(opField w = 0x10 ∧ bField w = 3)) : ∃ i, encodeWord i = w := by
  have hfull8 (b : Byte) (h : b &&& 0xFF = 0) : b = 0 := by
    rwa [show (0xFF : Byte) = BitVec.allOnes 8 from rfl, BitVec.and_allOnes] at h
  have hfull16 (a : Addr) (h : a &&& 0xFFFF = 0) : a = 0 := by
    rwa [show (0xFFFF : Addr) = BitVec.allOnes 16 from rfl, BitVec.and_allOnes] at h
  simp only [opcodeTable_eq_formatRows, List.mem_cons, List.not_mem_nil, or_false] at hrow
  rcases hrow with rfl | rfl | rfl | rfl | rfl | rfl | rfl | rfl | rfl | rfl | rfl | rfl | rfl | rfl | rfl
  all_goals obtain ⟨hop, ha, hb⟩ := (formatRow_selects ..).1 hsel
  · exact ⟨.rd (aField w), packWord_eq_of_fields hop rfl (hfull8 _ hb)⟩
  · exact ⟨.wr (aField w) (bField w), packWord_eq_of_fields hop rfl rfl⟩
  · obtain ⟨kind, hkind⟩ := exists_tagCode hb fun h3 => htag ⟨hop, h3⟩
    exact ⟨_, encodeWord_setattr_of_fields hop hkind⟩
  · exact ⟨.ctrlw (bField w), packWord_eq_of_fields hop (hfull16 _ ha) rfl⟩
  · exact ⟨.setmode (bField w), packWord_eq_of_fields hop (hfull16 _ ha) rfl⟩
  · exact ⟨.insert none 0, packWord_eq_of_fields hop (hfull16 _ ha) (hfull8 _ hb)⟩
  · exact ⟨.remove, packWord_eq_of_fields hop (hfull16 _ ha) (hfull8 _ hb)⟩
  · exact ⟨.install (aField w) (bField w) 0, packWord_eq_of_fields hop rfl rfl⟩
  · exact ⟨.installr (aField w) (bField w) 0, packWord_eq_of_fields hop rfl rfl⟩
  · exact ⟨.uninst (bField w), packWord_eq_of_fields hop (hfull16 _ ha) rfl⟩
  · exact ⟨.fire (aField w) (bField w), packWord_eq_of_fields hop rfl rfl⟩
  · exact ⟨.warm, packWord_eq_of_fields hop (hfull16 _ ha) (hfull8 _ hb)⟩
  · exact ⟨.cold, packWord_eq_of_fields hop (hfull16 _ ha) (hfull8 _ hb)⟩
  · exact ⟨.save, packWord_eq_of_fields hop (hfull16 _ ha) (hfull8 _ hb)⟩
  · exact ⟨.load [], packWord_eq_of_fields hop (hfull16 _ ha) (hfull8 _ hb)⟩

/-- A word is reserved exactly when it is the word of no operation. -/
theorem decode_error_iff (w : Word) (side : Side) :
    (∃ e, decode w side = .error e) ↔ ¬∃ i, encodeWord i = w := by
  constructor
  · rintro ⟨e, he⟩ ⟨i, rfl⟩
    rw [decode_encodeWord] at he
    cases he
  · intro hno
    cases hd : decode w side with
    | error e => exact ⟨e, rfl⟩
    | ok i => exact absurd ⟨i, encodeOfDecodeIsWord w side i hd⟩ hno

/-- The words of operations are those a row selects, but for SETATTR with tag 3 (30 R63, R64). -/
theorem exists_encodeWord_iff (w : Word) : (∃ i, encodeWord i = w) ↔
    (∃ row ∈ opcodeTable, row.selects w = true) ∧
      ¬(w &&& 0xFF0000FC = 0x10000000 ∧ w &&& 0x00000003 = 0x00000003) := by
  rw [setattr_tagThree_iff]
  constructor
  · rintro ⟨i, rfl⟩
    exact ⟨encodeWord_selected i, encodeWord_not_tagThree i⟩
  · rintro ⟨⟨row, hrow, hsel⟩, htag⟩
    exact exists_encodeWord_of_selects hrow hsel htag

/-- The operations of the CPU port (30 R63). -/
theorem port_eq_cpu_iff (i : Instr) :
    i.port = .cpu ↔ (∃ a, i = .rd a) ∨ (∃ a v, i = .wr a v) ∨ (∃ pc c, i = .fire pc c) := by
  cases i <;> simp [Instr.port]

end Sys2Proof

namespace Sys2Proof.Machine

/-- A request that is not accepted is refused, and taken off the queue (60 R194). -/
theorem step_of_not_accepted {s : State} {r : Request} {rest : List Request} {reason : Reason}
    (hk : configOk s.cfg = true) (hq : s.requests = r :: rest) (ha : accept r = .error reason) :
    step s = .next ({ s with requests := rest }.refuse reason) := by
  rw [step, if_pos hk, hq]
  simp only [ha]

theorem accept_of_reserved {r : Request} {e : Reserved} (hd : decode r.word r.side = .error e) :
    accept r = .error .illegalCmd := by
  rw [accept, hd]

theorem accept_of_wrong_port {r : Request} {i : Instr} (hd : decode r.word r.side = .ok i)
    (hp : i.port ≠ r.port) : accept r = .error .wrongPort := by
  rw [accept, hd]
  exact if_neg hp

/-- Settles O3: the reserved words are those of no operation, and both refusals report on the shorter queue. -/
theorem reservedWordsAreRefused : Obligations.ReservedWordsAreRefused := by
  refine ⟨fun w side => ?_, fun s r rest hk hq hd => ?_, fun s r rest i hk hq hd hport => ?_⟩
  · rw [decode_error_iff, exists_encodeWord_iff, not_and_or, not_not]
    simp only [not_exists, not_and, Bool.not_eq_true]
  · obtain ⟨e, he⟩ := hd
    exact ⟨rest, step_of_not_accepted hk hq (accept_of_reserved he)⟩
  · have hp : i.port ≠ r.port := fun h => hport (h ▸ port_eq_cpu_iff i)
    exact ⟨rest, step_of_not_accepted hk hq (accept_of_wrong_port hd hp)⟩

end Sys2Proof.Machine
end

section
/-! PROOFS. Bus access (spec 40_bus_access.md): the decoded read and write by the page's tag (R80, R81), the chip pages
(R82, R83) and the HARDWARE pages with no target (R85). -/

namespace Sys2Proof.Machine

/-! ### The decoded bus access, by tag and by target -/

/-- A running RD answers the decoded read's byte, in the state that read leaves (40 R80). -/
theorem exec_rd_running {s : State} (hc : s.crashed = false) (addr : Addr) :
    exec (.rd addr) s = (busRead addr s.opened).2.finish (.data (busRead addr s.opened).1) := by
  rw [exec, execRd, operate_running hc]

/-- A running WR leaves the state of the decoded write (40 R81). -/
theorem exec_wr_running {s : State} (hc : s.crashed = false) (addr : Addr) (val : Byte) :
    exec (.wr addr val) s = (busWrite addr val s.opened).finish .done := by
  rw [exec, execWr, operate_running hc]

theorem busRead_of_not_hardware {s : State} {addr : Addr} (h : s.pt.tag (pageOf addr) ≠ .hardware) :
    busRead addr s = (s.mem.read addr.toNat, s) := by
  unfold busRead
  split
  · rfl
  · rfl
  · exact absurd ‹_› h

theorem busRead_hardware {s : State} {addr : Addr} (h : s.pt.tag (pageOf addr) = .hardware) :
    busRead addr s = hwRead addr s := by
  rw [busRead, h]

theorem busWrite_ram {s : State} {addr : Addr} (h : s.pt.tag (pageOf addr) = .ram) (val : Byte) :
    busWrite addr val s = s.poke addr val := by
  rw [busWrite, h, State.poke]

theorem busWrite_rom {s : State} {addr : Addr} (h : s.pt.tag (pageOf addr) = .rom) (val : Byte) :
    busWrite addr val s = s := by
  rw [busWrite, h]

theorem busWrite_hardware {s : State} {addr : Addr} (h : s.pt.tag (pageOf addr) = .hardware) (val : Byte) :
    busWrite addr val s = hwWrite addr val s := by
  rw [busWrite, h]

theorem hwRead_of_target_chip {s : State} {addr : Addr} {ch : Chip} (h : target s.cfg (pageOf addr) = .chip ch) :
    hwRead addr s = chipRead ch addr s := by
  rw [hwRead, h]

theorem hwRead_of_target_nothing {s : State} {addr : Addr} (h : target s.cfg (pageOf addr) = .nothing) :
    hwRead addr s = (floatByte, s) := by
  rw [hwRead, h]

theorem hwWrite_of_target_chip {s : State} {addr : Addr} {ch : Chip} (h : target s.cfg (pageOf addr) = .chip ch)
    (val : Byte) : hwWrite addr val s = ctrlSnoop addr val (s.emit (.chipPut ch addr val)) := by
  rw [hwWrite, h]

theorem hwWrite_of_target_nothing {s : State} {addr : Addr} (h : target s.cfg (pageOf addr) = .nothing)
    (val : Byte) : hwWrite addr val s = s := by
  rw [hwWrite, h]

/-- The snoop writes MEM, PT and CTRL only, and those only at CTRL_ADDR (41 R104). -/
theorem ctrlSnoop_frame (addr : Addr) (val : Byte) (s : State) :
    ∃ pt mem ctrl, ctrlSnoop addr val s = { s with pt := pt, mem := mem, ctrl := ctrl } ∧
      (s.cfg.ctrlAddr ≠ some addr → pt = s.pt ∧ mem = s.mem ∧ ctrl = s.ctrl) := by
  rcases ctrlSnoop_cases addr val s with ⟨ha, hs⟩ | ⟨-, hs⟩
  · obtain ⟨mem, pt, hu⟩ := ctrlUpdate_frame val s
    exact ⟨pt, mem, val, hs.trans hu, fun hn => absurd ha hn⟩
  · exact ⟨s.pt, s.mem, s.ctrl, hs, fun _ => ⟨rfl, rfl, rfl⟩⟩

/-! ### RAM and ROM pages (R80, R81) -/

/-- Settles O10: off the HARDWARE pages the decoded read is the byte of MEM. -/
theorem readOfRamOrRomGivesTheByte : Obligations.ReadOfRamOrRomGivesTheByte := by
  intro s addr hc htag
  have hopen : s.opened.pt.tag (pageOf addr) ≠ .hardware := htag
  rw [exec_rd_running hc, busRead_of_not_hardware hopen]
  rfl

/-- Settles O11: a write to a RAM page is a poke, and a read after it is `Memory.read_write`. -/
theorem writeToRamStoresOneByte : Obligations.WriteToRamStoresOneByte := by
  intro s addr val hc htag
  have hopen : s.opened.pt.tag (pageOf addr) = .ram := htag
  rw [exec_wr_running hc, busWrite_ram hopen]
  exact ⟨_, rfl, rfl, Memory.read_write s.mem addr val⟩

/-- Settles O12: the decoded write to a ROM page leaves the state. -/
theorem writeToRomIsDropped : Obligations.WriteToRomIsDropped := by
  intro s addr val hc htag
  have hopen : s.opened.pt.tag (pageOf addr) = .rom := htag
  rw [exec_wr_running hc, busWrite_rom hopen]
  rfl

/-! ### HARDWARE pages: the chips (R83) and no target (R85) -/

/-- Settles O13: the page's target is the chip; a read emits, and a write emits and then lets the latch snoop, which
away from CTRL_ADDR does nothing. -/
theorem chipAccessIsPassedOn : Obligations.ChipAccessIsPassedOn := by
  intro s addr ch hc htag hch
  have hopen : s.opened.pt.tag (pageOf addr) = .hardware := htag
  have htarget : target s.opened.cfg (pageOf addr) = .chip ch := target_chip hch
  refine ⟨?_, fun val => ?_⟩
  · rw [exec_rd_running hc, busRead_hardware hopen, hwRead_of_target_chip htarget]
    rfl
  · obtain ⟨pt, mem, ctrl, hsnoop, hsame⟩ := ctrlSnoop_frame addr val (s.opened.emit (.chipPut ch addr val))
    rw [exec_wr_running hc, busWrite_hardware hopen, hwWrite_of_target_chip htarget, hsnoop]
    exact ⟨_, rfl, rfl, hsame⟩

/-- Settles O15: the page's target is nothing, so the read floats and the write leaves the state. -/
theorem hardwarePageWithoutTargetFloats : Obligations.HardwarePageWithoutTargetFloats := by
  intro s addr hc htag hch hcart
  have hopen : s.opened.pt.tag (pageOf addr) = .hardware := htag
  have htarget : target s.opened.cfg (pageOf addr) = .nothing := target_nothing hch hcart
  refine ⟨?_, fun val => ?_⟩
  · rw [exec_rd_running hc, busRead_hardware hopen, hwRead_of_target_nothing htarget]
    rfl
  · rw [exec_wr_running hc, busWrite_hardware hopen, hwWrite_of_target_nothing htarget]
    rfl

end Sys2Proof.Machine
end

section
/-! PROOFS. The page table, the overlay latch and the mode flags (spec 41_page_table_overlay.md): SETATTR (R100), CTRLW
(R102, R105), the latch's snoop of chip writes (R104) and SETMODE (R106). -/

namespace Sys2Proof.Machine

theorem refusedWhenCrashed (i : Instr) : RefusedWhenCrashed i := fun _ hc => exec_crashed i hc

/-! ### SETATTR (R100) and SETMODE (R106) -/

/-- A running SETATTR retags the range, and leaves all else (41 R100). -/
theorem exec_setattr_running {s : State} (hc : s.crashed = false) (first last : Byte) (kind : Tag) :
    exec (.setattr first last kind) s =
      .next { s with pt := s.pt.setRange first last kind, result := some .done, outputs := [] } := by
  rw [exec, execSetattr, operate_running hc]
  rfl

/-- A running SETMODE writes MODE alone (41 R106). -/
theorem exec_setmode_running {s : State} (hc : s.crashed = false) (v : Byte) :
    exec (.setmode v) s = .next { s with mode := v, result := some .done, outputs := [] } := by
  rw [exec, execSetmode, operate_running hc]
  rfl

/-- Settles O19: SETATTR is one `setRange`, whose tags `PageTable.tag_setRange` gives. -/
theorem setattrTagsExactlyTheRange : Obligations.SetattrTagsExactlyTheRange := by
  refine ⟨fun s first last kind hc => ?_, fun _ _ _ => refusedWhenCrashed _⟩
  exact ⟨_, exec_setattr_running hc first last kind, rfl, fun p => PageTable.tag_setRange s.pt first last p kind⟩

/-- Settles O22: `exec_setmode_running`, and the crash refusal of every operation. -/
theorem setmodeStoresTheFlags : Obligations.SetmodeStoresTheFlags :=
  ⟨fun _ v hc => exec_setmode_running hc v, fun _ => refusedWhenCrashed _⟩

/-! ### CTRLW (R102, R105) -/

/-- A running CTRLW is CtrlUpdate (41 R102). -/
theorem exec_ctrlw_running {s : State} (hc : s.crashed = false) (v : Byte) :
    exec (.ctrlw v) s = (ctrlUpdate v s.opened).finish .done := by
  rw [exec, execCtrlw, operate_running hc]

/-- Settles O20: CtrlUpdate writes MEM, PT and CTRL only, and its bytes and tags are `read_ctrlUpdate` and
`tag_ctrlUpdate`. -/
theorem controlWriteActsOnEdges : Obligations.ControlWriteActsOnEdges := by
  refine ⟨fun s v hc hk => ⟨_, exec_ctrlw_running hc v, ?_, ?_, ?_⟩, fun _ => refusedWhenCrashed _⟩
  · obtain ⟨mem, pt, hu⟩ := ctrlUpdate_frame v s.opened
    rw [hu]
    rfl
  · exact read_ctrlUpdate v s.opened hk
  · exact tag_ctrlUpdate v s.opened

/-- Settles O21: with the latch's own value there is no edge, so CtrlUpdate leaves the state. -/
theorem repeatedControlWriteDoesNothing : Obligations.RepeatedControlWriteDoesNothing := by
  intro s hc
  have hsame : ctrlUpdate s.ctrl s.opened = s.opened := ctrlUpdate_same s.opened
  rw [exec_ctrlw_running hc, hsame]
  rfl

/-! ### The latch's snoop of chip writes (R104) -/

theorem hwWrite_of_target_cartCtl {s : State} {addr : Addr} (h : target s.cfg (pageOf addr) = .cartCtl)
    (val : Byte) : hwWrite addr val s = cartTrigger addr s := by
  rw [hwWrite, h]

theorem cartTrigger_ctrl (addr : Addr) (s : State) : (cartTrigger addr s).ctrl = s.ctrl := by
  obtain ⟨bank, q0, q1, mem, ht⟩ := cartTrigger_frame addr s
  rw [ht]

/-- A chip write at CTRL_ADDR gives the chip its byte, and then writes the latch (41 R104). -/
theorem busWrite_of_ctrlAddr {s : State} {addr : Addr} {ch : Chip} (htag : s.pt.tag (pageOf addr) = .hardware)
    (hch : (addr.toNat / 256, ch) ∈ chipPages) (ha : s.cfg.ctrlAddr = some addr) (val : Byte) :
    busWrite addr val s = ctrlUpdate val (s.emit (.chipPut ch addr val)) := by
  rw [busWrite_hardware htag, hwWrite_of_target_chip (target_chip hch)]
  exact if_pos ha

/-- A write of a HARDWARE page with no chip, to a cartridge or to nothing, leaves the latch (40 R84, R85). -/
theorem hwWrite_ctrl_of_no_chip {s : State} {addr : Addr} (hno : ∀ ch, (addr.toNat / 256, ch) ∉ chipPages)
    (val : Byte) : (hwWrite addr val s).ctrl = s.ctrl := by
  by_cases hcart : isCartridgePage s.cfg (addr.toNat / 256)
  · rw [hwWrite_of_target_cartCtl (target_cartCtl hcart), cartTrigger_ctrl]
  · rw [hwWrite_of_target_nothing (target_nothing hno hcart)]

/-- A write off the HARDWARE pages stores a byte or is dropped, and leaves the latch (40 R81). -/
theorem busWrite_ctrl_of_not_hardware {s : State} {addr : Addr} (htag : s.pt.tag (pageOf addr) ≠ .hardware)
    (val : Byte) : (busWrite addr val s).ctrl = s.ctrl := by
  cases hp : s.pt.tag (pageOf addr) with
  | ram => rw [busWrite_ram hp, poke_ctrl]
  | rom => rw [busWrite_rom hp]
  | hardware => exact absurd hp htag

/-- A bus write changes the latch only by the snoop: at CTRL_ADDR, on a HARDWARE page, with a chip (41 R104). -/
theorem busWrite_ctrl_of_no_snoop {s : State} {addr : Addr} {val : Byte}
    (h : s.cfg.ctrlAddr ≠ some addr ∨ s.pt.tag (pageOf addr) ≠ .hardware
      ∨ ∀ ch, (addr.toNat / 256, ch) ∉ chipPages) : (busWrite addr val s).ctrl = s.ctrl := by
  by_cases htag : s.pt.tag (pageOf addr) = .hardware
  · rcases h with haddr | hnot | hno
    · rcases busWrite_frame addr val s with ⟨bank, q0, q1, mem, out, hist, he⟩ | ⟨ha, -⟩
      · rw [he]
      · exact absurd ha haddr
    · exact absurd htag hnot
    · rw [busWrite_hardware htag, hwWrite_ctrl_of_no_chip hno]
  · exact busWrite_ctrl_of_not_hardware htag val

/-- A running WR that the latch snoops does what CTRLW does, and reports the chip's byte (41 R104). -/
theorem exec_wr_of_ctrlAddr {s t : State} {addr : Addr} {ch : Chip} {val : Byte} (hc : s.crashed = false)
    (htag : s.pt.tag (pageOf addr) = .hardware) (hch : (addr.toNat / 256, ch) ∈ chipPages)
    (ha : s.cfg.ctrlAddr = some addr) (ht : exec (.ctrlw val) s = .next t) :
    exec (.wr addr val) s = .next { t with
      outputs := [.chipPut ch addr val], history := .chipPut ch addr val :: s.history } := by
  have hsnoop : busWrite addr val s.opened = (ctrlUpdate val s.opened).emit (.chipPut ch addr val) :=
    (busWrite_of_ctrlAddr (s := s.opened) htag hch ha val).trans (ctrlUpdate_emit val _ s.opened)
  obtain ⟨mem, pt, hu⟩ := ctrlUpdate_frame val s.opened
  rw [exec_ctrlw_running hc, hu] at ht
  cases ht
  rw [exec_wr_running hc, hsnoop, hu]
  rfl

/-- With no CTRL_ADDR only CTRLW updates the latch (41 R104). -/
theorem eq_ctrlw_of_ctrl_ne {i : Instr} {s t : State} (hnone : s.cfg.ctrlAddr = none) (h : exec i s = .next t)
    (hne : t.ctrl ≠ s.ctrl) : ∃ v, i = .ctrlw v := by
  obtain ⟨-, -, -, -, hctrl, -⟩ := stateIsWrittenOnlyByItsOperations i s t h
  rcases hctrl hne with hctrlw | ⟨addr, val, -, ha⟩
  · exact hctrlw
  · rw [hnone] at ha
    cases ha

/-- A CTRL_ADDR on no chip page breaks item 8 of 70 R215. -/
theorem configOk_ne_true_of_ctrlAddr {cfg : Config} {a : Addr} (ha : cfg.ctrlAddr = some a)
    (hno : ∀ ch, (a.toNat / 256, ch) ∉ chipPages) : ¬configOk cfg = true := by
  intro hk
  obtain ⟨hwf, -⟩ := (configOk_iff_wellFormed cfg).1 hk
  obtain ⟨ch, hch⟩ := hwf.ctrlAddr a ha
  exact hno ch hch

/-- A step under an ill-formed configuration is refused (70 R215, log 13). -/
theorem step_of_not_configOk {s : State} (hk : ¬configOk s.cfg = true) : step s = .refused .illFormedConfig := by
  rw [step, if_neg hk]

/-- Settles O14: at CTRL_ADDR a chip write is a CTRLW with the chip's signal; no other write, and with no CTRL_ADDR no
other operation, changes the latch; a CTRL_ADDR off the chips fails the configuration's check. -/
theorem latchSnoopsChipWriteAtCtrlAddr : Obligations.LatchSnoopsChipWriteAtCtrlAddr := by
  refine ⟨fun s addr val ch hc htag hch ha => ?_, fun s t addr val he h => ?_, fun i s t => eq_ctrlw_of_ctrl_ne,
    fun s a ha hno => step_of_not_configOk (configOk_ne_true_of_ctrlAddr ha hno)⟩
  · exact ⟨_, exec_ctrlw_running hc val, exec_wr_of_ctrlAddr hc htag hch ha (exec_ctrlw_running hc val)⟩
  · rcases exec_next he with ⟨-, rfl⟩ | ⟨-, -, r, rfl⟩
    · rfl
    · exact busWrite_ctrl_of_no_snoop (s := s.opened) h

end Sys2Proof.Machine
end

section
/-! PROOFS. The cartridge (spec 42_cartridge.md): INSERT and REMOVE (R120 to R127, R132), the bank and slice triggers
(R128 to R130), and the operations that answer at all (R120, 70 R217). -/

namespace Sys2Proof.Machine

/-- Settles O9: refused while crashed, finished in its effect while running, stopped on operands that are not legal. -/
theorem everyLegalOperationAnswers : Obligations.EveryLegalOperationAnswers := by
  refine fun i s => ⟨fun hw => ?_, fun hw hc => exec_illegal hc hw⟩
  cases hc : s.crashed with
  | true => exact ⟨_, exec_crashed i hc⟩
  | false =>
    obtain ⟨r, he⟩ := exec_running hc hw
    exact ⟨_, he⟩

/-! ### REMOVE (R127) -/

/-- A running REMOVE is DoRemove (42 R127). -/
theorem exec_remove_running {s : State} (hc : s.crashed = false) :
    exec .remove s = .next { doRemove s.opened with result := some .done } := by
  rw [exec, execRemove, operate_running hc]
  rfl

/-- The removed state, removed again, is the same: clearing and sealing the window are idempotent (42 R127). -/
theorem doRemove_again {s t : State} {r : Result} (ht : t = { doRemove s.opened with result := some r }) :
    ({ doRemove t.opened with result := some r } : State) = t := by
  rw [doRemove_finished, ht, doRemove_finished]
  simp only [clearWindow_twice, sealWindow_twice]

/-- Settles O23: REMOVE is DoRemove, whose end state `noCartridgeAfter_doRemove` gives, and it is idempotent. -/
theorem removeLeavesNoCartridge : Obligations.RemoveLeavesNoCartridge := by
  refine ⟨fun s hc => ⟨_, exec_remove_running hc, noCartridgeAfter_doRemove s .done, rfl, ?_⟩, refusedWhenCrashed _⟩
  exact (exec_remove_running (s := { doRemove s.opened with result := some .done }) hc).trans
    (congrArg Host.Outcome.next (doRemove_again rfl))

/-- Settles O24: the window's pages are ROM after REMOVE, so a read gives the cleared byte and a write is dropped. -/
theorem removedWindowReadsZero : Obligations.RemovedWindowReadsZero := by
  intro s t addr hc _ h hin
  rw [exec_remove_running hc] at h
  obtain rfl := Host.Outcome.next.inj h
  generalize ht : ({ doRemove s.opened with result := some .done } : State) = t
  have hempty : EmptyWindow t := ht ▸ (emptyWindow_doRemove s.opened).same rfl rfl rfl rfl
  have hcfg : t.cfg = s.cfg := by rw [← ht, doRemove_cfg, opened_cfg]
  have hrunning : t.crashed = false := by rw [← ht, doRemove_crashed, opened_crashed, hc]
  have hquiet : t.outputs = [] := by rw [← ht, doRemove_outputs, opened_outputs]
  have hdone : t.result = some .done := by rw [← ht]
  rw [← hcfg] at hin
  obtain ⟨hfirst, hlast⟩ := page_of_window hin
  have hrom : t.pt.tag (pageOf addr) = .rom := hempty.tags _ hfirst hlast
  refine ⟨?_, fun val => ?_⟩
  · rw [readOfRamOrRomGivesTheByte t addr hrunning (by rw [hrom]; decide), hempty.bytes addr hin, ← hquiet]
  · rw [writeToRomIsDropped t addr val hrunning hrom, ← hquiet, ← hdone]

/-! ### Accesses routed to the cartridge (R128 to R130, 40 R84) -/

theorem hwRead_of_target_cartCtl {s : State} {addr : Addr} (h : target s.cfg (pageOf addr) = .cartCtl) :
    hwRead addr s = cartRead addr s := by
  rw [hwRead, h]

theorem cartTrigger_cfg (addr : Addr) (s : State) : (cartTrigger addr s).cfg = s.cfg := by
  obtain ⟨bank, q0, q1, mem, ht⟩ := cartTrigger_frame addr s
  rw [ht]

/-- A running RD of a cartridge page triggers, then answers the window's byte, or 0xFF outside it (40 R84). -/
theorem exec_rd_cartridge {s u : State} {addr : Addr} (hc : s.crashed = false)
    (htag : s.pt.tag (pageOf addr) = .hardware) (hpage : isCartridgePage s.cfg (addr.toNat / 256))
    (hu : cartTrigger addr s.opened = u) :
    exec (.rd addr) s = .next { u with
      result := some (.data (if inWindow s.cfg addr.toNat then u.mem.read addr.toNat else 0xFF)) } := by
  have hopen : s.opened.pt.tag (pageOf addr) = .hardware := htag
  have htarget : target s.opened.cfg (pageOf addr) = .cartCtl := target_cartCtl hpage
  have hcfg : u.cfg = s.cfg := by rw [← hu, cartTrigger_cfg, opened_cfg]
  rw [exec_rd_running hc, busRead_hardware hopen, hwRead_of_target_cartCtl htarget, cartRead, hu, ← hcfg]
  rfl

/-- A running WR to a cartridge page triggers, and its data is dropped (40 R84). -/
theorem exec_wr_cartridge {s u : State} {addr : Addr} (hc : s.crashed = false)
    (htag : s.pt.tag (pageOf addr) = .hardware) (hpage : isCartridgePage s.cfg (addr.toNat / 256))
    (hu : cartTrigger addr s.opened = u) (val : Byte) :
    exec (.wr addr val) s = .next { u with result := some .done } := by
  have hopen : s.opened.pt.tag (pageOf addr) = .hardware := htag
  have htarget : target s.opened.cfg (pageOf addr) = .cartCtl := target_cartCtl hpage
  rw [exec_wr_running hc, busWrite_hardware hopen, hwWrite_of_target_cartCtl htarget, hu]
  rfl

/-- An access that triggers nothing leaves the state (40 R84, 42 R129). -/
theorem cartTrigger_of_triggersNothing {s : State} {addr : Addr} (h : TriggersNothing s addr) :
    cartTrigger addr s = s := by
  rcases cartTrigger_cases addr s with he | ⟨c, b, hcart, hs, hpage, hb, -⟩ | ⟨c, r, k, hcart, hq, ht, -⟩
  · exact he
  · have hnone := (h c hcart).1 hs (by rw [← pageOf_toNat, hpage])
    rw [hb] at hnone
    cases hnone
  · have hnone := (sliceTrigger_eq_none_iff addr).2 ((h c hcart).2 hq)
    rw [ht] at hnone
    cases hnone

/-- Settles O16: with no trigger the access is served in the state as it is. -/
theorem cartridgePageWithoutTrigger : Obligations.CartridgePageWithoutTrigger := by
  intro s addr hc htag hpage hno
  have hu : cartTrigger addr s.opened = s.opened := cartTrigger_of_triggersNothing (s := s.opened) hno
  exact ⟨exec_rd_cartridge hc htag hpage hu, exec_wr_cartridge hc htag hpage hu⟩

/-- An access of SEL_PAGE whose nibble SEL_MATCH maps copies the bank of a SUPER cartridge (40 R84). -/
theorem cartTrigger_of_bank {s : State} {addr : Addr} {c : Cartridge} {b : Fin 16} (hcart : s.cart = some c)
    (hs : c.cls = .super) (hpage : addr.toNat / 256 = s.cfg.selPage.toNat)
    (hb : selMatch s.cfg (nibbleOf addr) = some b) : cartTrigger addr s = copyBank c b.val s := by
  have hsel : pageOf addr = s.cfg.selPage := BitVec.eq_of_toNat_eq (by rw [pageOf_toNat, hpage])
  simp only [cartTrigger, hcart, hs, bankTrigger, if_pos hsel, hb]

/-- SEL_PAGE is a cartridge page under a checked configuration (40 R82, 70 R215 item 4). -/
theorem isCartridgePage_selPage {cfg : Config} (hk : configOk cfg = true) : isCartridgePage cfg cfg.selPage.toNat :=
  ⟨Or.inr (Or.inr (Or.inr rfl)), (chipOf_eq_none_iff _).1 (selPageFree_of_configOk hk)⟩

/-- Settles O17: the trigger copies the bank, and the access is served in the state with the new bank. -/
theorem bankSelectSwitchesBeforeService : Obligations.BankSelectSwitchesBeforeService := by
  intro s addr c b hc hk htag hcart hs haddr hb
  have hpage : isCartridgePage s.cfg (addr.toNat / 256) := haddr ▸ isCartridgePage_selPage hk
  have hu : cartTrigger addr s.opened = copyBank c b.val s.opened := cartTrigger_of_bank hcart hs haddr hb
  exact ⟨(copyBank c b.val s.opened).mem, fun a => Memory.read_overwrite_slice _ _ _ _ _ _ a.isLt,
    exec_rd_cartridge hc htag hpage hu, exec_wr_cartridge hc htag hpage hu⟩

/-- An access of one of the 4-byte windows copies the slice of a QUIRK cartridge (40 R84). -/
theorem cartTrigger_of_slice {s : State} {addr : Addr} {c : Cartridge} {r : Fin 2} {k : BitVec 2}
    (hcart : s.cart = some c) (hq : isQuirk c.cls = true) (ht : sliceTrigger addr = some (r, k)) :
    cartTrigger addr s = copySlice c r k s := by
  cases hcls : c.cls with
  | fixed | super =>
    rw [hcls] at hq
    cases hq
  | quirkA | quirkB => simp only [cartTrigger, hcart, hcls, sliceAccess, ht]

/-- The 4-byte windows lie on the cartridge pages 0x4F and 0x5F (40 R82, 42 R130). -/
theorem isCartridgePage_slice (cfg : Config) {a : Nat} {r : Fin 2} {k : BitVec 2}
    (h : a = 0x4FF6 + r.val * 0x1000 + k.toNat) : isCartridgePage cfg (a / 256) := by
  have hk := k.isLt
  have hpage : a / 256 = 0x4F ∨ a / 256 = 0x5F := by omega
  have hnochip (ch : Chip) : (0x4F, ch) ∉ chipPages ∧ (0x5F, ch) ∉ chipPages := by
    cases ch <;> decide
  refine ⟨Or.inr (hpage.imp_right Or.inl), fun ch hch => ?_⟩
  rcases hpage with hp | hp
  · exact (hnochip ch).1 (hp ▸ hch)
  · exact (hnochip ch).2 (hp ▸ hch)

/-- The selector of region 1 is set when the region is 1 (42 R130). -/
theorem qsel1_of_region (r : Fin 2) (k q : BitVec 2) : (if r = 0 then q else k) = if r = 1 then k else q := by
  match r with
  | 0 => rfl
  | 1 => rfl

/-- Settles O18: the trigger copies the slice, and the access, which lies in the slice's region, is served in the state
with the new slice. -/
theorem sliceAccessSwitchesBeforeService : Obligations.SliceAccessSwitchesBeforeService := by
  intro s addr c r k hc hk htag hcart hq haddr
  have hpage : isCartridgePage s.cfg (addr.toNat / 256) := isCartridgePage_slice s.cfg haddr
  have hu : cartTrigger addr s.opened = copySlice c r k s.opened :=
    cartTrigger_of_slice hcart hq ((sliceTrigger_eq_some_iff addr r k).2 haddr)
  have hread (a : Addr) : (copySlice c r k s.opened).mem.read a.toNat =
      if 0x4000 + r.val * 0x1000 ≤ a.toNat ∧ a.toNat < 0x5000 + r.val * 0x1000
      then imageByte c.img (sliceOffset s.cfg c.cls r k + (a.toNat - (0x4000 + r.val * 0x1000)))
      else s.mem.read a.toNat := by
    have hbase : 0x4000 + r.val * 0x1000 = regionBase r := rfl
    have hend : 0x5000 + r.val * 0x1000 = regionBase r + sliceSize := by
      unfold regionBase sliceSize
      omega
    rw [hbase, hend, copySlice_mem, Memory.read_overwrite_slice _ _ _ _ _ _ a.isLt, opened_cfg, opened_mem]
  have hserved : (if inWindow s.cfg addr.toNat then (copySlice c r k s.opened).mem.read addr.toNat else 0xFF) =
      imageByte c.img (sliceOffset s.cfg c.cls r k + 0xFF6 + k.toNat) := by
    have hreg := regions_of_configOk hk
    have hin : inWindow s.cfg addr.toNat = true := (inWindow_iff _ _).2 (by omega)
    rw [if_pos hin, hread, if_pos (by omega)]
    congr 1
    omega
  have hsel := qsel1_of_region r k s.qsel1
  refine ⟨(copySlice c r k s.opened).mem, hread, ?_, fun val => ?_⟩
  · rw [← hsel, ← hserved]
    exact exec_rd_cartridge hc htag hpage hu
  · rw [← hsel]
    exact exec_wr_cartridge hc htag hpage hu val

/-! ### INSERT's checks (R120 to R124, R132) -/

/-- Row 2 of 42 R132. -/
theorem identify_of_short {cfg : Config} {bs : List Byte} {size : Nat} (h : size < 0x1000) :
    identify cfg (some bs) size = .error .cartCantOpen :=
  if_pos h

/-- Row 3 of 42 R132. -/
theorem identify_of_signed {cfg : Config} {bs : List Byte} {size : Nat} (h : 0x1000 ≤ size)
    (hsig : cfg.sigSavestate <+: bs.take size ∨ cfg.sigContainer <+: bs.take size) :
    identify cfg (some bs) size = .error .cartBadFormat := by
  rcases identify_cases cfg bs size with ⟨-, hshort⟩ | ⟨hi, -⟩ | ⟨-, hsave, hcont, -⟩
  · omega
  · exact hi
  · exact absurd hsig (not_or.2 ⟨hsave, hcont⟩)

/-- Past its length and signature checks INSERT checks the size, and then the catalog (42 R122, R132). -/
theorem identify_of_unsigned {cfg : Config} {bs : List Byte} {size : Nat} (h : 0x1000 ≤ size)
    (hsig : ¬(cfg.sigSavestate <+: bs.take size ∨ cfg.sigContainer <+: bs.take size)) :
    identify cfg (some bs) size =
      if rawSizeOk cfg size = true then identifyImage cfg (bs.take size) size else .error .cartBadFormat := by
  rcases identify_cases cfg bs size with ⟨-, hshort⟩ | ⟨-, -, hsig'⟩ | ⟨-, -, -, hi⟩
  · omega
  · exact absurd hsig' hsig
  · exact hi

/-- Row 4 of 42 R132. -/
theorem identify_of_unaccepted {cfg : Config} {bs : List Byte} {size : Nat} (h : 0x1000 ≤ size)
    (hsig : ¬(cfg.sigSavestate <+: bs.take size ∨ cfg.sigContainer <+: bs.take size))
    (hsize : ¬AcceptedSize cfg size) : identify cfg (some bs) size = .error .cartBadFormat :=
  (identify_of_unsigned h hsig).trans (if_neg (mt (rawSizeOk_iff cfg size).1 hsize))

/-- An accepted image goes to the catalog (42 R123). -/
theorem identify_of_accepted {cfg : Config} {bs : List Byte} {size : Nat} (h : 0x1000 ≤ size)
    (hsig : ¬(cfg.sigSavestate <+: bs.take size ∨ cfg.sigContainer <+: bs.take size))
    (hsize : AcceptedSize cfg size) : identify cfg (some bs) size = identifyImage cfg (bs.take size) size :=
  (identify_of_unsigned h hsig).trans (if_pos ((rawSizeOk_iff cfg size).2 hsize))

/-- Row 5 of 42 R132. -/
theorem identifyImage_of_uncatalogued {cfg : Config} {img : List Byte} {size : Nat}
    (h : catalogEntry cfg (Config.fingerprint img) = none) :
    identifyImage cfg img size = .error .cartBadFormat := by
  rw [identifyImage, h]

/-- Row 6 of 42 R132. -/
theorem identifyImage_of_wrong_size {cfg : Config} {img : List Byte} {size : Nat} {e : CatalogEntry}
    (h : catalogEntry cfg (Config.fingerprint img) = some e) (hsize : size ≠ (typeRow cfg e.typeTag).imgSize) :
    identifyImage cfg img size = .error .cartBadFormat := by
  rw [identifyImage, h]
  exact if_neg hsize

/-- Row 7 of 42 R132. -/
theorem identifyImage_of_match {cfg : Config} {img : List Byte} {size : Nat} {e : CatalogEntry}
    (h : catalogEntry cfg (Config.fingerprint img) = some e) (hsize : size = (typeRow cfg e.typeTag).imgSize) :
    identifyImage cfg img size = .ok (makeCartridge cfg img size e) :=
  (identifyImage_eq_ok_iff cfg img size _).2 ⟨e, h, hsize, rfl⟩

/-! ### INSERT's outcomes (R120, R132) -/

/-- A running INSERT that fails a check ends with no cartridge and that check's result (42 R132). -/
theorem exec_insert_failed {s : State} {bytes : Option (List Byte)} {size : Nat} {r : Result}
    (hc : s.crashed = false) (hb : bufferHolds bytes size = true) (hi : identify s.cfg bytes size = .error r) :
    exec (.insert bytes size) s = .next { doRemove s.opened with result := some r } := by
  simp only [exec, execInsert, operate_running hc, opened_cfg, hb, if_true, hi, State.finish]

/-- A running INSERT that passes its checks activates the cartridge (42 R120). -/
theorem exec_insert_passed {s : State} {bytes : Option (List Byte)} {size : Nat} {c : Cartridge}
    (hc : s.crashed = false) (hb : bufferHolds bytes size = true) (hi : identify s.cfg bytes size = .ok c) :
    exec (.insert bytes size) s = .next { activate c (doRemove s.opened) with result := some .ok } := by
  simp only [exec, execInsert, operate_running hc, opened_cfg, hb, if_true, hi, State.finish]

/-- The result INSERT reports of its checks (42 R132). -/
def insertResult : Except Result Cartridge → Result
  | .error r => r
  | .ok _ => .ok

/-- A running INSERT reports the result of its checks; any result but OK ends with no cartridge (42 R120, R132). -/
theorem exec_insert_outcome {s : State} {bytes : Option (List Byte)} {size : Nat} (hc : s.crashed = false)
    (hb : bufferHolds bytes size = true) :
    ∃ t, exec (.insert bytes size) s = .next t ∧ t.result = some (insertResult (identify s.cfg bytes size)) ∧
      (t.result ≠ some .ok → t = { doRemove s.opened with result := t.result } ∧ NoCartridgeAfter s t) := by
  cases hi : identify s.cfg bytes size with
  | error r => exact ⟨_, exec_insert_failed hc hb hi, rfl, fun _ => ⟨rfl, noCartridgeAfter_doRemove s r⟩⟩
  | ok c => exact ⟨_, exec_insert_passed hc hb hi, rfl, fun hne => absurd rfl hne⟩

/-- Settles O25: INSERT reports the result of its checks, which each row of 42 R132 gives. -/
theorem insertOutcomesInCheckingOrder : Obligations.InsertOutcomesInCheckingOrder := by
  intro s bytes size hc hb
  obtain ⟨t, he, hres, hend⟩ := exec_insert_outcome (s := s) hc hb
  refine ⟨t, he, ?_, fun bs hbs => ?_, fun hne => ?_⟩
  · rintro rfl
    exact hres
  · subst hbs
    refine ⟨fun hshort => ?_, fun hlen hsig => ?_, fun hlen hsig hsize => ?_, fun hlen hsig hsize hcat => ?_,
      fun e hlen hsig hsize hcat himg => ?_, fun e hlen hsig hsize hcat himg => ?_⟩
    · rw [hres, identify_of_short hshort, insertResult]
    · rw [hres, identify_of_signed hlen hsig, insertResult]
    · rw [hres, identify_of_unaccepted hlen hsig hsize, insertResult]
    · rw [hres, identify_of_accepted hlen hsig hsize, identifyImage_of_uncatalogued hcat, insertResult]
    · rw [hres, identify_of_accepted hlen hsig hsize, identifyImage_of_wrong_size hcat himg, insertResult]
    · rw [hres, identify_of_accepted hlen hsig hsize, identifyImage_of_match hcat himg, insertResult]
  · obtain ⟨hdata, hnone⟩ := hend hne
    refine ⟨hnone, ?_⟩
    rw [hdata]
    rfl

/-! ### A successful INSERT (R120, R125, R126) -/

/-- Settles O26: the checks give the catalog's cartridge, and `read_activate` and `tag_activate` its bytes and tags. -/
theorem insertMapsTheImage : Obligations.InsertMapsTheImage := by
  intro s bs size e hc hk hb hlen hsave hcont hsize hcat himg
  have hi : identify s.cfg (some bs) size = .ok (makeCartridge s.cfg (bs.take size) size e) := by
    rw [identify_of_accepted hlen (not_or.2 ⟨hsave, hcont⟩) hsize, identifyImage_of_match hcat himg]
  obtain ⟨hcls, hwin⟩ := cls_of_identify hk hi
  refine ⟨_, _, exec_insert_passed hc (decide_eq_true hb) hi, rfl, ?_, read_activate hk hcls hwin, tag_activate _ s⟩
  obtain ⟨mem, pt, ha⟩ := activate_frame (makeCartridge s.cfg (bs.take size) size e) s.opened
  rw [ha]
  rfl

/-! ### INSERT is idempotent (R120) -/

/-- The state of a successful INSERT, with the same cartridge inserted again, is the same: the bytes and the tags are
those over a window cleared and sealed first, whatever it held (42 R120, R125, R126). -/
theorem activate_again {s t : State} (hk : configOk s.cfg = true) (hm : s.mem.wf = true) {c : Cartridge}
    (hc : c.cls = (typeRow s.cfg c.typeTag).cls) (hs : c.cls = .super → winLen s.cfg = 0x8000)
    (ht : t = { activate c (doRemove s.opened) with result := some .ok }) :
    ({ activate c (doRemove t.opened) with result := some .ok } : State) = t := by
  obtain ⟨mem, pt, ha⟩ := activate_frame c s.opened
  obtain ⟨mem', pt', ha'⟩ := activate_frame c t.opened
  have hcfg : t.cfg = s.cfg := by rw [ht, ha]; rfl
  have htmem : t.mem = (activate c (doRemove s.opened)).mem := by rw [ht]
  have htpt : t.pt = (activate c (doRemove s.opened)).pt := by rw [ht]
  have hmem : (activate c (doRemove t.opened)).mem = t.mem := by
    have hwf : t.mem.wf = true := by rw [htmem]; exact wf_activate_removed hm c
    refine Memory.ext_addr (wf_activate_removed hwf c) hwf fun a => ?_
    rw [read_activate (by rw [hcfg]; exact hk) (by rw [hcfg]; exact hc) (by rw [hcfg]; exact hs), htmem,
      read_activate hk hc hs, hcfg]
    split <;> rfl
  have hpt : (activate c (doRemove t.opened)).pt = t.pt :=
    PageTable.ext_tag fun p => by rw [tag_activate, htpt, tag_activate, hcfg, powerUpTag_twice]
  rw [ha'] at hmem hpt ⊢
  simp only at hmem hpt
  rw [hmem, hpt, ht, ha]
  rfl

/-- Settles O27: the second INSERT runs the same checks, and neither removing nor activating again changes anything. -/
theorem insertIsIdempotent : Obligations.InsertIsIdempotent := by
  intro s t bytes size hk hm h
  rcases exec_next h with ⟨hc, rfl⟩ | ⟨hc, hb, -⟩
  · exact exec_crashed _ hc
  · cases hi : identify s.cfg bytes size with
    | error r =>
      rw [exec_insert_failed hc hb hi] at h
      obtain rfl := Host.Outcome.next.inj h
      exact (exec_insert_failed (s := { doRemove s.opened with result := some r }) hc hb hi).trans
        (congrArg Host.Outcome.next (doRemove_again rfl))
    | ok c =>
      obtain ⟨hcls, hwin⟩ := cls_of_identify hk hi
      rw [exec_insert_passed hc hb hi] at h
      have ht := (Host.Outcome.next.inj h).symm
      obtain ⟨mem, pt, ha⟩ := activate_frame c s.opened
      have hcfg : t.cfg = s.cfg := by rw [ht, ha]; rfl
      have hrunning : t.crashed = false := by rw [ht, ha]; exact hc
      rw [exec_insert_passed hrunning hb (by rw [hcfg]; exact hi), activate_again hk hm hcls hwin ht]

/-! ### The mirrored 16KiB cartridge (R124, 95 V1) -/

/-- Where one descriptor alone covers an address, the layout shows its image byte (20 R45). -/
theorem layoutByte_of_only_cover {layout : List Descriptor} {d : Descriptor} {a : Nat} (img : List Byte)
    (hd : d ∈ layout) (hcov : d.dst ≤ a ∧ a < d.dst + d.size)
    (honly : ∀ e ∈ layout, e.dst ≤ a ∧ a < e.dst + e.size → e = d) :
    layoutByte img layout a = imageByte img (d.src + (a - d.dst)) := by
  have hfind : layout.reverse.find? (covers a) = some d := by
    cases hf : layout.reverse.find? (covers a) with
    | none =>
      have hnot := List.find?_eq_none.1 hf d (List.mem_reverse.2 hd)
      simp [covers, hcov] at hnot
    | some e =>
      have he := List.find?_some hf
      simp only [covers, Bool.and_eq_true, decide_eq_true_eq] at he
      rw [honly e (List.mem_reverse.1 (List.mem_of_find?_eq_some hf)) he]
  delta covers at hfind
  rw [layoutByte, hfind]

/-- The layout of the EE16 row (42 R124). -/
def mirroredLayout : List Descriptor :=
  [⟨0x0000, 0x4000, 0x2000⟩, ⟨0x0000, 0x6000, 0x2000⟩, ⟨0x0000, 0x8000, 0x2000⟩, ⟨0x2000, 0xA000, 0x2000⟩]

theorem mirroredLayout_sizes : ∀ d ∈ mirroredLayout, d.size = 0x2000 ∧ d.src + 0x2000 ≤ 0x4000 := by decide

/-- Each of the four windows of the EE16 row shows its own half of the image (42 R124). -/
theorem layoutByte_mirroredLayout {d : Descriptor} (hd : d ∈ mirroredLayout) (img : List Byte) {i : Nat}
    (hi : i < 0x2000) : layoutByte img mirroredLayout (d.dst + i) = imageByte img (d.src + i) := by
  have hapart : ∀ e ∈ mirroredLayout, e = d ∨ e.dst + 0x2000 ≤ d.dst ∨ d.dst + 0x2000 ≤ e.dst := by
    revert d
    decide
  obtain ⟨hsized, -⟩ := mirroredLayout_sizes d hd
  rw [layoutByte_of_only_cover img hd (by omega) fun e he hcov => ?_, Nat.add_sub_cancel_left]
  obtain ⟨hsize, -⟩ := mirroredLayout_sizes e he
  exact (hapart e he).resolve_right (by omega)

/-- The view of a FIXED cartridge is its type's layout (20 R45). -/
theorem viewOf_fixed {cfg : Config} {c : Cartridge} (h : c.cls = .fixed) (bank : Nat) (q0 q1 : BitVec 2) (a : Nat) :
    viewOf cfg c bank q0 q1 a = layoutByte c.img (typeRow cfg c.typeTag).layout a := by
  rw [viewOf, h]

/-- An image byte inside the image is the image's own. -/
theorem some_imageByte {img : List Byte} {i : Nat} (h : i < img.length) : some (imageByte img i) = img[i]? := by
  rw [imageByte, List.getD_eq_getElem?_getD, List.getElem?_eq_getElem h]
  rfl

/-- What MEM shows at every window address, as an equation over plain numbers. -/
theorem read_of_window {cfg : Config} {mem : Memory} (f : Nat → Byte)
    (h : ∀ a : Addr, inWindow cfg a.toNat = true → mem.read a.toNat = f a.toNat) {n : Nat}
    (hn : inWindow cfg n = true) : mem.read n = f n := by
  have hlt := cfg.winHi.isLt
  obtain ⟨-, hhigh⟩ := (inWindow_iff cfg n).1 hn
  have haddr : (BitVec.ofNat 16 n).toNat = n := by rw [BitVec.toNat_ofNat, Nat.mod_eq_of_lt (by omega)]
  have hread := h (BitVec.ofNat 16 n)
  rw [haddr] at hread
  exact hread hn

/-- MAX_CART bounds every type's image size; a tag with no row has size 0 (70 R215 item 9). -/
theorem imgSize_le_maxCart {cfg : Config} (hk : configOk cfg = true) (t : Byte) :
    (typeRow cfg t).imgSize ≤ cfg.maxCart := by
  obtain ⟨hwf, -⟩ := (configOk_iff_wellFormed cfg).1 hk
  rcases typeRow_cases cfg t with ⟨hrow, -⟩ | hrow
  · exact hwf.sizes.2 _ hrow
  · rw [hrow]
    exact Nat.zero_le _

/-- Settles O28: the INSERT maps the image (O26), and each window byte is the byte of its one descriptor. -/
theorem mirroredOffsetCartridgeWindows : Obligations.MirroredOffsetCartridgeWindows := by
  intro s img e hc hk hlen hsave hcont hcat hrow
  have htake : img.take 0x4000 = img := List.take_of_length_le hlen.le
  have himg : (typeRow s.cfg e.typeTag).imgSize = 0x4000 := by rw [hrow]
  have hcls : (typeRow s.cfg e.typeTag).cls = .fixed := by rw [hrow]
  have hlayout : (typeRow s.cfg e.typeTag).layout = mirroredLayout := by rw [hrow, mirroredLayout]
  have hsize : AcceptedSize s.cfg 0x4000 :=
    Or.inr ⟨⟨14, by norm_num⟩, by norm_num, himg ▸ imgSize_le_maxCart hk e.typeTag⟩
  obtain ⟨t, c, he, hcart, hdata, hbytes, -⟩ := insertMapsTheImage s img 0x4000 e hc hk hlen.ge (by norm_num)
    (by rwa [htake]) (by rwa [htake]) hsize (by rwa [htake]) himg.symm
  have hview (a : Nat) : viewOf s.cfg c (powerUpBank s.cfg c.cls) 0 0 a = layoutByte img mirroredLayout a := by
    rw [hcart, viewOf_fixed hcls, hlayout, htake]
  have hinside : LayoutInWindow s.cfg mirroredLayout := by
    obtain ⟨hfixed, -⟩ := layouts_in_window hk (c := c) (by rw [hcart])
    rw [hcart] at hfixed
    exact hlayout ▸ hfixed hcls
  have window (d : Descriptor) (hd : d ∈ mirroredLayout) (i : Nat) (hi : i < 0x2000) :
      some (t.mem.read (d.dst + i)) = img[d.src + i]? := by
    obtain ⟨hlow, hhigh⟩ := hinside d hd
    obtain ⟨hsized, hsrc⟩ := mirroredLayout_sizes d hd
    have hin : inWindow s.cfg (d.dst + i) = true := (inWindow_iff _ _).2 (by omega)
    rw [read_of_window _ (fun a ha => ((hbytes a).trans (if_pos ha)).trans (hview a.toNat)) hin,
      layoutByte_mirroredLayout hd img hi, some_imageByte (by omega)]
  refine ⟨t, he, by rw [hdata], fun i hi => ⟨?_, ?_, ?_, ?_⟩⟩
  · simpa using window ⟨0x0000, 0x4000, 0x2000⟩ (by decide) i hi
  · simpa using window ⟨0x0000, 0x6000, 0x2000⟩ (by decide) i hi
  · simpa using window ⟨0x0000, 0x8000, 0x2000⟩ (by decide) i hi
  · exact window ⟨0x2000, 0xA000, 0x2000⟩ (by decide) i hi

end Sys2Proof.Machine
end

section
/-! PROOFS. The escape traps (spec 43_escape_trap.md): INSTALL and INSTALLR (R150 to R152), UNINST (R153), FIRE (R154,
R155) and the crash condition (R156, R158). -/

namespace Sys2Proof.Machine

/-! ### INSTALL and INSTALLR (R150 to R152) -/

/-! The two sentinel bytes and the return opcode stand at different addresses, modulo 2^16. -/

theorem add_one_ne_self (a : Addr) : a + 1 ≠ a := by bv_omega

theorem add_two_ne_self (a : Addr) : a + 2 ≠ a := by bv_omega

theorem add_two_ne_add_one (a : Addr) : a + 2 ≠ a + 1 := by bv_omega

theorem slot_plantTrap (addr : Addr) (code : Byte) (h : Handler) (s : State) (c : Byte) :
    (plantTrap addr code h s).slot c = if c = code then ⟨true, addr, h⟩ else s.slot c :=
  slot_setSlot s code c _

/-- The two sentinel bytes (43 R151), and every other byte as it was. -/
theorem read_plantTrap (addr : Addr) (code : Byte) (h : Handler) (s : State) (a : Addr) :
    (plantTrap addr code h s).mem.read a.toNat =
      if a = addr then s.cfg.escOp else if a = addr + 1 then code else s.mem.read a.toNat := by
  rw [plantTrap_mem, Memory.read_write, Memory.read_write]
  by_cases ha : a = addr
  · subst ha
    rw [if_neg (add_one_ne_self a).symm, if_pos rfl, if_pos rfl]
  · rw [if_neg ha, if_neg ha]

/-- A running INSTALL plants the trap (43 R150). -/
theorem exec_install_running {s : State} (hc : s.crashed = false) (addr : Addr) (code : Byte) (h : Handler) :
    exec (.install addr code h) s = (plantTrap addr code h s.opened).finish .done := by
  rw [exec, execInstall, operate_running hc]

/-- A running INSTALLR plants the trap and stores the return opcode (43 R152). -/
theorem exec_installr_running {s : State} (hc : s.crashed = false) (addr : Addr) (code : Byte) (h : Handler) :
    exec (.installr addr code h) s =
      ((plantTrap addr code h s.opened).poke (addr + 2) s.cfg.retOp).finish .done := by
  rw [exec, execInstallr, operate_running hc]
  rfl

/-- Settles O29: INSTALL is `plantTrap`, whose slot and bytes are `slot_plantTrap` and `read_plantTrap`. -/
theorem installRecordsSlotAndSentinel : Obligations.InstallRecordsSlotAndSentinel :=
  ⟨fun s addr code h hc => ⟨_, exec_install_running hc addr code h, rfl, slot_plantTrap addr code h s.opened,
    read_plantTrap addr code h s.opened⟩, fun _ _ _ => refusedWhenCrashed _⟩

/-- Settles O30: the return opcode lands beside the two sentinel bytes, so it overwrites neither. -/
theorem installrAddsReturnOpcode : Obligations.InstallrAddsReturnOpcode := by
  refine ⟨fun s addr code h hc => ⟨_, exec_installr_running hc addr code h, rfl,
    slot_plantTrap addr code h s.opened, fun a => ?_⟩, fun _ _ _ => refusedWhenCrashed _⟩
  have hread : ((plantTrap addr code h s.opened).poke (addr + 2) s.cfg.retOp).mem.read a.toNat =
      if a = addr + 2 then s.cfg.retOp
      else if a = addr then s.cfg.escOp else if a = addr + 1 then code else s.mem.read a.toNat := by
    rw [poke_mem, Memory.read_write, read_plantTrap]
    rfl
  refine hread.trans ?_
  by_cases ha : a = addr + 2
  · subst ha
    rw [if_pos rfl, if_neg (add_two_ne_self addr), if_neg (add_two_ne_add_one addr), if_pos rfl]
  · rw [if_neg ha, if_neg ha]

/-! ### FIRE (R154, R155) -/

/-- The comparator compares the slot's address plus the sentinel's width with the pc (43 R155). -/
theorem slotMatches_iff (slot : Slot) (pc : Addr) :
    slotMatches slot pc = true ↔ slot.valid = true ∧ slot.addr + 2 = pc := by
  rw [slotMatches, Bool.and_eq_true, beq_iff_eq, sentinelStart, eq_sub_iff_add_eq]

/-- A FIRE that matches invokes the slot's handler (43 R154). -/
theorem exec_fire_of_match {s : State} {pc : Addr} {code : Byte} (hc : s.crashed = false)
    (hm : (s.slot code).valid = true ∧ (s.slot code).addr + 2 = pc) :
    exec (.fire pc code) s = .next { s with
      result := some (.invoked (s.slot code).handler)
      outputs := [.invoke (s.slot code).handler]
      history := .invoke (s.slot code).handler :: s.history } := by
  have hslot : slotMatches (s.opened.slot code) pc = true := (slotMatches_iff _ _).2 hm
  rw [exec, execFire, operate_running hc, if_pos hslot]
  rfl

/-- Any other FIRE crashes the machine (43 R156). -/
theorem exec_fire_of_mismatch {s : State} {pc : Addr} {code : Byte} (hc : s.crashed = false)
    (hm : ¬((s.slot code).valid = true ∧ (s.slot code).addr + 2 = pc)) :
    exec (.fire pc code) s = .next { s with
      crashed := true, result := some .crash, outputs := [.crash], history := .crash :: s.history } := by
  have hslot : ¬slotMatches (s.opened.slot code) pc = true := fun h => hm ((slotMatches_iff _ _).1 h)
  rw [exec, execFire, operate_running hc, if_neg hslot]
  rfl

/-- Settles O32: the two arms of FIRE, and the crash refusal of every operation. -/
theorem fireInvokesOrCrashes : Obligations.FireInvokesOrCrashes :=
  ⟨fun _ _ _ hc => ⟨exec_fire_of_match hc, exec_fire_of_mismatch hc⟩, fun _ _ => refusedWhenCrashed _⟩

/-! ### UNINST (R153) -/

/-- A running UNINST clears the slot's VALID (43 R153). -/
theorem exec_uninst_running {s : State} (hc : s.crashed = false) (code : Byte) :
    exec (.uninst code) s = (s.opened.setSlot code { s.slot code with valid := false }).finish .done := by
  rw [exec, execUninst, operate_running hc]
  rfl

/-- Settles O31: UNINST is one slot write, and a FIRE of the slot that is no longer valid does not match. -/
theorem uninstClearsValidOnly : Obligations.UninstClearsValidOnly := by
  refine ⟨fun s code hc => ?_, fun _ => refusedWhenCrashed _⟩
  have hslot (c : Byte) : (s.opened.setSlot code { s.slot code with valid := false }).slot c =
      if c = code then { s.slot c with valid := false } else s.slot c := by
    rw [slot_setSlot]
    by_cases h : c = code
    · rw [if_pos h, if_pos h, h]
    · rw [if_neg h, if_neg h]
      rfl
  have hcleared : (s.opened.setSlot code { s.slot code with valid := false }).slot code =
      { s.slot code with valid := false } := by rw [hslot, if_pos rfl]
  refine ⟨_, exec_uninst_running hc code, rfl, hslot, fun pc => exec_fire_of_mismatch hc ?_⟩
  rintro ⟨hvalid, -⟩
  exact Bool.false_ne_true ((congrArg Slot.valid hcleared).symm.trans hvalid)

/-! ### FIRE after INSTALL and INSTALLR (R155, R158) -/

/-- Either installation leaves the machine running with the code's slot recorded. -/
theorem running_slot_of_installed {s t : State} {addr : Addr} {code : Byte} {h : Handler} (hc : s.crashed = false)
    (he : exec (.install addr code h) s = .next t ∨ exec (.installr addr code h) s = .next t) :
    t.crashed = false ∧ t.slot code = ⟨true, addr, h⟩ := by
  have hslot : (plantTrap addr code h s.opened).slot code = ⟨true, addr, h⟩ :=
    (slot_plantTrap addr code h s.opened code).trans (if_pos rfl)
  rw [exec_install_running hc, exec_installr_running hc] at he
  rcases he with he | he
  · obtain rfl := Host.Outcome.next.inj he
    exact ⟨hc, hslot⟩
  · obtain rfl := Host.Outcome.next.inj he
    exact ⟨hc, hslot⟩

/-- FIRE of an installed code at the pc after its sentinel invokes its handler. -/
theorem exec_fire_installed {s : State} {addr : Addr} {code : Byte} {h : Handler} (hc : s.crashed = false)
    (hs : s.slot code = ⟨true, addr, h⟩) : exec (.fire (addr + 2) code) s = .next { s with
      result := some (.invoked h), outputs := [.invoke h], history := .invoke h :: s.history } := by
  have hm : (s.slot code).valid = true ∧ (s.slot code).addr + 2 = addr + 2 := by
    rw [hs]
    exact ⟨rfl, rfl⟩
  rw [exec_fire_of_match hc hm, hs]

/-- FIRE of an installed code at any other pc crashes the machine. -/
theorem exec_fire_elsewhere {s : State} {addr pc : Addr} {code : Byte} {h : Handler} (hc : s.crashed = false)
    (hs : s.slot code = ⟨true, addr, h⟩) (hpc : pc ≠ addr + 2) : exec (.fire pc code) s = .next { s with
      crashed := true, result := some .crash, outputs := [.crash], history := .crash :: s.history } := by
  refine exec_fire_of_mismatch hc ?_
  rw [hs]
  rintro ⟨-, haddr⟩
  exact hpc haddr.symm

/-- Settles O33: both installations leave the same slot, and FIRE depends on the slot alone. -/
theorem installedTrapFiresOnlyAtItsAddress : Obligations.InstalledTrapFiresOnlyAtItsAddress := by
  intro s t addr pc code h hc he
  obtain ⟨hrun, hslot⟩ := running_slot_of_installed hc he
  exact ⟨exec_fire_installed hrun hslot, exec_fire_elsewhere hrun hslot⟩

/-- The bytes INSTALL leaves: the sentinel at its address, and every other byte as it was (43 R151). -/
theorem read_of_install {s t : State} {addr : Addr} {code : Byte} {h : Handler} (hc : s.crashed = false)
    (he : exec (.install addr code h) s = .next t) (a : Addr) : t.mem.read a.toNat =
      if a = addr then s.cfg.escOp else if a = addr + 1 then code else s.mem.read a.toNat := by
  rw [exec_install_running hc] at he
  obtain rfl := Host.Outcome.next.inj he
  exact read_plantTrap addr code h s.opened a

/-- Settles O34: the second INSTALL moves the code's slot and leaves the first sentinel's two bytes. -/
theorem staleSentinelCrashes : Obligations.StaleSentinelCrashes := by
  intro s t u a1 a2 code h1 h2 hc hne hafter hbefore ht hu
  obtain ⟨hrun, -⟩ := running_slot_of_installed hc (.inl ht)
  obtain ⟨hrun', hslot⟩ := running_slot_of_installed hrun (.inl hu)
  have hshift (k : Addr) : a1 + k ≠ a2 + k := fun h => hne (add_right_cancel h).symm
  refine ⟨?_, ?_, hslot, exec_fire_elsewhere hrun' hslot (hshift 2)⟩
  · rw [read_of_install hrun hu, if_neg hne.symm, if_neg hbefore.symm, read_of_install hc ht, if_pos rfl]
  · rw [read_of_install hrun hu, if_neg hafter.symm, if_neg (hshift 1), read_of_install hc ht,
      if_neg (add_one_ne_self a1), if_pos rfl]

/-! ### The crash condition (R156) -/

/-- Settles O45: CRASHED is written by FIRE alone (O44), and a FIRE that matches leaves it clear. -/
theorem onlyFireCrashes : Obligations.OnlyFireCrashes := by
  intro i s t h hc ht
  obtain ⟨-, -, -, -, -, -, -, -, -, -, -, hcrashed⟩ := stateIsWrittenOnlyByItsOperations i s t h
  have hfire : ∃ pc code, i = .fire pc code := hcrashed (by simp [ht, hc])
  obtain ⟨pc, code, rfl⟩ := hfire
  refine ⟨⟨pc, code, rfl⟩, ?_⟩
  by_cases hm : (s.slot code).valid = true ∧ (s.slot code).addr + 2 = pc
  · rw [exec_fire_of_match hc hm] at h
    obtain rfl := Host.Outcome.next.inj h
    exact absurd (hc.symm.trans ht) Bool.false_ne_true
  · rw [exec_fire_of_mismatch hc hm] at h
    obtain rfl := Host.Outcome.next.inj h
    exact ⟨rfl, rfl⟩

end Sys2Proof.Machine
end

section
/-! PROOFS. Lifecycle and snapshot (spec 44_lifecycle_snapshot.md): WARM (R170), COLD (R171, R172), SAVE (R174), LOAD
and the bank's round trip (R175). -/

namespace Sys2Proof.Machine

/-! ### WARM (R170) -/

/-- A running WARM emits the reset lines (44 R170). -/
theorem exec_warm_running {s : State} (hc : s.crashed = false) :
    exec .warm s = (resetLines s.opened).finish .done := by
  rw [exec, execWarm, operate_running hc]

/-- Settles O35: the reset lines are five signals, and nothing else is written. -/
theorem warmEmitsResetsAndKeepsState : Obligations.WarmEmitsResetsAndKeepsState := by
  refine ⟨fun s hc => ?_, refusedWhenCrashed _⟩
  rw [exec_warm_running hc, resetLines_eq]
  rfl

/-! ### COLD (R171, R172) -/

/-- The power-up mapping does not look at what has been emitted. -/
theorem powerUpMap_emitted (c : Cartridge) (s : State) (out hist : List Signal) :
    powerUpMap c { s with outputs := out, history := hist } =
      { powerUpMap c s with outputs := out, history := hist } := by
  unfold powerUpMap
  cases c.cls with
  | fixed | super | quirkA | quirkB => rfl

/-- COLD's second step does not look at what has been emitted. -/
theorem remap_emitted (s : State) (out hist : List Signal) :
    remap { s with outputs := out, history := hist } = { remap s with outputs := out, history := hist } := by
  simp only [remap]
  split
  · rfl
  · rw [powerUpMap_emitted]
    rfl

/-- The key-hold request depends on MODE and the configuration, which COLD's second step keeps. -/
theorem keyHoldSignals_remap (s : State) : keyHoldSignals (remap s) = keyHoldSignals s := by
  obtain ⟨bank, q0, q1, mem, pt, hr⟩ := remap_frame s
  rw [hr]
  rfl

/-- A running COLD remaps the cartridge, writes the flag byte last, and emits the reset signals and the key-hold
request (44 R171). -/
theorem exec_cold_running {s : State} (hc : s.crashed = false) :
    exec .cold s = .next { remap s with
      mem := (remap s).mem.write s.cfg.coldAddr s.cfg.coldVal
      result := some .done
      outputs := resetSignals ++ keyHoldSignals s
      history := (resetSignals ++ keyHoldSignals s).reverse ++ s.history } := by
  have hopened : remap (resetLines s.opened) =
      { remap s with outputs := resetSignals, history := resetSignals.reverse ++ s.history } := by
    rw [resetLines_eq]
    exact remap_emitted s _ _
  rw [← remap_cfg s, ← keyHoldSignals_remap s, List.reverse_append, List.append_assoc]
  simp only [exec, execCold, operate_running hc, hopened, keyHoldRequest_eq, State.finish]
  rfl

/-- Settles O36: COLD is its second step and the flag byte; `read_powerUpMap` and `tag_windowTags` give the window's
bytes and tags. -/
theorem coldRestoresThePowerUpMapping : Obligations.ColdRestoresThePowerUpMapping := by
  refine ⟨fun s hc hcart => ?_, fun s c hc hi hcart => ?_, refusedWhenCrashed _⟩
  · rw [exec_cold_running hc, remap_none hcart]
    exact ⟨_, rfl, rfl, Memory.read_write _ _ _⟩
  · obtain ⟨-, hcls, -, -⟩ := hi.cart c hcart
    rw [exec_cold_running hc, remap_some hcart (hi.selectors c hcart)]
    refine ⟨_, rfl, rfl, fun a => ?_, tag_windowTags _ _ _⟩
    rw [Memory.read_write, read_powerUpMap hi.config hcls (hi.winLen_of_super hcart)]

/-! ### SAVE (R174) -/

theorem cartIsSuper_none {s : State} (hcart : s.cart = none) : s.cartIsSuper = false := by
  rw [State.cartIsSuper, hcart]

theorem cartIsSuper_some {s : State} {c : Cartridge} (hcart : s.cart = some c) :
    s.cartIsSuper = (c.cls == .super) := by
  rw [State.cartIsSuper, hcart]

theorem cartIsSuper_iff (s : State) : s.cartIsSuper = true ↔ ∃ c, s.cart = some c ∧ c.cls = .super := by
  cases hcart : s.cart with
  | none => simp [cartIsSuper_none hcart]
  | some c => simp [cartIsSuper_some hcart]

theorem tagField_some {s : State} {c : Cartridge} (hcart : s.cart = some c) : tagField s = c.typeTag := by
  rw [tagField, hcart]

/-- A running SAVE reports the stream (44 R174). -/
theorem exec_save_running {s : State} (hc : s.crashed = false) :
    exec .save s = .next { s with result := some (.stream (saveStream s)), outputs := [] } := by
  rw [exec, execSave, operate_running hc]
  rfl

/-- Without a SUPER cartridge the stream has no bank field (44 R174). -/
theorem saveStream_of_not_super {s : State} (hs : s.cartIsSuper = false) :
    saveStream s = [⟨8, s.mode⟩, ⟨8, tagField s⟩] ++ s.cfg.legacy.map (fun w => ⟨w, 0⟩) := by
  rw [saveStream, hs]
  exact List.append_nil _

/-- With a SUPER cartridge the bank field comes last (44 R174). -/
theorem saveStream_of_super {s : State} (hs : s.cartIsSuper = true) :
    saveStream s = [⟨8, s.mode⟩, ⟨8, tagField s⟩] ++ s.cfg.legacy.map (fun w => ⟨w, 0⟩)
      ++ [⟨8, BitVec.ofNat 8 s.bank⟩] := by
  rw [saveStream, hs]
  rfl

/-- Settles O37: the stream by the class of the cartridge. -/
theorem saveWritesTheStream : Obligations.SaveWritesTheStream := by
  refine ⟨fun s hc => ⟨saveStream s, exec_save_running hc, fun hcart => ?_, fun c hcart hs => ?_,
    fun c hcart hs => ?_⟩, refusedWhenCrashed _⟩
  · rw [saveStream_of_not_super (cartIsSuper_none hcart), tagField, hcart]
  · have hsuper : s.cartIsSuper = false := (cartIsSuper_some hcart).trans (beq_false_of_ne hs)
    rw [saveStream_of_not_super hsuper, tagField_some hcart]
  · have hsuper : s.cartIsSuper = true := (cartIsSuper_iff s).2 ⟨c, hcart, hs⟩
    rw [saveStream_of_super hsuper, tagField_some hcart]

/-! ### A stream with ADB's fields in order (R175) -/

/-- A running LOAD of a stream that serves makes LOAD's writes. -/
theorem exec_load_of_some {s t : State} {stream : Stream} (hc : s.crashed = false)
    (hl : loadStream stream s.opened = some t) : exec (.load stream) s = .next { t with result := some .ok } := by
  simp only [exec, execLoad, operate_running hc, hl, State.finish]

/-- A running LOAD of a stream that does not serve is refused, and changes nothing (60 R195). -/
theorem exec_load_of_none {s : State} {stream : Stream} (hc : s.crashed = false)
    (hl : loadStream stream s.opened = none) :
    exec (.load stream) s = .next { s with result := some (.refused .snapshotMismatch), outputs := [] } := by
  simp only [exec, execLoad, operate_running hc, hl]
  rfl

/-- A bank field below 16 is taken, whatever follows it. -/
theorem readBank_of_lt {b : Byte} (hb : b.toNat < 16) (rest : Stream) :
    readBank (⟨8, b⟩ :: rest) = some ⟨b.toNat, hb⟩ := by
  simp only [readBank, readField_same, hb, dif_pos]

/-- A bank field of 16 or more does not serve: BANK stays below TOTAL (10 R26 item 1). -/
theorem readBank_of_ge {b : Byte} (hb : 16 ≤ b.toNat) (rest : Stream) : readBank (⟨8, b⟩ :: rest) = none := by
  simp only [readBank, readField_same, dif_neg (Nat.not_lt.2 hb)]

/-- Without a SUPER cartridge the head is all that is loaded. -/
theorem loadStream_of_not_super {s : State} {stream rest : Stream} {m : Byte} (hs : s.cartIsSuper = false)
    (hhead : readHead s.cfg.legacy stream = some (m, rest)) : loadStream stream s = some { s with mode := m } := by
  cases hcart : s.cart with
  | none => simp only [loadStream, hhead, hcart]
  | some c =>
    have hcls : c.cls ≠ .super := fun h => by simp [cartIsSuper_some hcart, h] at hs
    simp only [loadStream, hhead, hcart, if_neg hcls]

/-- With a SUPER cartridge the bank field follows the head, and its bank is copied into the window. -/
theorem loadStream_of_super {s : State} {c : Cartridge} {stream rest : Stream} {m : Byte} (hcart : s.cart = some c)
    (hs : c.cls = .super) (hhead : readHead s.cfg.legacy stream = some (m, rest)) :
    loadStream stream s = (readBank rest).map fun b => copyBank c b.val { s with mode := m } := by
  simp only [loadStream, hhead, hcart, if_pos hs]
  cases readBank rest with
  | none => rfl
  | some b => rfl

/-- LOAD without a SUPER cartridge sets MODE. -/
theorem exec_load_of_not_super {s : State} {m tag : Byte} {legacy rest : Stream} (hc : s.crashed = false)
    (hw : legacy.map (fun f => f.width) = s.cfg.legacy) (hs : s.cartIsSuper = false) :
    exec (.load ([⟨8, m⟩, ⟨8, tag⟩] ++ legacy ++ rest)) s =
      .next { s with mode := m, result := some .ok, outputs := [] } :=
  exec_load_of_some hc (loadStream_of_not_super hs (readHead_fields _ m tag legacy rest hw))

/-- The head of a stream with a bank field leaves the bank field to be read. -/
theorem readHead_before_bank {ws : List Nat} {m tag b : Byte} {legacy rest : Stream}
    (hw : legacy.map (fun f => f.width) = ws) :
    readHead ws ([⟨8, m⟩, ⟨8, tag⟩] ++ legacy ++ [⟨8, b⟩] ++ rest) = some (m, ⟨8, b⟩ :: rest) := by
  rw [List.append_assoc _ [_] rest]
  exact readHead_fields ws m tag legacy (⟨8, b⟩ :: rest) hw

/-- LOAD with a SUPER cartridge sets MODE and copies the bank. -/
theorem exec_load_of_super {s : State} {c : Cartridge} {m tag b : Byte} {legacy rest : Stream}
    (hc : s.crashed = false) (hw : legacy.map (fun f => f.width) = s.cfg.legacy) (hcart : s.cart = some c)
    (hs : c.cls = .super) (hb : b.toNat < 16) :
    exec (.load ([⟨8, m⟩, ⟨8, tag⟩] ++ legacy ++ [⟨8, b⟩] ++ rest)) s =
      .next { copyBank c b.toNat { s with mode := m } with result := some .ok, outputs := [] } := by
  have hload := loadStream_of_super (s := s.opened) hcart hs (readHead_before_bank (m := m) (tag := tag) (b := b)
    (rest := rest) hw)
  rw [readBank_of_lt hb] at hload
  exact exec_load_of_some hc hload

/-- LOAD with a SUPER cartridge refuses a bank that it does not have. -/
theorem exec_load_of_bank_ge {s : State} {m tag b : Byte} {legacy rest : Stream} (hc : s.crashed = false)
    (hw : legacy.map (fun f => f.width) = s.cfg.legacy) (hs : s.cartIsSuper = true) (hb : 16 ≤ b.toNat) :
    exec (.load ([⟨8, m⟩, ⟨8, tag⟩] ++ legacy ++ [⟨8, b⟩] ++ rest)) s =
      .next { s with result := some (.refused .snapshotMismatch), outputs := [] } := by
  obtain ⟨c, hcart, hcls⟩ := (cartIsSuper_iff s).1 hs
  refine exec_load_of_none hc ((loadStream_of_super (s := s.opened) hcart hcls (readHead_before_bank hw)).trans ?_)
  rw [readBank_of_ge hb]
  rfl

/-! ### A stream that ends early (R175) -/

/-- Fields are skipped one after the other. -/
theorem skipFields_append (ws vs : List Nat) (stream : Stream) :
    skipFields (ws ++ vs) stream = (skipFields ws stream).bind (skipFields vs) := by
  induction ws generalizing stream with
  | nil => rfl
  | cons w ws ih =>
    simp only [List.cons_append, skipFields]
    cases readField w stream with
    | none => rfl
    | some r => exact ih r.2

/-- Reading the head takes the mode flags, the tag and the legacy fields off the stream (44 R173). -/
theorem skipFields_head (legacy : List Nat) (stream : Stream) :
    skipFields (8 :: 8 :: legacy) stream = (readHead legacy stream).map Prod.snd := by
  simp only [skipFields, readHead]
  cases readField 8 stream with
  | none => rfl
  | some mode =>
    simp only
    cases readField 8 mode.2 with
    | none => rfl
    | some tag =>
      simp only
      cases skipFields legacy tag.2 with
      | none => rfl
      | some rest => rfl

/-- No bank is read where no 8-bit field is left. -/
theorem readBank_of_skipFields {stream : Stream} (h : skipFields [8] stream = none) : readBank stream = none := by
  simp only [skipFields] at h
  simp only [readBank]
  cases hr : readField 8 stream with
  | none => rfl
  | some r => simp [hr] at h

/-- A stream without ADB's fields does not serve. -/
theorem loadStream_of_skipFields {s : State} {stream : Stream} (h : skipFields (snapshotWidths s) stream = none) :
    loadStream stream s = none := by
  have hsplit : ((readHead s.cfg.legacy stream).map Prod.snd).bind
      (skipFields (if s.cartIsSuper then [8] else [])) = none := by
    rw [← skipFields_head, ← skipFields_append]
    exact h
  cases hhead : readHead s.cfg.legacy stream with
  | none => simp only [loadStream, hhead]
  | some head =>
    rw [hhead] at hsplit
    cases hs : s.cartIsSuper with
    | false =>
      rw [hs] at hsplit
      cases hsplit
    | true =>
      rw [hs] at hsplit
      obtain ⟨c, hcart, hcls⟩ := (cartIsSuper_iff s).1 hs
      rw [loadStream_of_super hcart hcls hhead, readBank_of_skipFields hsplit]
      rfl

/-! ### LOAD and the round trip (R175) -/

/-- Settles O38: LOAD by the fields of the stream, and by the stream's end. -/
theorem loadRestoresModeAndBank : Obligations.LoadRestoresModeAndBank := by
  refine ⟨fun s m tag b legacy rest hc hw => ⟨exec_load_of_not_super hc hw, fun c hcart hs hb => ?_,
    exec_load_of_bank_ge hc hw⟩, fun s stream hc hw hlen => ?_, fun _ => refusedWhenCrashed _⟩
  · exact ⟨_, exec_load_of_super hc hw hcart hs hb, rfl, fun a => Memory.read_overwrite_slice _ _ _ _ _ _ a.isLt⟩
  · exact exec_load_of_none hc (loadStream_of_skipFields (s := s.opened) (skipFields_short _ stream hw hlen))

/-- The stream of a SAVE restores the bank and the mode it was written with: a bank below 16 survives its 8-bit
field. -/
theorem exec_load_saveStream {s u : State} {c : Cartridge} (hu : u.crashed = false) (hcfg : u.cfg = s.cfg)
    (hcart : s.cart = some c) (hucart : u.cart = some c) (hs : c.cls = .super) (hb : s.bank < 16) :
    exec (.load (saveStream s)) u =
      .next { copyBank c s.bank { u with mode := s.mode } with result := some .ok, outputs := [] } := by
  have hsuper : s.cartIsSuper = true := (cartIsSuper_iff s).2 ⟨c, hcart, hs⟩
  have hfield : (BitVec.ofNat 8 s.bank).toNat = s.bank := by
    rw [BitVec.toNat_ofNat, Nat.mod_eq_of_lt (by omega)]
  have hwidths : (s.cfg.legacy.map fun w => (⟨w, 0⟩ : Field)).map (fun f => f.width) = u.cfg.legacy := by
    rw [hcfg, List.map_map]
    exact List.map_id _
  have hload := exec_load_of_super (m := s.mode) (tag := tagField s) (rest := []) hu hwidths hucart hs
    (hfield.trans_lt hb)
  rwa [List.append_nil, ← saveStream_of_super hsuper, hfield] at hload

/-- A bank copied into a 32KiB window shows at every window address (42 R128). -/
theorem read_copyBank_window {s : State} (hlen : winLen s.cfg = 0x8000) (c : Cartridge) (b : Nat) {a : Addr}
    (ha : inWindow s.cfg a.toNat = true) :
    (copyBank c b s).mem.read a.toNat = imageByte c.img (b * 0x8000 + (a.toNat - winBase s.cfg)) := by
  have hwin := (inWindow_iff _ _).1 ha
  have hcovered : winBase s.cfg ≤ a.toNat ∧ a.toNat < winBase s.cfg + bankSize := by
    unfold winLen at hlen
    unfold winBase bankSize
    omega
  rw [copyBank_mem, Memory.read_overwrite_slice _ _ _ _ _ _ a.isLt, if_pos hcovered, bankSize]

/-- Settles O39: LOAD copies the saved bank over the whole window, whatever bank and bytes stood there. -/
theorem saveThenLoadRestoresTheBank : Obligations.SaveThenLoadRestoresTheBank := by
  intro s t u c fields hc hi hcart hs hsave hfields hu hucart hcfg
  obtain ⟨htotal, -, hlen⟩ := hi.superCart c hcart hs
  rw [exec_save_running hc] at hsave
  obtain rfl := Host.Outcome.next.inj hsave
  obtain rfl := Result.stream.inj (Option.some.inj hfields)
  refine ⟨_, exec_load_saveStream hu hcfg hcart (hucart.trans hcart) hs (htotal ▸ hi.bank), rfl, rfl, rfl,
    fun a ha => ?_⟩
  rw [← hcfg] at hlen ha
  refine (read_copyBank_window (s := { u with mode := s.mode }) hlen c s.bank ha).trans ?_
  rw [view, hcart, hcfg]
  simp only [viewOf, hs]

end Sys2Proof.Machine
end

section
/-! PROOFS. Exceptions and privilege (spec 60_exceptions.md): the crashed machine (R191) and what the guest may not do
(R198). -/

namespace Sys2Proof.Machine

/-! ### The crashed machine (R191) -/

/-- A step from a crashed state idles or refuses, so it changes only the queue and the reports (60 R191). -/
theorem step_crashed {s t : State} (hc : s.crashed = true) (h : step s = .next t) :
    t = { s with requests := t.requests, result := t.result, outputs := t.outputs } := by
  obtain ⟨-, hstep⟩ := step_cases h
  rcases hstep with ⟨-, rfl⟩ | ⟨r, rest, reason, -, -, rfl⟩ | ⟨r, rest, i, -, -, he⟩
  · rfl
  · rfl
  · rw [exec_crashed i (s := { s with requests := rest }) hc] at he
    obtain rfl := Host.Outcome.next.inj he
    rfl

/-- Settles O6: the crash refusal of every operation, what a step can then be, and CRASHED = 0 at power-on. -/
theorem crashedMachineRefusesEveryOperation : Obligations.CrashedMachineRefusesEveryOperation :=
  ⟨refusedWhenCrashed, fun _ _ => step_crashed, fun _ => rfl⟩

/-! ### The port split (R198) -/

/-- Settles O46: by O44 each of these elements has its writers, and all of them are host-port operations but the WR at
CTRL_ADDR, which writes PT and CTRL. -/
theorem cpuPortCannotReconfigure : Obligations.CpuPortCannotReconfigure := by
  intro i s t hport h
  obtain ⟨-, -, hpt, -, hctrl, hmode, hcart, htotal, -, -, hesc, -⟩ := stateIsWrittenOnlyByItsOperations i s t h
  refine ⟨?_, ?_, ?_, ?_, fun hno => ⟨?_, ?_⟩⟩ <;> by_contra hne
  · rcases hcart hne with ⟨_, _, rfl⟩ | rfl <;> cases hport
  · rcases htotal hne with ⟨_, _, rfl⟩ | rfl <;> cases hport
  · rcases hesc hne with ⟨_, _, _, rfl⟩ | ⟨_, _, _, rfl⟩ | ⟨_, rfl⟩ <;> cases hport
  · rcases hmode hne with ⟨_, rfl⟩ | ⟨_, rfl⟩ <;> cases hport
  · rcases hpt hne with ⟨_, _, _, rfl⟩ | ⟨_, rfl⟩ | ⟨_, _, rfl⟩ | rfl | rfl | ⟨addr, v, rfl, ha⟩
    iterate 5 · cases hport
    exact hno v addr rfl ha
  · rcases hctrl hne with ⟨_, rfl⟩ | ⟨addr, v, rfl, ha⟩
    · cases hport
    · exact hno v addr rfl ha

end Sys2Proof.Machine
end

section
/-! PROOFS. Reset and hazards (spec 70_reset_and_hazards.md): the rejected configurations (R215) and the power-on state
(R210), in general and under the reference configuration (95 section 1.3). -/

namespace Sys2Proof.Machine

/-! ### Ill-formed configurations (R215, log 13, log 22) -/

/-- No operation of the model is without a meaning: exec refuses none. -/
theorem exec_ne_refused (i : Instr) (s : State) (r : Refusal) : exec i s ≠ .refused r := by
  cases hc : s.crashed with
  | true =>
    rw [exec_crashed i hc]
    exact nofun
  | false =>
    cases hw : i.wf with
    | true =>
      obtain ⟨res, he⟩ := exec_running hc hw
      rw [he]
      exact nofun
    | false =>
      rw [exec_illegal hc hw]
      exact nofun

/-- Under a configuration that passes the check no step is refused: it idles, answers the requester with a refusal,
which is a next state, or runs an operation (60 R194). -/
theorem step_ne_refused {s : State} (hk : configOk s.cfg = true) (r : Refusal) : step s ≠ .refused r := by
  cases hq : s.requests with
  | nil =>
    rw [step_of_no_request hk hq]
    exact nofun
  | cons req rest =>
    cases ha : accept req with
    | error reason =>
      rw [step_of_not_accepted hk hq ha]
      exact nofun
    | ok i =>
      rw [step_of_accepted hk hq ha]
      exact exec_ne_refused i _ r

/-- Settles O8: the check passes exactly the configurations that keep every item of R215 and the two items of the
model's own, a step is refused where it fails, and nothing else refuses a step. -/
theorem illFormedConfigIsRejected : Obligations.IllFormedConfigIsRejected := by
  refine ⟨fun s hbroken => step_of_not_configOk fun hk => ?_, fun s hwf hrows hinit => ?_, fun s hk => ?_⟩
  · obtain ⟨hwf, -⟩ := (configOk_iff_wellFormed s.cfg).1 hk
    exact hbroken hwf
  · have hk : configOk s.cfg = true := (configOk_iff_wellFormed s.cfg).2 ⟨hwf, hrows, hinit⟩
    exact ⟨hk, step_ne_refused hk⟩
  · exact step_of_not_configOk (ne_true_of_eq_false hk)

/-! ### Power-on (R210) -/

/-- An enabled overlay shows its ROM's bytes at power-on. -/
theorem powerOnByte_on {o : Overlay} {latch : Byte} (h : overlayOn o latch = true) (a : Addr) (before : Byte) :
    powerOnByte o latch a before = (romAt o.ranges o.rom a.toNat).getD before :=
  if_pos ((overlayOn_iff o latch).1 h)

theorem powerOnByte_off {o : Overlay} {latch : Byte} (h : ¬overlayOn o latch = true) (a : Addr) (before : Byte) :
    powerOnByte o latch a before = before :=
  if_neg (mt (overlayOn_iff o latch).2 h)

/-- An enabled overlay's pages are ROM at power-on. -/
theorem powerOnTag_on {o : Overlay} {latch : Byte} (h : overlayOn o latch = true) (p : Byte) (before : Tag) :
    powerOnTag o latch p before = if overlayCovers o p then .rom else before :=
  if_congr (and_iff_right ((overlayOn_iff o latch).1 h)) rfl rfl

theorem powerOnTag_off {o : Overlay} {latch : Byte} (h : ¬overlayOn o latch = true) (p : Byte) (before : Tag) :
    powerOnTag o latch p before = before :=
  if_neg fun hon => h ((overlayOn_iff o latch).2 hon.1)

/-- THE SPEC OF ONE OVERLAY AT POWER-ON, bytes (70 R210): the ROM's bytes if the latch enables it. -/
theorem read_powerOnOverlay {o : Overlay} (ho : overlayOk o = true) (latch : Byte) (m : Memory) (a : Addr) :
    (if overlayOn o latch then copyRom o.ranges o.rom m else m).read a.toNat =
      powerOnByte o latch a (m.read a.toNat) := by
  obtain ⟨hordered, hlength⟩ := (overlayOk_iff o).1 ho
  by_cases hon : overlayOn o latch = true
  · rw [if_pos hon, powerOnByte_on hon, read_copyRom _ _ _ _ a.isLt hordered hlength.ge]
  · rw [if_neg hon, powerOnByte_off hon]

/-- THE SPEC OF ONE OVERLAY AT POWER-ON, tags (70 R210): ROM on its ranges if the latch enables it. -/
theorem tag_powerOnOverlay (o : Overlay) (latch : Byte) (pt : PageTable) (p : Byte) :
    (if overlayOn o latch then pt.setRanges o.ranges .rom else pt).tag p = powerOnTag o latch p (pt.tag p) := by
  by_cases hon : overlayOn o latch = true
  · rw [if_pos hon, powerOnTag_on hon, PageTable.tag_setRanges]
    rfl
  · rw [if_neg hon, powerOnTag_off hon]

/-- THE SPEC OF MEM AT POWER-ON (70 R210). -/
theorem read_powerOn {cfg : Config} (hk : configOk cfg = true) (a : Addr) :
    (State.powerOn cfg).mem.read a.toNat =
      powerOnByte cfg.ovlSelftest cfg.ctrlReset a (powerOnByte cfg.ovlBasic cfg.ctrlReset a
        (powerOnByte cfg.ovlOs cfg.ctrlReset a
          (if inWindow cfg a.toNat then 0x00 else Memory.read cfg.memInit a.toNat))) := by
  obtain ⟨hos, hbasic, hself⟩ := overlaysOk_of_configOk hk
  change (powerOnBytes cfg).read a.toNat = _
  rw [powerOnBytes, read_powerOnOverlay hself, read_powerOnOverlay hbasic, read_powerOnOverlay hos, read_clearWindow]

/-- A page table built with one tag has it on every page. -/
theorem tag_replicate (t : Tag) (p : Byte) : PageTable.tag (Vector.replicate 256 t) p = t :=
  Vector.getElem_replicate ..

/-- THE SPEC OF PT AT POWER-ON (70 R210). -/
theorem tag_powerOn (cfg : Config) (p : Byte) :
    (State.powerOn cfg).pt.tag p =
      powerOnTag cfg.ovlSelftest cfg.ctrlReset p (powerOnTag cfg.ovlBasic cfg.ctrlReset p
        (powerOnTag cfg.ovlOs cfg.ctrlReset p
          (if (winFirstPage cfg).toNat ≤ p.toNat ∧ p.toNat ≤ (winLastPage cfg).toNat then .rom else .ram))) := by
  change (powerOnPages cfg).tag p = _
  rw [powerOnPages, tag_powerOnOverlay, tag_powerOnOverlay, tag_powerOnOverlay, tag_sealWindow, tag_replicate]

/-- No escape slot is valid at power-on (70 R210). -/
theorem slot_powerOn (cfg : Config) (c : Byte) : (State.powerOn cfg).slot c = ⟨false, 0, 0⟩ :=
  Vector.getElem_replicate ..

/-- Settles O49: MEM and PT are built overlay by overlay, and power-on names every other element. -/
theorem powerOnState : Obligations.PowerOnState := fun cfg hk =>
  ⟨read_powerOn hk, tag_powerOn cfg, rfl, rfl, rfl, rfl, rfl, rfl, rfl,
    fun c => congrArg Slot.valid (slot_powerOn cfg c), rfl, rfl⟩

/-! ### The reference power-on state P0 (95 section 1.3, log 2, log 3) -/

/-- A pattern ROM's byte i is its base with the page's number (95 section 1.1). -/
theorem romBytes_patternRom_getElem? (base : Byte) {count i : Nat} (hi : i < 256 * count) :
    (romBytes (patternRom base count))[i]? = some (base ||| BitVec.ofNat 8 (i / 256)) := by
  have hpage : i / 256 < count := Nat.div_lt_of_lt_mul hi
  rw [romBytes_getElem?, patternRom, List.getElem?_map, List.getElem?_range hpage]
  simp only [Option.map_some, Vector.getElem_replicate]

/-- The OS ROM's pages are numbered in the low nibble, free in 0xE0. -/
theorem osPage_or (i : Nat) (hi : i < 16) : (0xE0 : Byte) ||| BitVec.ofNat 8 i = BitVec.ofNat 8 (0xE0 + i) := by
  revert i
  decide

/-- The OS overlay's ROM over pages 0xF0 to 0xFF (95 section 1.1). -/
theorem romAt_refOs (a : Addr) : romAt refOs.ranges refOs.rom a.toNat =
    if 0xF000 ≤ a.toNat then some (BitVec.ofNat 8 (0xE0 + (a.toNat - 0xF000) / 256)) else none := by
  have ha : a.toNat < 65536 := a.isLt
  change (if 0xF000 ≤ a.toNat ∧ a.toNat ≤ 0xFFFF then (romBytes (patternRom 0xE0 16))[a.toNat - 0xF000]? else none) = _
  by_cases h : 0xF000 ≤ a.toNat
  · rw [if_pos ⟨h, by omega⟩, if_pos h, romBytes_patternRom_getElem? _ (by omega), osPage_or _ (by omega)]
  · rw [if_neg fun hin => h hin.1, if_neg h]

/-- Of the reference overlays CTRL_RESET enables the OS alone (95 section 1.1). -/
theorem refOverlays_on : overlayOn refOs 0xFF = true ∧ ¬overlayOn refBasic 0xFF = true ∧
    ¬overlayOn refSelftest 0xFF = true := by
  decide

/-- Power-on's bytes under the reference configuration: the OS ROM over 0x00, which the window and MEM_INIT show. -/
theorem read_reset (a : Addr) : State.reset.mem.read a.toNat =
    if 0xF000 ≤ a.toNat then BitVec.ofNat 8 (0xE0 + (a.toNat - 0xF000) / 256) else 0x00 := by
  obtain ⟨hos, hbasic, hself⟩ := refOverlays_on
  have hzero : (if inWindow referenceConfig a.toNat then 0x00 else Memory.read referenceConfig.memInit a.toNat) =
      (0x00 : Byte) := ite_self _
  calc State.reset.mem.read a.toNat
      = powerOnByte refSelftest 0xFF a (powerOnByte refBasic 0xFF a (powerOnByte refOs 0xFF a
          (if inWindow referenceConfig a.toNat then 0x00 else Memory.read referenceConfig.memInit a.toNat))) :=
        read_powerOn configOk_referenceConfig a
    _ = (romAt refOs.ranges refOs.rom a.toNat).getD 0x00 := by
        rw [hzero, powerOnByte_off hself, powerOnByte_off hbasic, powerOnByte_on hos]
    _ = _ := by
        rw [romAt_refOs]
        split <;> rfl

theorem overlayCovers_refOs (p : Byte) : overlayCovers refOs p = true ↔ 0xF0 ≤ p.toNat := by
  revert p
  decide

/-- Power-on's tags under the reference configuration: the window and the OS overlay's pages are ROM. -/
theorem tag_reset (p : Byte) : State.reset.pt.tag p =
    if (0x40 ≤ p.toNat ∧ p.toNat ≤ 0xBF) ∨ 0xF0 ≤ p.toNat then .rom else .ram := by
  obtain ⟨hos, hbasic, hself⟩ := refOverlays_on
  calc State.reset.pt.tag p
      = powerOnTag refSelftest 0xFF p (powerOnTag refBasic 0xFF p (powerOnTag refOs 0xFF p
          (if 0x40 ≤ p.toNat ∧ p.toNat ≤ 0xBF then .rom else .ram))) := tag_powerOn referenceConfig p
    _ = if overlayCovers refOs p then .rom else if 0x40 ≤ p.toNat ∧ p.toNat ≤ 0xBF then .rom else .ram := by
        rw [powerOnTag_off hself, powerOnTag_off hbasic, powerOnTag_on hos]
    _ = _ := by
        by_cases h : 0xF0 ≤ p.toNat
        · rw [if_pos ((overlayCovers_refOs p).2 h), if_pos (Or.inr h)]
        · rw [if_neg (mt (overlayCovers_refOs p).1 h)]
          simp only [h, or_false]

/-- Settles O50: the power-on spec at the reference configuration, where the OS alone is enabled. -/
theorem resetIsTheReferencePowerOn : Obligations.ResetIsTheReferencePowerOn :=
  ⟨tag_reset, read_reset, rfl, rfl⟩

end Sys2Proof.Machine
end
